-- ==== Sys2Proof/Word.lean ====
section
/-!
DEFINITION. The words of the block: byte, 16-bit header, 32-bit data object (`spec/00_scope.md` R10, R11).
Every value of the codec is unsigned; the one signed quantity, the sampler's step, is an `Int`.
-/

namespace Sys2Proof

/-- One byte: a chip register, a FIFO byte, a chip register address (R50). -/
abbrev Byte := BitVec 8

/-- The 16-bit message header (`HDR_WIDTH` of R10). -/
abbrev Half := BitVec 16

/-- A 32-bit data object (`OBJ_WIDTH` of R10). -/
abbrev Word := BitVec 32

end Sys2Proof
end

