-- ==== Sys2Proof/Config.lean ====
section
/-!
DEFINITION. The parameters of `spec/00_scope.md` R10, and the environment's free answers.

The ceilings the source fixes are plain constants. The parameters it names without a value form the
record `Params`, which stands in the state as `cfg`, is written by no operation, and over which every
claim quantifies (R10: "a model must keep them as parameters"). The record's defaults are PRESUMED
(log entry 13). What the spec leaves to the chip, the bus or the host's clock is an opaque constant.
-/

namespace Sys2Proof

/-- `MAX_NDO` of R10: data objects per message. -/
def Config.maxNdo : Nat := 7

/-- `CAPLIST_CAPACITY` of R10. -/
def Config.capListCapacity : Nat := 8

/-- `RX_BUF_MIN` of R10: "≥ 2 + 4×7 = 30 bytes". -/
def Config.rxBufMin : Nat := 30

/-- `TX_FRAME_MAX` of R10. -/
def Config.txFrameMax : Nat := 39

/-- `MV_PER_VOLT_RAW` of R10. -/
def Config.mvPerVoltRaw : Nat := 50

/-- `MA_PER_CUR_RAW` of R10. -/
def Config.maPerCurRaw : Nat := 10

/-- The largest `currentMa` in the domain of a Request (R87, D3). -/
def Config.maxCurrentMa : Nat := 10239

/-- The second table of R10, one field a parameter. Field types are the widths of the fields the
parameters fill. -/
structure Params where
  roleSink : BitVec 1
  roleSource : BitVec 1
  roleUfp : BitVec 1
  roleDfp : BitVec 1
  specRev20 : BitVec 2
  ctrlGoodCrc : BitVec 5
  ctrlAccept : BitVec 5
  ctrlReject : BitVec 5
  ctrlPsRdy : BitVec 5
  dataSourceCap : BitVec 5
  dataRequest : BitVec 5
  capFixed : BitVec 2
  capBattery : BitVec 2
  capVariable : BitVec 2
  capAugmented : BitVec 2
  tokSync1 : Byte
  tokSync2 : Byte
  tokPacksym : Byte
  tokJamCrc : Byte
  tokEop : Byte
  tokTxOff : Byte
  tokTxOn : Byte
  rxSopMask : Byte
  rxSopTag : Byte
  regFifo : Byte
  regMeasure : Byte
  measureVbus : Byte
  regStatus0 : Byte
  status0Comp : Byte
  regStatus1 : Byte
  status1RxEmpty : Byte
  vbusMvPerCount : Nat
  vbusCodeBias : Nat
  vbusMaxCode : Nat
  vbusFullStep : Nat
  tXactDelayUs : Nat
  tSrccapTimeoutMs : Nat
  tCcSettleMs : Nat
  clockWidth : Nat
  deriving DecidableEq, Repr

/-- `T_XACT_DELAY_US` of R10: OPEN, no default (D17). DESIGN CHOICE, safe: log entry 14. -/
opaque Config.openXactDelayUs : Nat

/-- `T_SRCCAP_TIMEOUT_MS` of R10: OPEN, no default (D31). DESIGN CHOICE, safe: log entry 14. -/
opaque Config.openSrccapTimeoutMs : Nat

/-- `T_CC_SETTLE_MS` of R10: OPEN, no default (D31). DESIGN CHOICE, safe: log entry 14. -/
opaque Config.openCcSettleMs : Nat

/-- The defaults of R10's second table. PRESUMED, unsafe: log entry 13 (the spec marks each "from
general knowledge, not in source"). -/
def Config.defaults : Params where
  roleSink := 0
  roleSource := 1
  roleUfp := 0
  roleDfp := 1
  specRev20 := 1
  ctrlGoodCrc := 1
  ctrlAccept := 3
  ctrlReject := 4
  ctrlPsRdy := 6
  dataSourceCap := 1
  dataRequest := 2
  capFixed := 0
  capBattery := 1
  capVariable := 2
  capAugmented := 3
  tokSync1 := 0x12
  tokSync2 := 0x13
  tokPacksym := 0x80
  tokJamCrc := 0xFF
  tokEop := 0x14
  tokTxOff := 0xFE
  tokTxOn := 0xA1
  rxSopMask := 0xE0
  rxSopTag := 0xE0
  regFifo := 0x43
  regMeasure := 0x04
  measureVbus := 0x40
  regStatus0 := 0x40
  status0Comp := 0x20
  regStatus1 := 0x41
  status1RxEmpty := 0x20
  vbusMvPerCount := 420
  vbusCodeBias := 1
  vbusMaxCode := 64
  vbusFullStep := 64
  tXactDelayUs := Config.openXactDelayUs
  tSrccapTimeoutMs := Config.openSrccapTimeoutMs
  tCcSettleMs := Config.openCcSettleMs
  clockWidth := 32

/-- The side conditions the spec puts on the parameters: control codes pairwise distinct (D6), the
tag in the high 3 bits (D12, R89), the four addresses pairwise distinct (D14). -/
abbrev Params.SideConditions (c : Params) : Prop :=
  [c.ctrlGoodCrc, c.ctrlAccept, c.ctrlReject, c.ctrlPsRdy].Nodup ∧
  c.tokPacksym &&& 0x1F = 0 ∧
  [c.regFifo, c.regMeasure, c.regStatus0, c.regStatus1].Nodup

/-- What the widths of R10, R92, R95 and R161 ask of the parameters beyond the spec's listed side
conditions. DEDUCED, safe: log entry 21. -/
abbrev Params.InRange (c : Params) : Prop :=
  c.rxSopMask = 0xE0 ∧
  c.rxSopTag &&& 0x1F = 0 ∧
  c.measureVbus &&& 0x3F = 0 ∧
  2 ≤ c.vbusMaxCode ∧ c.vbusMaxCode ≤ 64 ∧
  c.vbusFullStep ∈ [1, 2, 4, 8, 16, 32, 64]

/-- A parameter record a claim may quantify over. -/
abbrev Params.Ok (c : Params) : Prop := c.SideConditions ∧ c.InRange

/-- One answer of the environment, taken at each register transaction, each abstract chip action and
each reading of the clock (R67, R225, D18). Every field is free; each use reads the fields it needs. -/
structure Draw where
  /-- Bytes the chip received into its receive FIFO since the last answer (R36). -/
  arrive : List Byte
  /-- How many bytes the chip took out of its transmit FIFO since the last answer (R36). -/
  drain : Nat
  /-- The host's or the action's success indication (R52, R53, R181 to R184). -/
  ok : Bool
  /-- The bytes a successful read answers (R53); at `REG_FIFO`, those beyond the bytes present (U6). -/
  data : List Byte
  /-- How many bytes a failed access moved, or an abstract action dropped from the receive FIFO (U4, U5). -/
  moved : Nat
  /-- For a failed abstract action: whether a read failed, rather than a write (R185). -/
  readFault : Bool
  /-- The level `CcLevelRead` answers (R183, U20). -/
  level : Nat
  /-- Milliseconds since the clock was last read (R225). -/
  elapsed : Nat
  deriving DecidableEq, Repr, Inhabited

/-- The environment's `k`-th answer, where the state's script fixes none. DESIGN CHOICE, safe: log
entry 5. -/
opaque Config.environment : Nat → Draw

/-- Byte `i` of the `k`-th answer, where the answer itself holds fewer bytes than were asked for (U6).
DESIGN CHOICE, safe: log entry 7. -/
opaque Config.freeByte : Nat → Nat → Byte

/-- Byte `i` of the caller's buffer after an `RDFRAME` that failed with `k` answers taken (U2, D16).
DESIGN CHOICE, safe: log entry 16. -/
opaque Config.freeBuffer : Nat → Nat → Byte

end Sys2Proof
end

