-- ==== Sys2Proof/Syntax.lean ====
section
/-!
DEFINITION. The operations and wire formats of `spec/opcode_table.json`, one constructor a row
(`spec/00_scope.md` R3, `spec/30_encoding.md` R102, R104), with each operand typed by the width of the
field it fills (D3). What the types cannot say is checked in `Sys2Proof/WellFormed.lean`.
-/

namespace Sys2Proof

/-- A CC pin, 1 or 2 (`spec/10_state.md` R28). -/
inductive CcPin where
  | cc1
  | cc2
  deriving DecidableEq, Repr

/-- The five states of the sequencer (R23). -/
inductive NegState where
  | start
  | detectCc
  | enableTransceiver
  | waitSourceCapabilities
  | connected
  deriving DecidableEq, Repr

/-- What `UNPACKHDR` returns (R122). -/
structure HeaderFields where
  ndo : BitVec 3
  id : BitVec 3
  type : BitVec 5
  deriving DecidableEq, Repr

/-- The record `Unpacked` of R123. -/
structure Unpacked where
  tag : BitVec 2
  dualRolePower : Bool
  usbSuspend : Bool
  unconstrainedPower : Bool
  usbComm : Bool
  dualRoleData : Bool
  unchunkedExt : Bool
  peakCurrent : BitVec 2
  voltageMv : Nat
  maxCurrentMa : Nat
  deriving DecidableEq, Repr

/-- The meaning of a capability's type tag (R84). -/
inductive CapKind where
  | fixedSupply
  | battery
  | variableSupply
  | augmented
  deriving DecidableEq, Repr

/-- The eight wire formats of the table (R80 to R95). -/
inductive WireFormat where
  | header16
  | capability32
  | request32
  | txPacksym
  | txFrame
  | rxSop
  | rxFrame
  | measure8
  deriving DecidableEq, Repr

/-- The operation set, the internal procedure, and the wire formats. -/
inductive Instr where
  /-- `packHeader(messageType, numDataObjects, messageId, powerRole=Sink, dataRole=UFP, spec=Rev2.0)`
  (R121); `none` stands for an operand left out (R105). -/
  | packhdr (type : BitVec 5) (ndo id : BitVec 3) (pr dr : Option (BitVec 1)) (rev : Option (BitVec 2))
  /-- `unpackHeader(value)` (R122). -/
  | unpackhdr (value : Half)
  /-- `unpackCapability(packedU32)` (R123). -/
  | unpackcap (packed : Word)
  /-- `pack16le(v)` (R124). -/
  | pack16le (v : Half)
  /-- `unpack16le(b)` (R125). -/
  | unpack16le (b0 b1 : Byte)
  /-- `pack32le(v)` (R126). -/
  | pack32le (v : Word)
  /-- `unpack32le(b)` (R127). -/
  | unpack32le (b0 b1 b2 b3 : Byte)
  /-- `packRequest(index, currentMa)` (R128). -/
  | packreq (index : BitVec 3) (currentMa : Nat)
  /-- Single-byte register write (R140). -/
  | regwr1 (addr b : Byte)
  /-- Multi-byte register write (R141). -/
  | regwrn (addr : Byte) (bytes : List Byte)
  /-- Single-byte register read (R142). -/
  | regrd1 (addr : Byte)
  /-- Multi-byte register read (R143). -/
  | regrdn (addr : Byte) (n : Nat)
  /-- `writeMessage(header, numDataObjects≤7, dataObjects[])` (R144). -/
  | wrmsg (header : Half) (ndo : BitVec 3) (objects : List Word)
  /-- `readNextFrame(bufferOut)` (R145); `buf` is the caller's buffer before the call. -/
  | rdframe (buf : List Byte)
  /-- `updateVbus()` (R162). -/
  | vbusstep
  /-- `init()` (R185). -/
  | init
  /-- `reset()` (R186). -/
  | reset
  /-- `update()` (R187). -/
  | update
  /-- `requestCapability(index≥1, currentMa)` (R199). -/
  | reqcap (index : BitVec 3) (currentMa : Nat)
  /-- `getCapabilities()` (R200). -/
  | getcaps
  /-- `currentCapability()` (R201). -/
  | curcap
  /-- `powerStable()` (R202). -/
  | pwrstable
  /-- `getCcPin()` (R203). -/
  | getccpin
  /-- The message loop inside `UPDATE` (R190); the command port has no code for it (R102). -/
  | procmsg
  /-- The 16-bit message header (R80). -/
  | header16 (n i : BitVec 3) (p : BitVec 1) (r : BitVec 2) (d : BitVec 1) (t : BitVec 5)
  /-- The 32-bit capability object (R83); `x` is the ignored field of bits 23:22. -/
  | capability32 (y : BitVec 2) (a b c e f g : BitVec 1) (x k : BitVec 2) (v m : BitVec 10)
  /-- The 32-bit Request object (R86). -/
  | request32 (i : BitVec 3) (o m : BitVec 10)
  /-- The packed-symbol byte (R90). -/
  | txPacksym (count : BitVec 5)
  /-- The transmit frame (R88); the number of objects is the operand `numDataObjects` (R93). -/
  | txFrame (header : Half) (objects : List Word)
  /-- The receive start-of-frame byte (R92); its low 5 bits are ignored by the test. -/
  | rxSop (x : BitVec 5)
  /-- The receive frame (R91), with the four CRC bytes the chip delivers (R94). -/
  | rxFrame (x : BitVec 5) (header : Half) (objects : List Word) (c0 c1 c2 c3 : Byte)
  /-- The byte written to `REG_MEASURE` (R95). -/
  | measure8 (code : BitVec 6)
  deriving DecidableEq, Repr

end Sys2Proof
end

