-- ==== Sys2Proof/WellFormed.lean ====
section
/-!
DEFINITION. The domain of each operation beyond its operand types: `spec/30_encoding.md` R99 and decision
D3. A call outside its domain has no meaning and is refused ("it must not pick a masked value").
-/

namespace Sys2Proof

/-- The index and current of a Request are in the domain: 1..7 and 0..10239 (R87). -/
def requestInDomain (index : BitVec 3) (currentMa : Nat) : Bool :=
  decide (index ≠ 0) && decide (currentMa ≤ Config.maxCurrentMa)

/-- The operands are in the operation's domain (R99): the sequence of `REGWRN` has a byte (R52), the
length of `REGRDN` is at least 1 (R53), `WRMSG` has its objects (R144), the buffer of `RDFRAME` holds 30
bytes (R253), a frame carries at most 7 objects, and a received frame as many as its header says (R91). -/
def WellFormed : Instr → Bool
  | .packreq index currentMa => requestInDomain index currentMa
  | .reqcap index currentMa => requestInDomain index currentMa
  | .regwrn _ bytes => decide (1 ≤ bytes.length)
  | .regrdn _ n => decide (1 ≤ n)
  | .wrmsg _ ndo objects => decide (ndo.toNat ≤ objects.length)
  | .rdframe buf => decide (Config.rxBufMin ≤ buf.length)
  | .txFrame _ objects => decide (objects.length ≤ Config.maxNdo)
  | .rxFrame _ header objects _ _ _ _ => decide (objects.length = (header.extractLsb' 12 3).toNat)
  | .packhdr _ _ _ _ _ _ => true
  | .unpackhdr _ => true
  | .unpackcap _ => true
  | .pack16le _ => true
  | .unpack16le _ _ => true
  | .pack32le _ => true
  | .unpack32le _ _ _ _ => true
  | .regwr1 _ _ => true
  | .regrd1 _ => true
  | .vbusstep => true
  | .init => true
  | .reset => true
  | .update => true
  | .getcaps => true
  | .curcap => true
  | .pwrstable => true
  | .getccpin => true
  | .procmsg => true
  | .header16 _ _ _ _ _ _ => true
  | .capability32 _ _ _ _ _ _ _ _ _ _ _ => true
  | .request32 _ _ _ => true
  | .txPacksym _ => true
  | .rxSop _ => true
  | .measure8 _ => true

end Sys2Proof
end

