-- ==== Sys2Proof/Decode.lean ====
section
/-!
DEFINITION. Byte order, the wire layouts of `spec/30_encoding.md`, the decoder of the command port and of
the wire formats, and after them the encoder.

The codes of the command port are R102's. How the operands follow the code is not in the spec ("the
operation's operands as typed values", R101): DESIGN CHOICE, log entry 1. The bytes of the wire formats
are the spec's own (R80 to R95).
-/

namespace Sys2Proof

/-! ## Byte order (R55, R124 to R127) -/

/-- `le16(v)`: `[v[7:0], v[15:8]]` (R124). -/
def le16 (v : Half) : List Byte := [v.extractLsb' 0 8, v.extractLsb' 8 8]

/-- `from_le16(b)` (R125). -/
def fromLe16 (b0 b1 : Byte) : Half := b0.setWidth 16 ||| (b1.setWidth 16 <<< 8)

/-- `le32(v)`: `[v[7:0], v[15:8], v[23:16], v[31:24]]` (R126). -/
def le32 (v : Word) : List Byte :=
  [v.extractLsb' 0 8, v.extractLsb' 8 8, v.extractLsb' 16 8, v.extractLsb' 24 8]

/-- `from_le32(b)` (R127). -/
def fromLe32 (b0 b1 b2 b3 : Byte) : Word :=
  b0.setWidth 32 ||| (b1.setWidth 32 <<< 8) ||| (b2.setWidth 32 <<< 16) ||| (b3.setWidth 32 <<< 24)

/-- The data objects of a byte string, four bytes each, least significant first (R91). -/
def wordsOf : List Byte → List Word
  | b0 :: b1 :: b2 :: b3 :: t => fromLe32 b0 b1 b2 b3 :: wordsOf t
  | _ => []

/-! ## Wire layouts -/

/-- The header word (R80, R121): `ndo<<12 | id<<9 | pr<<8 | rev<<6 | dr<<5 | type`. -/
def headerWord (ndo id : BitVec 3) (pr : BitVec 1) (rev : BitVec 2) (dr : BitVec 1) (type : BitVec 5) :
    Half :=
  (ndo.setWidth 16 <<< 12) ||| (id.setWidth 16 <<< 9) ||| (pr.setWidth 16 <<< 8) |||
    (rev.setWidth 16 <<< 6) ||| (dr.setWidth 16 <<< 5) ||| type.setWidth 16

/-- The fields of a header that are read (R122). -/
def headerFields (v : Half) : HeaderFields where
  ndo := v.extractLsb' 12 3
  id := v.extractLsb' 9 3
  type := v.extractLsb' 0 5

/-- The capability word (R83), bit 31 on the left. -/
def capabilityWord (y : BitVec 2) (a b c e f g : BitVec 1) (x k : BitVec 2) (v m : BitVec 10) : Word :=
  y ++ a ++ b ++ c ++ e ++ f ++ g ++ x ++ k ++ v ++ m

/-- The Request word (R86): flag bit 24 always 1, bits 31, 27:25 and 23:20 always 0. -/
def requestWord (i : BitVec 3) (o m : BitVec 10) : Word :=
  (i.setWidth 32 <<< 28) ||| (1#32 <<< 24) ||| (o.setWidth 32 <<< 10) ||| m.setWidth 32

/-- The packed-symbol byte for a count of payload bytes (R90). -/
def packsymByte (c : Params) (count : BitVec 5) : Byte := c.tokPacksym ||| count.setWidth 8

/-- The payload of a frame: header, then data objects, little-endian (R88, R91). -/
def payloadBytes (header : Half) (objects : List Word) : List Byte :=
  le16 header ++ objects.flatMap le32

/-- The tokens before the payload (R88): preamble, terminator, packed symbol for `n` objects. -/
def txHead (c : Params) (n : Nat) : List Byte :=
  [c.tokSync1, c.tokSync1, c.tokSync1, c.tokSync2, packsymByte c (BitVec.ofNat 5 (2 + 4 * n))]

/-- The four tokens after the payload (R88). -/
def txTail (c : Params) : List Byte := [c.tokJamCrc, c.tokEop, c.tokTxOff, c.tokTxOn]

/-- The transmit frame (R88); its length and count come from the objects sent, not from the header
(R93, conflict C1). -/
def txFrameBytes (c : Params) (header : Half) (objects : List Word) : List Byte :=
  txHead c objects.length ++ payloadBytes header objects ++ txTail c

/-- The start-of-frame byte with low bits `x` (R92). -/
def sopByte (c : Params) (x : BitVec 5) : Byte := c.rxSopTag ||| x.setWidth 8

/-- The start-of-frame test of R92: `(b0 & RX_SOP_MASK) = RX_SOP_TAG`. -/
def sopMatches (c : Params) (b : Byte) : Bool := decide (b &&& c.rxSopMask = c.rxSopTag)

/-- The receive frame (R91). -/
def rxFrameBytes (c : Params) (x : BitVec 5) (header : Half) (objects : List Word) (crc : List Byte) :
    List Byte :=
  sopByte c x :: payloadBytes header objects ++ crc

/-- The byte written to `REG_MEASURE` (R95). -/
def measureByte (c : Params) (code : BitVec 6) : Byte := c.measureVbus ||| code.setWidth 8

/-! ## The decoder -/

/-- Why the decoder refuses, by name. -/
inductive Rejection where
  /-- The operation code is not in the code map (R103). -/
  | unknownOpcode (op : Byte)
  /-- The bytes end before the operation's operands do. -/
  | truncated
  /-- `messageType` above 31 (D3, U1). -/
  | messageType
  /-- `numDataObjects` above 7 (D3, U1). -/
  | numDataObjects
  /-- `messageId` above 7 (D3, U1). -/
  | messageId
  /-- A power role wider than its field. -/
  | powerRole
  /-- A data role wider than its field. -/
  | dataRole
  /-- A specification revision wider than its field. -/
  | specRevision
  /-- A capability index outside 1..7 (D3, U1). -/
  | capabilityIndex
  /-- `currentMa` above 10239 (D3, U1). -/
  | currentMa
  /-- The bytes do not have the wire format's fixed bits or length. -/
  | notOfFormat (f : WireFormat)
  deriving DecidableEq, Repr

/-- What a piece of the decoder answers: a value and the bytes after it, or a rejection. -/
abbrev Parsed (α : Type) := Except Rejection (α × List Byte)

/-- A piece of the decoder, then the next on the bytes it leaves. -/
def thenParse {α β : Type} (p : Parsed α) (k : α → List Byte → Parsed β) : Parsed β :=
  match p with
  | .ok (a, t) => k a t
  | .error e => .error e

/-- The 23 codes of the command port (R102). -/
inductive Op where
  | packhdr | unpackhdr | unpackcap | pack16le | unpack16le | pack32le | unpack32le | packreq
  | regwr1 | regwrn | regrd1 | regrdn | wrmsg | rdframe
  | vbusstep
  | init | reset | update | reqcap | getcaps | curcap | pwrstable | getccpin
  deriving DecidableEq, Repr

/-- The code map of R102. -/
def Op.code : Op → Byte
  | .packhdr => 0x10
  | .unpackhdr => 0x11
  | .unpackcap => 0x12
  | .pack16le => 0x13
  | .unpack16le => 0x14
  | .pack32le => 0x15
  | .unpack32le => 0x16
  | .packreq => 0x17
  | .regwr1 => 0x20
  | .regwrn => 0x21
  | .regrd1 => 0x22
  | .regrdn => 0x23
  | .wrmsg => 0x24
  | .rdframe => 0x25
  | .vbusstep => 0x30
  | .init => 0x40
  | .reset => 0x41
  | .update => 0x42
  | .reqcap => 0x43
  | .getcaps => 0x44
  | .curcap => 0x45
  | .pwrstable => 0x46
  | .getccpin => 0x47

/-- The operation a code selects; every other code selects none (R103). -/
def opOfCode (b : Byte) : Option Op :=
  match b.toNat with
  | 0x10 => some .packhdr
  | 0x11 => some .unpackhdr
  | 0x12 => some .unpackcap
  | 0x13 => some .pack16le
  | 0x14 => some .unpack16le
  | 0x15 => some .pack32le
  | 0x16 => some .unpack32le
  | 0x17 => some .packreq
  | 0x20 => some .regwr1
  | 0x21 => some .regwrn
  | 0x22 => some .regrd1
  | 0x23 => some .regrdn
  | 0x24 => some .wrmsg
  | 0x25 => some .rdframe
  | 0x30 => some .vbusstep
  | 0x40 => some .init
  | 0x41 => some .reset
  | 0x42 => some .update
  | 0x43 => some .reqcap
  | 0x44 => some .getcaps
  | 0x45 => some .curcap
  | 0x46 => some .pwrstable
  | 0x47 => some .getccpin
  | _ => none

/-- One byte holding a number of at most `w` bits; a larger one is refused, never masked (D3). -/
def takeField (w : Nat) (why : Rejection) : List Byte → Parsed (BitVec w)
  | [] => .error .truncated
  | b :: t => if b.toNat < 2 ^ w then .ok (b.setWidth w, t) else .error why

/-- One byte for an operand that can be left out: 0 is "left out", `v + 1` is the value `v` (R105). -/
def takeOptField (w : Nat) (why : Rejection) : List Byte → Parsed (Option (BitVec w))
  | [] => .error .truncated
  | b :: t =>
    if b = 0 then .ok (none, t)
    else if b.toNat ≤ 2 ^ w then .ok (some (BitVec.ofNat w (b.toNat - 1)), t)
    else .error why

/-- A count: each byte 255 adds 255 and goes on, the first smaller byte adds itself and ends. -/
def takeCount : List Byte → Parsed Nat
  | [] => .error .truncated
  | b :: t =>
    if b = 255 then
      match takeCount t with
      | .ok (n, r) => .ok (n + 255, r)
      | .error e => .error e
    else .ok (b.toNat, t)

/-- `n` bytes. -/
def takeBytes : Nat → List Byte → Parsed (List Byte)
  | 0, t => .ok ([], t)
  | _ + 1, [] => .error .truncated
  | n + 1, b :: t =>
    match takeBytes n t with
    | .ok (bs, r) => .ok (b :: bs, r)
    | .error e => .error e

/-- A 16-bit value, little-endian. -/
def takeHalf : List Byte → Parsed Half
  | b0 :: b1 :: t => .ok (fromLe16 b0 b1, t)
  | _ => .error .truncated

/-- A 32-bit value, little-endian. -/
def takeWord : List Byte → Parsed Word
  | b0 :: b1 :: b2 :: b3 :: t => .ok (fromLe32 b0 b1 b2 b3, t)
  | _ => .error .truncated

/-- `n` 32-bit values. -/
def takeWords : Nat → List Byte → Parsed (List Word)
  | 0, t => .ok ([], t)
  | n + 1, t =>
    match takeWord t with
    | .error e => .error e
    | .ok (w, r) =>
      match takeWords n r with
      | .ok (ws, r') => .ok (w :: ws, r')
      | .error e => .error e

/-- The index and current of a Request: the index less 1 in one byte, the current in two. -/
def takeRequest (t : List Byte) : Parsed (BitVec 3 × Nat) :=
  thenParse (takeField 8 .capabilityIndex t) fun k t =>
  if 7 ≤ k.toNat then .error .capabilityIndex
  else
    thenParse (takeHalf t) fun ma t =>
    if Config.maxCurrentMa < ma.toNat then .error .currentMa
    else .ok ((BitVec.ofNat 3 (k.toNat + 1), ma.toNat), t)

/-- The operands that follow each code, in the order of the source's signatures (R104). -/
def decodeOperands : Op → List Byte → Parsed Instr
  | .packhdr, t =>
    thenParse (takeField 5 .messageType t) fun type t =>
    thenParse (takeField 3 .numDataObjects t) fun ndo t =>
    thenParse (takeField 3 .messageId t) fun id t =>
    thenParse (takeOptField 1 .powerRole t) fun pr t =>
    thenParse (takeOptField 1 .dataRole t) fun dr t =>
    thenParse (takeOptField 2 .specRevision t) fun rev t =>
    .ok (.packhdr type ndo id pr dr rev, t)
  | .unpackhdr, t =>
    thenParse (takeHalf t) fun v t =>
    .ok (.unpackhdr v, t)
  | .unpackcap, t =>
    thenParse (takeWord t) fun w t =>
    .ok (.unpackcap w, t)
  | .pack16le, t =>
    thenParse (takeHalf t) fun v t =>
    .ok (.pack16le v, t)
  | .unpack16le, t =>
    match t with
    | b0 :: b1 :: t => .ok (.unpack16le b0 b1, t)
    | _ => .error .truncated
  | .pack32le, t =>
    thenParse (takeWord t) fun v t =>
    .ok (.pack32le v, t)
  | .unpack32le, t =>
    match t with
    | b0 :: b1 :: b2 :: b3 :: t => .ok (.unpack32le b0 b1 b2 b3, t)
    | _ => .error .truncated
  | .packreq, t =>
    thenParse (takeRequest t) fun r t =>
    .ok (.packreq r.1 r.2, t)
  | .regwr1, t =>
    match t with
    | addr :: b :: t => .ok (.regwr1 addr b, t)
    | _ => .error .truncated
  | .regwrn, t =>
    thenParse (takeField 8 .truncated t) fun addr t =>
    thenParse (takeCount t) fun n t =>
    thenParse (takeBytes (n + 1) t) fun bytes t =>
    .ok (.regwrn addr bytes, t)
  | .regrd1, t =>
    match t with
    | addr :: t => .ok (.regrd1 addr, t)
    | _ => .error .truncated
  | .regrdn, t =>
    thenParse (takeField 8 .truncated t) fun addr t =>
    thenParse (takeCount t) fun n t =>
    .ok (.regrdn addr (n + 1), t)
  | .wrmsg, t =>
    thenParse (takeHalf t) fun header t =>
    thenParse (takeField 3 .numDataObjects t) fun ndo t =>
    thenParse (takeCount t) fun extra t =>
    thenParse (takeWords (ndo.toNat + extra) t) fun objects t =>
    .ok (.wrmsg header ndo objects, t)
  | .rdframe, t =>
    thenParse (takeCount t) fun extra t =>
    thenParse (takeBytes (Config.rxBufMin + extra) t) fun buf t =>
    .ok (.rdframe buf, t)
  | .vbusstep, t => .ok (.vbusstep, t)
  | .init, t => .ok (.init, t)
  | .reset, t => .ok (.reset, t)
  | .update, t => .ok (.update, t)
  | .reqcap, t =>
    thenParse (takeRequest t) fun r t =>
    .ok (.reqcap r.1 r.2, t)
  | .getcaps, t => .ok (.getcaps, t)
  | .curcap, t => .ok (.curcap, t)
  | .pwrstable, t => .ok (.pwrstable, t)
  | .getccpin, t => .ok (.getccpin, t)

/-- The command at the head of the command port's bytes, and the bytes after it. -/
def decode : List Byte → Parsed Instr
  | [] => .error .truncated
  | b :: t =>
    match opOfCode b with
    | some op => decodeOperands op t
    | none => .error (.unknownOpcode b)

/-- The transmit frame of a byte string (R88): the number of objects is what the length leaves. -/
def decodeTxFrame (c : Params) (bs : List Byte) : Option Instr :=
  let n := (bs.length - 11) / 4
  let body := (bs.drop 5).take (2 + 4 * n)
  match body with
  | h0 :: h1 :: t =>
    if n ≤ Config.maxNdo ∧ bs = txHead c n ++ body ++ txTail c ∧ t.length = 4 * n then
      some (.txFrame (fromLe16 h0 h1) (wordsOf t))
    else none
  | _ => none

/-- The receive frame of a byte string (R91): the number of objects is the header's. -/
def decodeRxFrame (c : Params) (bs : List Byte) : Option Instr :=
  match bs with
  | s :: h0 :: h1 :: t =>
    let header := fromLe16 h0 h1
    let n := (headerFields header).ndo.toNat
    match t.drop (4 * n) with
    | [c0, c1, c2, c3] =>
      if sopMatches c s then
        some (.rxFrame (s.setWidth 5) header (wordsOf (t.take (4 * n))) c0 c1 c2 c3)
      else none
    | _ => none
  | _ => none

/-- A value in one of the eight wire formats, from its bytes (R80 to R95). Bit 15 of a header is ignored
(R97, D4); the fixed bits of the other formats are checked. -/
def decodeFormat (c : Params) (f : WireFormat) (bs : List Byte) : Except Rejection Instr :=
  match f, bs with
  | .header16, [b0, b1] =>
    let v := fromLe16 b0 b1
    .ok (.header16 (v.extractLsb' 12 3) (v.extractLsb' 9 3) (v.extractLsb' 8 1) (v.extractLsb' 6 2)
      (v.extractLsb' 5 1) (v.extractLsb' 0 5))
  | .capability32, [b0, b1, b2, b3] =>
    let v := fromLe32 b0 b1 b2 b3
    .ok (.capability32 (v.extractLsb' 30 2) (v.extractLsb' 29 1) (v.extractLsb' 28 1) (v.extractLsb' 27 1)
      (v.extractLsb' 26 1) (v.extractLsb' 25 1) (v.extractLsb' 24 1) (v.extractLsb' 22 2)
      (v.extractLsb' 20 2) (v.extractLsb' 10 10) (v.extractLsb' 0 10))
  | .request32, [b0, b1, b2, b3] =>
    let v := fromLe32 b0 b1 b2 b3
    if v.extractLsb' 31 1 = 0 ∧ v.extractLsb' 20 8 = 0x10 then
      .ok (.request32 (v.extractLsb' 28 3) (v.extractLsb' 10 10) (v.extractLsb' 0 10))
    else .error (.notOfFormat f)
  | .txPacksym, [b] =>
    if b &&& 0xE0 = c.tokPacksym then .ok (.txPacksym (b.setWidth 5)) else .error (.notOfFormat f)
  | .rxSop, [b] =>
    if sopMatches c b then .ok (.rxSop (b.setWidth 5)) else .error (.notOfFormat f)
  | .measure8, [b] =>
    if b &&& 0xC0 = c.measureVbus then .ok (.measure8 (b.setWidth 6)) else .error (.notOfFormat f)
  | .txFrame, bs =>
    match decodeTxFrame c bs with
    | some i => .ok i
    | none => .error (.notOfFormat f)
  | .rxFrame, bs =>
    match decodeRxFrame c bs with
    | some i => .ok i
    | none => .error (.notOfFormat f)
  | _, _ => .error (.notOfFormat f)

/-! ## The encoder -/

/-- A count, as `takeCount` reads it. -/
def putCount (n : Nat) : List Byte := List.replicate (n / 255) 255 ++ [BitVec.ofNat 8 (n % 255)]

/-- An operand that can be left out, as `takeOptField` reads it. -/
def putOptField {w : Nat} : Option (BitVec w) → Byte
  | none => 0
  | some v => BitVec.ofNat 8 (v.toNat + 1)

/-- The index and current of a Request, as `takeRequest` reads them. -/
def putRequest (index : BitVec 3) (currentMa : Nat) : List Byte :=
  BitVec.ofNat 8 (index.toNat - 1) :: le16 (BitVec.ofNat 16 currentMa)

/-- The code of an instruction that the command port takes (R102); the others have none. -/
def opOf : Instr → Option Op
  | .packhdr _ _ _ _ _ _ => some .packhdr
  | .unpackhdr _ => some .unpackhdr
  | .unpackcap _ => some .unpackcap
  | .pack16le _ => some .pack16le
  | .unpack16le _ _ => some .unpack16le
  | .pack32le _ => some .pack32le
  | .unpack32le _ _ _ _ => some .unpack32le
  | .packreq _ _ => some .packreq
  | .regwr1 _ _ => some .regwr1
  | .regwrn _ _ => some .regwrn
  | .regrd1 _ => some .regrd1
  | .regrdn _ _ => some .regrdn
  | .wrmsg _ _ _ => some .wrmsg
  | .rdframe _ => some .rdframe
  | .vbusstep => some .vbusstep
  | .init => some .init
  | .reset => some .reset
  | .update => some .update
  | .reqcap _ _ => some .reqcap
  | .getcaps => some .getcaps
  | .curcap => some .curcap
  | .pwrstable => some .pwrstable
  | .getccpin => some .getccpin
  | .procmsg => none
  | .header16 _ _ _ _ _ _ => none
  | .capability32 _ _ _ _ _ _ _ _ _ _ _ => none
  | .request32 _ _ _ => none
  | .txPacksym _ => none
  | .txFrame _ _ => none
  | .rxSop _ => none
  | .rxFrame _ _ _ _ _ _ _ => none
  | .measure8 _ => none

/-- The wire format an instruction is a value of; the operations are of none. -/
def formatOf : Instr → Option WireFormat
  | .header16 _ _ _ _ _ _ => some .header16
  | .capability32 _ _ _ _ _ _ _ _ _ _ _ => some .capability32
  | .request32 _ _ _ => some .request32
  | .txPacksym _ => some .txPacksym
  | .txFrame _ _ => some .txFrame
  | .rxSop _ => some .rxSop
  | .rxFrame _ _ _ _ _ _ _ => some .rxFrame
  | .measure8 _ => some .measure8
  | .packhdr _ _ _ _ _ _ => none
  | .unpackhdr _ => none
  | .unpackcap _ => none
  | .pack16le _ => none
  | .unpack16le _ _ => none
  | .pack32le _ => none
  | .unpack32le _ _ _ _ => none
  | .packreq _ _ => none
  | .regwr1 _ _ => none
  | .regwrn _ _ => none
  | .regrd1 _ => none
  | .regrdn _ _ => none
  | .wrmsg _ _ _ => none
  | .rdframe _ => none
  | .vbusstep => none
  | .init => none
  | .reset => none
  | .update => none
  | .reqcap _ _ => none
  | .getcaps => none
  | .curcap => none
  | .pwrstable => none
  | .getccpin => none
  | .procmsg => none

/-- The bytes of an instruction: code and operands on the command port, or the wire bytes of a format.
`PROCMSG` has none (R102). -/
def encode (c : Params) : Instr → List Byte
  | .packhdr type ndo id pr dr rev =>
    [Op.packhdr.code, type.setWidth 8, ndo.setWidth 8, id.setWidth 8, putOptField pr, putOptField dr,
      putOptField rev]
  | .unpackhdr v => Op.unpackhdr.code :: le16 v
  | .unpackcap w => Op.unpackcap.code :: le32 w
  | .pack16le v => Op.pack16le.code :: le16 v
  | .unpack16le b0 b1 => [Op.unpack16le.code, b0, b1]
  | .pack32le v => Op.pack32le.code :: le32 v
  | .unpack32le b0 b1 b2 b3 => [Op.unpack32le.code, b0, b1, b2, b3]
  | .packreq index ma => Op.packreq.code :: putRequest index ma
  | .regwr1 addr b => [Op.regwr1.code, addr, b]
  | .regwrn addr bytes => Op.regwrn.code :: addr :: (putCount (bytes.length - 1) ++ bytes)
  | .regrd1 addr => [Op.regrd1.code, addr]
  | .regrdn addr n => Op.regrdn.code :: addr :: putCount (n - 1)
  | .wrmsg header ndo objects =>
    Op.wrmsg.code :: (le16 header ++ (ndo.setWidth 8 :: (putCount (objects.length - ndo.toNat) ++
      objects.flatMap le32)))
  | .rdframe buf => Op.rdframe.code :: (putCount (buf.length - Config.rxBufMin) ++ buf)
  | .vbusstep => [Op.vbusstep.code]
  | .init => [Op.init.code]
  | .reset => [Op.reset.code]
  | .update => [Op.update.code]
  | .reqcap index ma => Op.reqcap.code :: putRequest index ma
  | .getcaps => [Op.getcaps.code]
  | .curcap => [Op.curcap.code]
  | .pwrstable => [Op.pwrstable.code]
  | .getccpin => [Op.getccpin.code]
  | .procmsg => []
  | .header16 n i p r d t => le16 (headerWord n i p r d t)
  | .capability32 y a b c' e f g x k v m => le32 (capabilityWord y a b c' e f g x k v m)
  | .request32 i o m => le32 (requestWord i o m)
  | .txPacksym count => [packsymByte c count]
  | .txFrame header objects => txFrameBytes c header objects
  | .rxSop x => [sopByte c x]
  | .rxFrame x header objects c0 c1 c2 c3 => rxFrameBytes c x header objects [c0, c1, c2, c3]
  | .measure8 code => [measureByte c code]

/-! ## Words of the opcode table -/

/-- Where an instruction of the table stands before it is taken: on the command port, among the wire
values, or inside `UPDATE` (`PROCMSG` alone, which has no bits). -/
inductive Placed where
  | port (bytes : List Byte)
  | wire (f : WireFormat) (bytes : List Byte)
  | internal
  deriving DecidableEq, Repr

/-- The first `k` bytes of a number, least significant first. -/
def bytesOfNat : Nat → Nat → List Byte
  | 0, _ => []
  | k + 1, w => BitVec.ofNat 8 w :: bytesOfNat k (w / 256)

/-- Zero operands behind a code: the longest command whose operands are all zero bytes is `RDFRAME`. -/
def zeroOperands : List Byte := List.replicate (1 + Config.rxBufMin) 0

/-- Where the instruction of `nbits` bits `w` stands. A byte that is a code of R102 is a command; the
other bytes of the table's rows are wire values. DESIGN CHOICE: log entry 25. -/
def placeTableWord (nbits w : Nat) : Placed :=
  let c := Config.defaults
  let b : Byte := BitVec.ofNat 8 w
  if nbits = 0 then .internal
  else if nbits ≤ 8 then
    if (opOfCode b).isSome then .port (b :: zeroOperands)
    else if b &&& 0xE0 = c.tokPacksym then .wire .txPacksym [b]
    else if sopMatches c b then .wire .rxSop [b]
    else if b &&& 0xC0 = c.measureVbus then .wire .measure8 [b]
    else .port (b :: zeroOperands)
  else if nbits ≤ 16 then .wire .header16 (bytesOfNat 2 w)
  else if nbits ≤ 32 then
    let v : Word := BitVec.ofNat 32 w
    if v.extractLsb' 31 1 = 0 ∧ v.extractLsb' 20 8 = 0x10 then .wire .request32 (bytesOfNat 4 w)
    else .wire .capability32 (bytesOfNat 4 w)
  else
    let bs := bytesOfNat (nbits / 8) w
    if (decodeTxFrame c bs).isSome then .wire .txFrame bs else .wire .rxFrame bs

/-- The instruction this model's decoder reads from an instruction of `nbits` bits `w`, numbered as
`spec/opcode_table.json` numbers them. -/
def decodeTableWord (nbits w : Nat) : Option Instr :=
  match placeTableWord nbits w with
  | .internal => some .procmsg
  | .port bs =>
    match decode bs with
    | .ok (i, _) => some i
    | .error _ => none
  | .wire f bs =>
    match decodeFormat Config.defaults f bs with
    | .ok i => some i
    | .error _ => none

end Sys2Proof
end

