-- ==== Sys2Proof/Machine/State.lean ====
section
/-!
DEFINITION. The state of the machine as plain data: the block's registers (`spec/10_state.md` R20 to
R37), the chip's state that the operations expose (R34, R35), the record of transactions (R51), and the
model's own fields for what the host and the chip supply. `INVENTORY.md` lists each with its reset value.
-/

namespace Sys2Proof.Machine

/-- The failure causes of `spec/60_exceptions.md` R210. Bookkeeping: the host sees a boolean (D38). -/
inductive Cause where
  | ioRead
  | ioWrite
  | sopMismatch
  deriving DecidableEq, Repr

/-- Why the machine stops with a fault. It never does: "Nothing in this core is fatal" (R215); every
failure is a result the operation returns (R210, R216). The type has no constructor. -/
inductive Fault where
  deriving DecidableEq, Repr

/-- Why the machine refuses. -/
inductive Refusal where
  /-- Raised by an arm of `exec` that has no meaning yet. Safe: no next state. -/
  | notModelled (mnemonic : String)
  /-- Raised by an operation called outside its domain (R99, D3, U1): "the model refuses the call and must
  not mask, saturate or wrap". Safe: the spec gives such a call no behaviour. -/
  | outOfDomain
  /-- Raised by `step` when the presented bytes are no operation (R103) or hold an operand outside its
  field (D3). Safe: "no state changes, no transaction is issued". -/
  | undecodable (why : Rejection)
  deriving DecidableEq, Repr

/-- The abstract chip actions of `spec/43_negotiation.md` R181, R182, R184. -/
inductive ChipAction where
  | chipInit
  | ccMeasureStart (pin : CcPin)
  | transceiverEnable (pin : CcPin)
  deriving DecidableEq, Repr

/-- One call of the block on the host's primitives (R14, R51), with what it answered. -/
inductive Event where
  /-- A write transaction (R52) and its outcome. -/
  | write (addr : Byte) (bytes : List Byte) (ok : Bool)
  /-- A read transaction of `n` bytes (R53); `none` when it failed. -/
  | read (addr : Byte) (n : Nat) (bytes : Option (List Byte))
  /-- The pause after a transaction (R54). -/
  | delay (us : Nat)
  /-- A reading of the millisecond clock (R224). -/
  | now (ms : Nat)
  /-- An abstract chip action (R33) and its outcome. -/
  | action (a : ChipAction) (ok : Bool)
  /-- `CcLevelRead` (R183); `none` when it failed. -/
  | level (value : Option Nat)
  deriving DecidableEq, Repr

/-- What a wire value reads back as, where the block reads that format. -/
inductive Reading where
  /-- The block only sends this format. -/
  | notRead
  /-- `HEADER16` (R122). -/
  | header (f : HeaderFields)
  /-- `CAPABILITY32` (R123). -/
  | capability (u : Unpacked)
  /-- `RX_SOP`: the outcome of the test of R92. -/
  | sop (accepted : Bool)
  /-- `RX_FRAME`: the payload `RDFRAME` would deliver, the CRC dropped (R91, R94). -/
  | payload (bytes : List Byte)
  deriving DecidableEq, Repr

/-- The value an operation returns to the host (R20, R104). -/
inductive Result where
  /-- No result: `RESET` (R186), or no operation yet. -/
  | none
  /-- Success, with nothing else. -/
  | ok
  /-- The failure indication; the cause is for the model only (D38). -/
  | fail (cause : Cause)
  /-- A 16-bit value: `PACKHDR`, `UNPACK16LE`. -/
  | half (v : Half)
  /-- A 32-bit value: `UNPACK32LE`, `PACKREQ`. -/
  | word (v : Word)
  /-- `UNPACKHDR`. -/
  | headerFields (f : HeaderFields)
  /-- `UNPACKCAP`. -/
  | capability (u : Unpacked)
  /-- Bytes: `PACK16LE`, `PACK32LE`, and `REGRDN` on success. -/
  | bytes (bs : List Byte)
  /-- `REGRD1` on success. -/
  | byte (b : Byte)
  /-- `RDFRAME` on success: the caller's buffer after the call. -/
  | frame (buf : List Byte)
  /-- `RDFRAME` on failure: the buffer's content is a free value (U2). -/
  | noFrame (cause : Cause) (buf : List Byte)
  /-- `VBUSSTEP`: the millivolts, when converged. -/
  | vbus (millivolts : Option Nat)
  /-- `UPDATE`: the state after the tick. -/
  | state (n : NegState)
  /-- `GETCAPS`. -/
  | caps (count : Nat) (list : List Unpacked)
  /-- `CURCAP`. -/
  | index (i : BitVec 3)
  /-- `PWRSTABLE`. -/
  | stable (b : Bool)
  /-- `GETCCPIN`: 0, 1 or 2. -/
  | pin (n : Nat)
  /-- `PROCMSG`. -/
  | saw (b : Bool)
  /-- A wire value: its bytes on the wire, and what the block reads from them. -/
  | wire (bs : List Byte) (reading : Reading)
  deriving DecidableEq, Repr

/-- The sequencer's state (R23 to R26, R28, R29). -/
structure Sequencer where
  nstate : NegState
  msgid : BitVec 3
  caplist : Vector Word 8
  capcount : Fin 9
  reqcap : BitVec 3
  curcap : BitVec 3
  pwrstable : Bool
  srccapseen : Bool
  /-- `none` is the value 0: no pin chosen. -/
  ccpin : Option CcPin
  ccmeas : CcPin
  ccsaved : Option Nat
  tsettle : Nat
  twait : Nat
  deriving DecidableEq, Repr

/-- The sampler's state `S.VS` (R27). -/
structure VbusSearch where
  /-- `none` is "unset". -/
  last : Option (BitVec 6)
  step : Int
  widen : Bool
  lastComp : Bool
  deriving DecidableEq, Repr

/-- The chip register space (R50), as far as the block's own writes say what a register holds: pairs of
an address and a byte, addresses strictly rising. An unlisted register has no known value ("unknown
power-on state", R37): reads are answered by the chip, never from here (R142). Log entries 6, 29 and 30. -/
abbrev Mem := List Host.Cell

/-- The chip's state that the operations expose (R34, R50, R59). The spec gives neither FIFO a depth and says
nothing of an overflow (`spec/91_not_in_source.md` N11): that both hold any number of bytes, so that none held is
ever lost to a later one, is the model's DESIGN CHOICE, unsafe (log entry 28). -/
structure Chip where
  rxFifo : List Byte
  txFifo : List Byte
  regs : Mem
  deriving DecidableEq, Repr

/-- The model's own: where the environment's answers come from (log entries 5 and 15). -/
structure Env where
  /-- Answers already fixed, oldest first; when it is empty, `Config.environment` answers. -/
  script : List Draw
  /-- How many answers have been taken. -/
  draws : Nat
  /-- The host's millisecond clock, never going back. -/
  clock : Nat
  deriving DecidableEq, Repr

/-- A value of a wire format, presented for reading (log entry 3). -/
structure WireItem where
  format : WireFormat
  bytes : List Byte
  deriving DecidableEq, Repr

/-- Who runs the message loop: `UPDATE` (R192, R193), or the table's row `PROCMSG` by itself. -/
inductive Caller where
  | update
  | procmsg
  deriving DecidableEq, Repr

/-- A message loop in progress (R190, R255): whether a Source Capabilities message has been processed. -/
structure Loop where
  saw : Bool
  caller : Caller
  deriving DecidableEq, Repr

/-- The machine. `cfg` is written by no operation. `port`, `wire` and `loop` are the model's own: what the
host has presented and the block has not taken, and an operation in progress. -/
structure State where
  cfg : Params
  seq : Sequencer
  vs : VbusSearch
  chip : Chip
  env : Env
  port : List Byte
  wire : List WireItem
  loop : Option Loop
  result : Result
  trace : List Event
  deriving DecidableEq, Repr

/-- The sequencer after power-on (R37). `caplist`, `tsettle` and `twait` are unspecified there: zero is a
DESIGN CHOICE, unsafe (log entries 10 and 11). -/
def Sequencer.reset : Sequencer where
  nstate := .start
  msgid := 0
  caplist := Vector.replicate 8 0
  capcount := 0
  reqcap := 0
  curcap := 0
  pwrstable := false
  srccapseen := false
  ccpin := none
  ccmeas := .cc1
  ccsaved := none
  tsettle := 0
  twait := 0

/-- The sampler after power-on (R37, D20): unset, `+VBUS_FULL_STEP`, narrowing, false. -/
def VbusSearch.reset (c : Params) : VbusSearch where
  last := none
  step := c.vbusFullStep
  widen := false
  lastComp := false

/-- The machine right after the block's power-on reset (R37, R240). Nothing is presented on the ports
(log entry 2); nothing is known of the chip (log entry 12). -/
def State.reset : State where
  cfg := Config.defaults
  seq := Sequencer.reset
  vs := VbusSearch.reset Config.defaults
  chip := { rxFifo := [], txFifo := [], regs := [] }
  env := { script := [], draws := 0, clock := 0 }
  port := []
  wire := []
  loop := none
  result := .none
  trace := []

end Sys2Proof.Machine
end

