-- ==== Sys2Proof/Machine/Ops.lean ====
section
/-!
DEFINITION. The named operations every meaning is written over: the chip register space, the
environment's answers, the two primitives of `spec/20_memory.md` (R52, R53), the clock (R224), the
abstract chip actions (R181 to R184), the failure result (R219), and taking the next instruction.
-/

namespace Sys2Proof.Machine

/-! ## The chip register space -/

/-- The known value of a chip register, if there is one. -/
def Mem.read : Mem → Nat → Option Byte
  | [], _ => none
  | (k, v) :: t, a => if k = a then some v else Mem.read t a

/-- A register holds a byte. -/
def Mem.write : Mem → Nat → Byte → Mem
  | [], a, b => [(a, b)]
  | (k, v) :: t, a, b =>
    if a < k then (a, b) :: (k, v) :: t
    else if a = k then (a, b) :: t
    else (k, v) :: Mem.write t a b

/-- A register's value is no longer known. -/
def Mem.forget (m : Mem) (a : Nat) : Mem := m.filter fun cell => decide (cell.1 ≠ a)

/-- The canonical form: addresses strictly rising, all of one byte. -/
abbrev Mem.Wf (m : Mem) : Prop :=
  (m.map Prod.fst).Pairwise (· < ·) ∧ ∀ cell ∈ m, cell.1 < 256

/-! ## The environment's answers -/

/-- The environment's next answer: the script's, or the opaque one (log entry 5). -/
def State.nextDraw (s : State) : Draw :=
  match s.env.script with
  | d :: _ => d
  | [] => Config.environment s.env.draws

/-- The next answer is taken. -/
def State.takeDraw (s : State) : State :=
  { s with env := { s.env with script := s.env.script.tail, draws := s.env.draws + 1 } }

/-- What the chip did by itself since the last answer (R36): it received bytes and sent bytes. Received bytes
go behind those held and push none out: the FIFO's depth and an overflow are not in the spec (N11). DESIGN
CHOICE, unsafe: log entry 28. -/
def State.chipRuns (s : State) (d : Draw) : State :=
  { s with chip := { s.chip with rxFifo := s.chip.rxFifo ++ d.arrive
                                 txFifo := s.chip.txFifo.drop d.drain } }

/-- An event is recorded (R51). -/
def State.record (s : State) (e : Event) : State := { s with trace := s.trace ++ [e] }

/-- The pause that follows every transaction, successful or failed (R54, D17). -/
def State.pause (s : State) : State := s.record (.delay s.cfg.tXactDelayUs)

/-- `n` bytes of the `k`-th answer; bytes it does not hold are free (U6). -/
def answerBytes (d : Draw) (k n : Nat) : List Byte :=
  (List.range n).map fun i => d.data.getD i (Config.freeByte k i)

/-! ## The two primitives -/

/-- What a write transaction leaves at the chip (R50, R59, R219). At `REG_FIFO`: the bytes are appended to
the transmit FIFO, which has no bound (DESIGN CHOICE: log entry 28), or, on failure, a free number of them
(U5; log entry 8). At a register: one byte is held by it; after a failure, or a write of several bytes (R141 does
not say where those after the first go), its value or the registers' values are not known (log entry 6). That no
byte written at an address other than `REG_FIFO` reaches the transmit FIFO, that no such write takes anything from
the receive FIFO, and that a write changes no other register than these, is the model's DESIGN CHOICE, unsafe (log
entry 30). -/
def Chip.written (c : Chip) (fifo addr : Byte) (bytes : List Byte) (d : Draw) : Chip :=
  if addr = fifo then
    { c with txFifo := c.txFifo ++ (if d.ok then bytes else bytes.take d.moved) }
  else
    match bytes with
    | [b] => { c with regs := if d.ok then c.regs.write addr.toNat b else c.regs.forget addr.toNat }
    | _ => { c with regs := [] }

/-- `RegWrite(addr, bytes)` (R52): one transaction, then the pause. -/
def regWrite (addr : Byte) (bytes : List Byte) (s : State) : Bool × State :=
  let d := s.nextDraw
  let s1 := s.takeDraw.chipRuns d
  let s2 := { s1 with chip := s1.chip.written s1.cfg.regFifo addr bytes d }
  (d.ok, (s2.record (.write addr bytes d.ok)).pause)

/-- The bytes a successful read of `n` bytes answers (R53): at `REG_FIFO` the next `n` bytes of the receive
FIFO (R34), free bytes beyond those present (U6); at a register whatever the chip answers (R142). -/
def readAnswer (s : State) (addr : Byte) (n : Nat) (d : Draw) : List Byte :=
  if addr = s.cfg.regFifo then
    s.chip.rxFifo.take n ++ answerBytes d s.env.draws (n - s.chip.rxFifo.length)
  else answerBytes d s.env.draws n

/-- What a read transaction leaves at the chip: at `REG_FIFO` the bytes it returned are gone (R34), or, on
failure, a free number of them up to the length asked (U4; log entry 7). Elsewhere nothing changes: R59 and
decision D18 say so of the two status registers; of every other address it is the model's DESIGN CHOICE, unsafe
(log entry 29). -/
def Chip.wasRead (c : Chip) (fifo addr : Byte) (n : Nat) (d : Draw) : Chip :=
  if addr = fifo then { c with rxFifo := c.rxFifo.drop (if d.ok then n else min d.moved n) } else c

/-- `RegRead(addr, n)` (R53): one transaction, then the pause; on failure no byte is delivered. -/
def regRead (addr : Byte) (n : Nat) (s : State) : Option (List Byte) × State :=
  let d := s.nextDraw
  let s1 := s.takeDraw.chipRuns d
  let answer := if d.ok then some (readAnswer s1 addr n d) else none
  let s2 := { s1 with chip := s1.chip.wasRead s1.cfg.regFifo addr n d }
  (answer, (s2.record (.read addr n answer)).pause)

/-! ## The clock -/

/-- `NowMs()` (R224, R225): the host's clock, modulo `2^CLOCK_WIDTH`, never going back. -/
def nowMs (s : State) : Nat × State :=
  let d := s.nextDraw
  let s1 := s.takeDraw.chipRuns d
  let clock := s1.env.clock + d.elapsed
  let ms := clock % 2 ^ s1.cfg.clockWidth
  (ms, { s1 with env := { s1.env with clock := clock } }.record (.now ms))

/-- Elapsed time modulo `2^CLOCK_WIDTH` (R225). -/
def elapsedMs (c : Params) (now since : Nat) : Nat :=
  (now + 2 ^ c.clockWidth - since % 2 ^ c.clockWidth) % 2 ^ c.clockWidth

/-! ## The abstract chip actions -/

/-- What an abstract action may leave at the chip: its transactions are not in the spec (R33), so no
register's value is known after it, and a free number of received bytes may be gone. Log entry 9. -/
def State.chipDisturbed (s : State) (d : Draw) : State :=
  { s with chip := { s.chip with rxFifo := s.chip.rxFifo.drop d.moved, regs := [] } }

/-- `ChipInit`, `CcMeasureStart` or `TransceiverEnable` (R181, R182, R184): success, or a cause. -/
def chipAction (a : ChipAction) (s : State) : Option Cause × State :=
  let d := s.nextDraw
  let s1 := (s.takeDraw.chipDisturbed d).chipRuns d
  let failure := if d.ok then none else some (if d.readFault then .ioRead else .ioWrite)
  (failure, s1.record (.action a d.ok))

/-- `CcLevelRead() -> ok(level) | fail` (R183). -/
def ccLevelRead (s : State) : Option Nat × State :=
  let d := s.nextDraw
  let s1 := (s.takeDraw.chipDisturbed d).chipRuns d
  let answer := if d.ok then some d.level else none
  (answer, s1.record (.level answer))

/-! ## Results and failure -/

/-- An operation completes and returns a value. -/
def State.returns (s : State) (r : Result) : State := { s with result := r }

/-- Failure entry (R219): the operation stops and returns its failure result. Nothing is saved, no mode
changes, no handler runs; what was done before the failing step stays done. -/
def State.raiseFail (s : State) (cause : Cause) : State := s.returns (.fail cause)

/-- A call outside the operation's domain is refused (R99, D3); inside it, it has its effect. -/
def inDomain (p : Bool) (s : State) : Host.Outcome State Fault Refusal :=
  if p then .next s else .refused .outOfDomain

/-! ## Taking the next instruction -/

/-- What `step` finds to do. -/
inductive Taken where
  /-- An instruction, and the state with it taken from where it stood. -/
  | run (i : Instr) (s : State)
  /-- Bytes that are no operation (R103). -/
  | reject (why : Rejection)
  /-- Nothing is presented: the block waits for the host (R13). -/
  | idle

/-- The next instruction: a message loop in progress goes on before anything else is taken (D1, R250);
then a presented wire value; then the command at the head of the port. -/
def State.takeNext (s : State) : Taken :=
  match s.loop with
  | some _ => .run .procmsg s
  | none =>
    match s.wire with
    | item :: rest =>
      match decodeFormat s.cfg item.format item.bytes with
      | .ok i => .run i { s with wire := rest }
      | .error e => .reject e
    | [] =>
      match s.port with
      | [] => .idle
      | b :: t =>
        match decode (b :: t) with
        | .ok (i, rest) => .run i { s with port := rest }
        | .error e => .reject e

/-- The state with an instruction of the opcode table presented, and nothing ahead of it. -/
def State.present (s : State) (p : Placed) : State :=
  match p with
  | .port bytes => { s with loop := none, wire := [], port := bytes }
  | .wire f bytes => { s with loop := none, wire := [{ format := f, bytes := bytes }] }
  | .internal => { s with loop := some { saw := false, caller := .procmsg } }

end Sys2Proof.Machine
end

