-- ==== Sys2Proof/Machine/Operands.lean ====
section
/-!
DEFINITION. Operand forms: default operands (R105) and the assembled operands of `spec/30_encoding.md`
R100 (capability scaling, Request currents, clamping).
-/

namespace Sys2Proof.Machine

/-- `powerRole`, or `ROLE_SINK` when left out (R105). -/
def powerRole (c : Params) (pr : Option (BitVec 1)) : BitVec 1 := pr.getD c.roleSink

/-- `dataRole`, or `ROLE_UFP` when left out (R105). -/
def dataRole (c : Params) (dr : Option (BitVec 1)) : BitVec 1 := dr.getD c.roleUfp

/-- `spec`, or `SPEC_REV2_0` when left out (R105). -/
def specRevision (c : Params) (rev : Option (BitVec 2)) : BitVec 2 := rev.getD c.specRev20

/-- `packHeader` with default roles and revision filled in (R121, R105). -/
def packHeader (c : Params) (type : BitVec 5) (ndo id : BitVec 3) (pr dr : Option (BitVec 1))
    (rev : Option (BitVec 2)) : Half :=
  headerWord ndo id (powerRole c pr) (specRevision c rev) (dataRole c dr) type

/-- `unpackCapability` (R123, R85): the same slices whatever the tag; bits 23:22 dropped (D9). -/
def unpackCapability (w : Word) : Unpacked where
  tag := w.extractLsb' 30 2
  dualRolePower := w.getLsbD 29
  usbSuspend := w.getLsbD 28
  unconstrainedPower := w.getLsbD 27
  usbComm := w.getLsbD 26
  dualRoleData := w.getLsbD 25
  unchunkedExt := w.getLsbD 24
  peakCurrent := w.extractLsb' 20 2
  voltageMv := (w.extractLsb' 10 10).toNat * Config.mvPerVoltRaw
  maxCurrentMa := (w.extractLsb' 0 10).toNat * Config.maPerCurRaw

/-- What a type tag stands for (R84). -/
def capKind (c : Params) (tag : BitVec 2) : Option CapKind :=
  if tag = c.capFixed then some .fixedSupply
  else if tag = c.capBattery then some .battery
  else if tag = c.capVariable then some .variableSupply
  else if tag = c.capAugmented then some .augmented
  else none

/-- The raw current of a Request: `currentMa div 10`, truncated (R87). -/
def requestRaw (currentMa : Nat) : BitVec 10 := BitVec.ofNat 10 (currentMa / Config.maPerCurRaw)

/-- `packRequest(index, currentMa)` (R128). -/
def packRequest (index : BitVec 3) (currentMa : Nat) : Word :=
  requestWord index (requestRaw currentMa) (requestRaw currentMa)

/-- The domain of a Request: index 1..7, current 0..10239 (R87). -/
def requestDomain (index : BitVec 3) (currentMa : Nat) : Bool :=
  decide (index ≠ 0) && decide (currentMa ≤ Config.maxCurrentMa)

/-- The other pin, `3 - pin` (R189). -/
def otherPin : CcPin → CcPin
  | .cc1 => .cc2
  | .cc2 => .cc1

/-- The value of `S.CCPIN` as the host reads it (R203). -/
def pinNumber : Option CcPin → Nat
  | none => 0
  | some .cc1 => 1
  | some .cc2 => 2

/-- `clamp(v, lo, hi)` (R12). -/
def clamp (v lo hi : Int) : Int := if v < lo then lo else if hi < v then hi else v

/-- The list with the first entries replaced (R194); entries beyond the objects received keep what they
held and have no meaning (R25, U3, log entry 20). -/
def storeCaps (old : Vector Word 8) (objects : List Word) : Vector Word 8 :=
  Vector.ofFn fun k => objects.getD k old[k]

end Sys2Proof.Machine
end

