-- ==== Sys2Proof/Machine/Flags.lean ====
section
/-!
DEFINITION. The single-bit values the block reads from the chip's status bytes (`spec/30_encoding.md`
R96). The block has no condition codes (R31); its own flags are written by the operations as listed there.
-/

namespace Sys2Proof.Machine

/-- The comparator output in a `REG_STATUS0` byte (R96); all other bits ignored. -/
def comparatorBit (c : Params) (bytes : List Byte) : Bool :=
  decide (bytes.headD 0 &&& c.status0Comp ≠ 0)

/-- The receive-FIFO-empty bit in a `REG_STATUS1` byte (R96); all other bits ignored. -/
def rxEmptyBit (c : Params) (bytes : List Byte) : Bool :=
  decide (bytes.headD 0 &&& c.status1RxEmpty ≠ 0)

end Sys2Proof.Machine
end

