-- ==== Sys2Proof/Machine/Codec.lean ====
section
/-!
DEFINITION. The Message Codec (`spec/40_codec.md`). Every operation is a pure function of its operands
(R120): it returns its value and changes nothing else.
-/

namespace Sys2Proof.Machine

/-- `PACKHDR` (R121). -/
def execPackhdr (type : BitVec 5) (ndo id : BitVec 3) (pr dr : Option (BitVec 1)) (rev : Option (BitVec 2))
    (s : State) : Host.Outcome State Fault Refusal :=
  .next (s.returns (.half (packHeader s.cfg type ndo id pr dr rev)))

/-- `UNPACKHDR` (R122). -/
def execUnpackhdr (value : Half) (s : State) : Host.Outcome State Fault Refusal :=
  .next (s.returns (.headerFields (headerFields value)))

/-- `UNPACKCAP` (R123). -/
def execUnpackcap (packed : Word) (s : State) : Host.Outcome State Fault Refusal :=
  .next (s.returns (.capability (unpackCapability packed)))

/-- `PACK16LE` (R124). -/
def execPack16le (v : Half) (s : State) : Host.Outcome State Fault Refusal :=
  .next (s.returns (.bytes (le16 v)))

/-- `UNPACK16LE` (R125). -/
def execUnpack16le (b0 b1 : Byte) (s : State) : Host.Outcome State Fault Refusal :=
  .next (s.returns (.half (fromLe16 b0 b1)))

/-- `PACK32LE` (R126). -/
def execPack32le (v : Word) (s : State) : Host.Outcome State Fault Refusal :=
  .next (s.returns (.bytes (le32 v)))

/-- `UNPACK32LE` (R127). -/
def execUnpack32le (b0 b1 b2 b3 : Byte) (s : State) : Host.Outcome State Fault Refusal :=
  .next (s.returns (.word (fromLe32 b0 b1 b2 b3)))

/-- `PACKREQ` (R128), refused outside its domain (R99). -/
def execPackreq (index : BitVec 3) (currentMa : Nat) (s : State) : Host.Outcome State Fault Refusal :=
  inDomain (requestDomain index currentMa) (s.returns (.word (packRequest index currentMa)))

end Sys2Proof.Machine
end

