-- ==== Sys2Proof/Machine/Sampler.lean ====
section
/-!
DEFINITION. The Vbus Successive-Approximation Sampler (`spec/42_vbus_sampler.md`), one definition for
each of the five steps of R162.
-/

namespace Sys2Proof.Machine

/-- Step 1, convergence (R164): the step's magnitude is 1, and the comparator flipped against its sign. -/
def vbusConverges (vs : VbusSearch) (c : Bool) : Bool :=
  decide (vs.step.natAbs = 1) &&
    ((decide (vs.step < 0) && !vs.lastComp && c) || (decide (0 < vs.step) && vs.lastComp && !c))

/-- The code reported on convergence (R169): the lowest code at which the comparator was seen false. -/
def vbusConvCode (vs : VbusSearch) (base : Nat) : Nat := if 0 < vs.step then base else base + 1

/-- Steps 1 and 2, the mode (R164, R165): convergence widens, another change of the comparator narrows. -/
def vbusWiden (vs : VbusSearch) (c : Bool) : Bool :=
  if vbusConverges vs c then true else if c ≠ vs.lastComp then false else vs.widen

/-- Step 3, the magnitude (R166): doubled up to the full step while widening and not converged this call,
halved down to 1 while narrowing. -/
def vbusMagnitude (cfg : Params) (mag : Nat) (widen conv : Bool) : Nat :=
  if widen then (if conv then mag else min (2 * mag) cfg.vbusFullStep) else max (mag / 2) 1

/-- Step 4, the sign (R167): upward when the comparator is true, downward when it is false. -/
def vbusSigned (mag : Nat) (c : Bool) : Int := if c then (mag : Int) else -(mag : Int)

/-- Step 5, the new code (R168): the exact signed sum, clamped to `[0, VBUS_MAX_CODE)`. -/
def vbusNewCode (cfg : Params) (base : Nat) (step : Int) : BitVec 6 :=
  BitVec.ofNat 6 (clamp (base + step) 0 (cfg.vbusMaxCode - 1)).toNat

/-- The value reported for a code (R169): `(convCode + VBUS_CODE_BIAS) × VBUS_MV_PER_COUNT`. -/
def vbusMillivolts (cfg : Params) (code : Nat) : Nat := (code + cfg.vbusCodeBias) * cfg.vbusMvPerCount

/-- The search state after a completed call (R162): comparator `c` measured at code `base`, or the first
call, which has no sample (R163). -/
def vbusAdvance (cfg : Params) (vs : VbusSearch) (base : Nat) (c widen conv : Bool) : VbusSearch :=
  let step := vbusSigned (vbusMagnitude cfg vs.step.natAbs widen conv) c
  { last := some (vbusNewCode cfg base step), step := step, widen := widen, lastComp := c }

/-- Steps 3 to 5 and the result (R162): program the new code, and only on success take the new search
state and report (R170). -/
def vbusProgram (next : VbusSearch) (report : Option Nat) (s : State) : Option Nat × State :=
  match regWrite s.cfg.regMeasure [measureByte s.cfg (next.last.getD 0)] s with
  | (true, s1) => (report, { s1 with vs := next })
  | (false, s1) => (none, s1)

/-- `updateVbus()` (R162): no comparator read on the first call (R163), a failed access leaves the search
state unchanged and reports nothing (R170). -/
def updateVbus (s : State) : Option Nat × State :=
  match s.vs.last with
  | none => vbusProgram (vbusAdvance s.cfg s.vs 0 true s.vs.widen false) none s
  | some code =>
    match regRead s.cfg.regStatus0 1 s with
    | (none, s1) => (none, s1)
    | (some bytes, s1) =>
      let c := comparatorBit s1.cfg bytes
      let conv := vbusConverges s.vs c
      let report := if conv then some (vbusMillivolts s1.cfg (vbusConvCode s.vs code.toNat)) else none
      vbusProgram (vbusAdvance s1.cfg s.vs code.toNat c (vbusWiden s.vs c) conv) report s1

/-- `VBUSSTEP` (R162): the result is `(true, millivolts)` or `(false, none)`; it has no failure result. -/
def execVbusstep (s : State) : Host.Outcome State Fault Refusal :=
  let r := updateVbus s
  .next (r.2.returns (.vbus r.1))

end Sys2Proof.Machine
end

