-- ==== Sys2Proof/Machine/Transport.lean ====
section
/-!
DEFINITION. The Framed Transport Driver (`spec/41_transport.md`): the register primitives as operations,
and the transmit and receive frames. The family holds no state of its own.
-/

namespace Sys2Proof.Machine

/-- The result of a write operation (R140, R141): success, or failure with cause `IoWrite`. -/
def State.returnsWrite (r : Bool × State) : State :=
  if r.1 then r.2.returns .ok else r.2.raiseFail .ioWrite

/-- `REGWR1` (R140). -/
def execRegwr1 (addr b : Byte) (s : State) : Host.Outcome State Fault Refusal :=
  .next (State.returnsWrite (regWrite addr [b] s))

/-- `REGWRN` (R141): one transaction of `n ≥ 1` bytes, never split. -/
def execRegwrn (addr : Byte) (bytes : List Byte) (s : State) : Host.Outcome State Fault Refusal :=
  inDomain (decide (1 ≤ bytes.length)) (State.returnsWrite (regWrite addr bytes s))

/-- `REGRD1` (R142). -/
def execRegrd1 (addr : Byte) (s : State) : Host.Outcome State Fault Refusal :=
  .next (
    match regRead addr 1 s with
    | (some bytes, s1) => s1.returns (.byte (bytes.headD 0))
    | (none, s1) => s1.raiseFail .ioRead)

/-- `REGRDN` (R143): one transaction of `n ≥ 1` bytes. -/
def execRegrdn (addr : Byte) (n : Nat) (s : State) : Host.Outcome State Fault Refusal :=
  inDomain (decide (1 ≤ n)) (
    match regRead addr n s with
    | (some bytes, s1) => s1.returns (.bytes bytes)
    | (none, s1) => s1.raiseFail .ioRead)

/-- `writeMessage` (R144): the frame of the first `ndo` objects in exactly one write to `REG_FIFO`. The
header goes out as given; its own count field is not read (conflict C1). -/
def writeMessage (header : Half) (ndo : BitVec 3) (objects : List Word) (s : State) : Bool × State :=
  regWrite s.cfg.regFifo (txFrameBytes s.cfg header (objects.take ndo.toNat)) s

/-- `WRMSG` (R144). -/
def execWrmsg (header : Half) (ndo : BitVec 3) (objects : List Word) (s : State) :
    Host.Outcome State Fault Refusal :=
  inDomain (decide (ndo.toNat ≤ objects.length)) (State.returnsWrite (writeMessage header ndo objects s))

/-- A frame taken from the receive FIFO: its header, and the `4×N` data bytes without the CRC. -/
structure RxFrame where
  header : Half
  data : List Byte
  deriving DecidableEq, Repr

/-- `readNextFrame` (R145): 3 bytes; the start-of-frame test, which when it fails keeps the second read
from being issued; then `4×N + 4` bytes, `N` from the header just read; the last 4 are dropped unchecked. -/
def readNextFrame (s : State) : Except Cause RxFrame × State :=
  match regRead s.cfg.regFifo 3 s with
  | (none, s1) => (.error .ioRead, s1)
  | (some b, s1) =>
    if sopMatches s1.cfg (b.headD 0) then
      let header := fromLe16 (b.getD 1 0) (b.getD 2 0)
      let n := (headerFields header).ndo.toNat
      match regRead s1.cfg.regFifo (4 * n + 4) s1 with
      | (none, s2) => (.error .ioRead, s2)
      | (some d, s2) => (.ok { header := header, data := d.take (4 * n) }, s2)
    else (.error .sopMismatch, s1)

/-- The caller's buffer after a frame (R145): header and data from index 0, the rest unchanged. -/
def fillBuffer (buf : List Byte) (f : RxFrame) : List Byte :=
  le16 f.header ++ f.data ++ buf.drop (2 + f.data.length)

/-- The caller's buffer after a failure: every byte a free value (U2, D16). -/
def freeBuffer (s : State) (buf : List Byte) : List Byte :=
  (List.range buf.length).map fun i => Config.freeBuffer s.env.draws i

/-- `RDFRAME` (R145), refused for a buffer shorter than 30 bytes (R253). -/
def execRdframe (buf : List Byte) (s : State) : Host.Outcome State Fault Refusal :=
  inDomain (decide (Config.rxBufMin ≤ buf.length)) (
    match readNextFrame s with
    | (.ok f, s1) => s1.returns (.frame (fillBuffer buf f))
    | (.error cause, s1) => s1.returns (.noFrame cause (freeBuffer s1 buf)))

end Sys2Proof.Machine
end

