-- ==== Sys2Proof/Machine/Sequencer.lean ====
section
/-!
DEFINITION. The negotiation sequencer (`spec/43_negotiation.md`): `INIT`, `RESET`, `UPDATE`, the message
loop `PROCMSG`, `REQCAP` and the read-out operations.
-/

namespace Sys2Proof.Machine

/-! ## INIT and RESET -/

/-- `INIT` (R185): `ChipInit`, and its outcome; no block state is written. -/
def execInit (s : State) : Host.Outcome State Fault Refusal :=
  .next (
    match chipAction .chipInit s with
    | (none, s1) => s1.returns .ok
    | (some cause, s1) => s1.raiseFail cause)

/-- What `RESET` does to the sequencer (R186); the list's entries and the two times keep their values
(R37). -/
def Sequencer.cleared (q : Sequencer) : Sequencer :=
  { q with
    nstate := .start, ccpin := none, ccmeas := .cc1, ccsaved := none, capcount := 0, reqcap := 0,
    curcap := 0, pwrstable := false, msgid := 0, srccapseen := false }

/-- `RESET` (R186): no transaction, no result, the sampler untouched. -/
def execReset (s : State) : Host.Outcome State Fault Refusal :=
  .next ({ s with seq := s.seq.cleared }.returns .none)

/-! ## REQCAP -/

/-- The header of a Request (R199): default roles and revision, the message id as it is before the call. -/
def requestHeader (s : State) : Half := packHeader s.cfg s.cfg.dataRequest 1 s.seq.msgid none none none

/-- What a Request that went out does to the sequencer (R199). -/
def Sequencer.requested (q : Sequencer) (index : BitVec 3) : Sequencer :=
  { q with reqcap := index, pwrstable := false, msgid := q.msgid + 1 }

/-- `requestCapability` (R199): one frame with one object; the sequencer is written only after the write
succeeded. -/
def requestCapability (index : BitVec 3) (currentMa : Nat) (s : State) : Bool × State :=
  match writeMessage (requestHeader s) 1 [packRequest index currentMa] s with
  | (true, s1) => (true, { s1 with seq := s1.seq.requested index })
  | (false, s1) => (false, s1)

/-- `REQCAP` (R199), refused outside its domain (R99). The sequencer's state and the list are not
looked at (D43). -/
def execReqcap (index : BitVec 3) (currentMa : Nat) (s : State) : Host.Outcome State Fault Refusal :=
  inDomain (requestDomain index currentMa) (State.returnsWrite (requestCapability index currentMa s))

/-! ## PROCMSG -/

/-- The list after a Source Capabilities message (R194): its objects, and their number. -/
def Sequencer.storing (q : Sequencer) (ndo : BitVec 3) (objects : List Word) : Sequencer :=
  { q with
    caplist := storeCaps q.caplist objects
    capcount := ⟨ndo.toNat, Nat.lt_trans ndo.isLt (by decide)⟩ }

/-- A Source Capabilities message (R194): store the list; on the first since reset, set the marker and
request capability 1 at its advertised current, whatever becomes of that Request (R260). -/
def onSourceCapabilities (ndo : BitVec 3) (objects : List Word) (s : State) : State :=
  let s1 := { s with seq := s.seq.storing ndo objects }
  if s1.seq.srccapseen then s1
  else
    let s2 := { s1 with seq := { s1.seq with srccapseen := true } }
    (requestCapability 1 (unpackCapability s2.seq.caplist[0]).maxCurrentMa s2).2

/-- What a control message of a type does to the sequencer (R195 to R198). -/
def Sequencer.onControl (c : Params) (type : BitVec 5) (q : Sequencer) : Sequencer :=
  if type = c.ctrlAccept then { q with curcap := q.reqcap }
  else if type = c.ctrlReject then { q with reqcap := q.curcap }
  else if type = c.ctrlPsRdy then { q with pwrstable := true }
  else q

/-- One received message (R190): a data message has `ndo ≥ 1`, a control message `ndo = 0` (R82, D7); the
received id is not used. The Boolean says that it was Source Capabilities. -/
def dispatchMessage (f : RxFrame) (s : State) : Bool × State :=
  let h := headerFields f.header
  if h.ndo = 0 then (false, { s with seq := s.seq.onControl s.cfg h.type })
  else if h.type = s.cfg.dataSourceCap then (true, onSourceCapabilities h.ndo (wordsOf f.data) s)
  else (false, s)

/-- One pass of the message loop (R190): `none` when the loop ends, on a failed status read, on the empty
bit, or on a frame that could not be read. -/
def messagePass (s : State) : Option Bool × State :=
  match regRead s.cfg.regStatus1 1 s with
  | (none, s1) => (none, s1)
  | (some bytes, s1) =>
    if rxEmptyBit s1.cfg bytes then (none, s1)
    else
      match readNextFrame s1 with
      | (.error _, s2) => (none, s2)
      | (.ok f, s2) =>
        let r := dispatchMessage f s2
        (some r.1, r.2)

/-- How far a message loop came. -/
inductive LoopEnd where
  /-- The loop ended; the Boolean is `saw`. -/
  | ended (saw : Bool)
  /-- The loop goes on. -/
  | goesOn (saw : Bool)
  deriving DecidableEq, Repr

/-- At most `n` passes of the message loop. The loop itself has no bound (R255): what is left goes on in
the next step (log entry 4). -/
def messageLoop : Nat → Bool → State → LoopEnd × State
  | 0, saw, s => (.goesOn saw, s)
  | n + 1, saw, s =>
    match messagePass s with
    | (none, s1) => (.ended saw, s1)
    | (some seen, s1) => messageLoop n (saw || seen) s1

/-- State WaitSourceCapabilities after its messages (R192): Connected if one was Source Capabilities, else
the timeout test. After a loop that a failed read or a start-of-frame mismatch ended this is the same test, as the
pseudocode of R190 and R192 has it; R187, R204's last row and R219 say that the state does not advance then, and no
ruling of the spec settles it. DESIGN CHOICE, unsafe: log entry 31. -/
def afterWait (saw : Bool) (s : State) : State :=
  if saw then { s with seq := { s.seq with nstate := .connected } }
  else
    let r := nowMs s
    if r.2.cfg.tSrccapTimeoutMs < elapsedMs r.2.cfg r.1 r.2.seq.twait then
      { r.2 with seq := { r.2.seq with nstate := .enableTransceiver } }
    else r.2

/-- The tick's result: the state after it (R187). -/
def returnsNstate (s : State) : State := s.returns (.state s.seq.nstate)

/-- The end of a message loop: `UPDATE` goes on with its state's exit test (R192, R193) and returns the
state; `PROCMSG` returns `saw` (R190). Why the loop ended is not looked at: after a failed read too `UPDATE` makes
the exit test (DESIGN CHOICE: log entry 31). -/
def loopReturns (caller : Caller) (saw : Bool) (s : State) : State :=
  let s1 := { s with loop := none }
  match caller with
  | .procmsg => s1.returns (.saw saw)
  | .update =>
    match s1.seq.nstate with
    | .waitSourceCapabilities => returnsNstate (afterWait saw s1)
    | .connected => returnsNstate s1
    | .start => returnsNstate s1
    | .detectCc => returnsNstate s1
    | .enableTransceiver => returnsNstate s1

/-- Run a message loop: as many passes as the environment's script could feed, and one more. -/
def runLoop (l : Loop) (s : State) : State :=
  match messageLoop (s.env.script.length + 1) l.saw s with
  | (.ended saw, s1) => loopReturns l.caller saw s1
  | (.goesOn saw, s1) => { s1 with loop := some { l with saw := saw } }

/-- `PROCMSG` (R190): go on with the loop in progress, or start one. -/
def execProcmsg (s : State) : Host.Outcome State Fault Refusal :=
  .next (runLoop (s.loop.getD { saw := false, caller := .procmsg }) s)

/-! ## UPDATE -/

/-- State Start (R188). -/
def tickStart (s : State) : State :=
  match chipAction .chipInit s with
  | (some _, s1) => s1
  | (none, s1) =>
    match chipAction (.ccMeasureStart .cc1) s1 with
    | (some _, s2) => s2
    | (none, s2) =>
      let r := nowMs s2
      { r.2 with seq := { r.2.seq with
          ccmeas := .cc1, ccsaved := none, tsettle := r.1, nstate := .detectCc } }

/-- State DetectCc with a settled level (R189): a different saved level decides the pin, the higher level
wins; otherwise save this one and measure the other pin. -/
def tickLevel (level : Nat) (s : State) : State :=
  if s.seq.ccsaved ≠ none ∧ s.seq.ccsaved ≠ some level then
    let pin := if s.seq.ccsaved.getD 0 < level then s.seq.ccmeas else otherPin s.seq.ccmeas
    { s with seq := { s.seq with ccpin := some pin, nstate := .enableTransceiver } }
  else
    match chipAction (.ccMeasureStart (otherPin s.seq.ccmeas)) s with
    | (some _, s1) => s1
    | (none, s1) =>
      let r := nowMs s1
      { r.2 with seq := { r.2.seq with
          ccsaved := some level, ccmeas := otherPin r.2.seq.ccmeas, tsettle := r.1 } }

/-- State DetectCc (R189): before the settle time the tick does nothing else. -/
def tickDetectCc (s : State) : State :=
  let r := nowMs s
  if elapsedMs r.2.cfg r.1 r.2.seq.tsettle < r.2.cfg.tCcSettleMs then r.2
  else
    match ccLevelRead r.2 with
    | (none, s1) => s1
    | (some level, s1) => tickLevel level s1

/-- State EnableTransceiver (R191) with its pin. -/
def tickEnable (pin : CcPin) (s : State) : State :=
  match chipAction (.transceiverEnable pin) s with
  | (some _, s1) => s1
  | (none, s1) =>
    let r := nowMs s1
    { r.2 with seq := { r.2.seq with twait := r.1, nstate := .waitSourceCapabilities } }

/-- `UPDATE` (R187): one tick, by the state. A failure inside it surfaces nowhere: the state does not advance,
but for a failure in the message loop of WaitSourceCapabilities, after which the exit test of R192 is made (DESIGN
CHOICE: log entry 31; when it is the automatic Request that failed, R260 says so). With no pin chosen, which no run
reaches, `TransceiverEnable` is outside its domain (R184, log entry 22). -/
def execUpdate (s : State) : Host.Outcome State Fault Refusal :=
  match s.seq.nstate with
  | .start => .next (returnsNstate (tickStart s))
  | .detectCc => .next (returnsNstate (tickDetectCc s))
  | .enableTransceiver =>
    match s.seq.ccpin with
    | some pin => .next (returnsNstate (tickEnable pin s))
    | none => .refused .outOfDomain
  | .waitSourceCapabilities => .next (runLoop { saw := false, caller := .update } s)
  | .connected => .next (runLoop { saw := false, caller := .update } s)

/-! ## Read-out operations -/

/-- `GETCAPS` (R200): the count, and each listed capability unpacked, in order. -/
def execGetcaps (s : State) : Host.Outcome State Fault Refusal :=
  .next (s.returns (.caps s.seq.capcount.val
    ((s.seq.caplist.toList.take s.seq.capcount.val).map unpackCapability)))

/-- `CURCAP` (R201). -/
def execCurcap (s : State) : Host.Outcome State Fault Refusal :=
  .next (s.returns (.index s.seq.curcap))

/-- `PWRSTABLE` (R202). -/
def execPwrstable (s : State) : Host.Outcome State Fault Refusal :=
  .next (s.returns (.stable s.seq.pwrstable))

/-- `GETCCPIN` (R203). -/
def execGetccpin (s : State) : Host.Outcome State Fault Refusal :=
  .next (s.returns (.pin (pinNumber s.seq.ccpin)))

end Sys2Proof.Machine
end

