-- ==== Sys2Proof/Machine/Wire.lean ====
section
/-!
DEFINITION. The eight wire-format rows of the table (`spec/30_encoding.md` R80 to R95). They are layouts,
not operations (R3): the meaning of a value of a format is its bytes as they stand on the wire, in a FIFO
or in the chip's register, and, for the formats the block reads, what it reads from them. No state is
written but the result, and no transaction is issued. DESIGN CHOICE: log entry 3.
-/

namespace Sys2Proof.Machine

/-- `HEADER16` (R80): the two bytes, and the fields `UNPACKHDR` finds in them. -/
def execHeader16 (n i : BitVec 3) (p : BitVec 1) (r : BitVec 2) (d : BitVec 1) (t : BitVec 5) (s : State) :
    Host.Outcome State Fault Refusal :=
  let w := headerWord n i p r d t
  .next (s.returns (.wire (le16 w) (.header (headerFields w))))

/-- `CAPABILITY32` (R83): the four bytes, and the record `UNPACKCAP` makes of them. -/
def execCapability32 (y : BitVec 2) (a b c e f g : BitVec 1) (x k : BitVec 2) (v m : BitVec 10) (s : State) :
    Host.Outcome State Fault Refusal :=
  let w := capabilityWord y a b c e f g x k v m
  .next (s.returns (.wire (le32 w) (.capability (unpackCapability w))))

/-- `REQUEST32` (R86): the four bytes; the block only sends it. No Request of the block has index 0 or an
operating current other than its maximum current (R86, R128); the spec gives the row no operation and does not
refuse such a value, and laying it out as any other is the model's DESIGN CHOICE (log entry 3). -/
def execRequest32 (i : BitVec 3) (o m : BitVec 10) (s : State) : Host.Outcome State Fault Refusal :=
  .next (s.returns (.wire (le32 (requestWord i o m)) .notRead))

/-- `TX_PACKSYM` (R90): the tag and the count. The counts of the block's frames are 2, 6, ..., 30 (R90); the
spec gives the row no operation and does not refuse another count of 5 bits, and laying it out as any other is
the model's DESIGN CHOICE (log entry 3). -/
def execTxPacksym (count : BitVec 5) (s : State) : Host.Outcome State Fault Refusal :=
  .next (s.returns (.wire [packsymByte s.cfg count] .notRead))

/-- `TX_FRAME` (R88): the bytes `WRMSG` would write, for at most 7 objects. -/
def execTxFrame (header : Half) (objects : List Word) (s : State) : Host.Outcome State Fault Refusal :=
  inDomain (decide (objects.length ≤ Config.maxNdo))
    (s.returns (.wire (txFrameBytes s.cfg header objects) .notRead))

/-- `RX_SOP` (R92): the byte, and the outcome of the start-of-frame test. -/
def execRxSop (x : BitVec 5) (s : State) : Host.Outcome State Fault Refusal :=
  let b := sopByte s.cfg x
  .next (s.returns (.wire [b] (.sop (sopMatches s.cfg b))))

/-- `RX_FRAME` (R91): the stream bytes, and the payload `RDFRAME` would leave in its buffer; the four CRC
bytes are dropped (R94). As many objects as the header says. -/
def execRxFrame (x : BitVec 5) (header : Half) (objects : List Word) (c0 c1 c2 c3 : Byte) (s : State) :
    Host.Outcome State Fault Refusal :=
  inDomain (decide (objects.length = (headerFields header).ndo.toNat))
    (s.returns (.wire (rxFrameBytes s.cfg x header objects [c0, c1, c2, c3])
      (.payload (payloadBytes header objects))))

/-- `MEASURE8` (R95): the byte `VBUSSTEP` writes for a code. -/
def execMeasure8 (code : BitVec 6) (s : State) : Host.Outcome State Fault Refusal :=
  .next (s.returns (.wire [measureByte s.cfg code] .notRead))

end Sys2Proof.Machine
end

