-- ==== Sys2Proof/Machine/Dispatch.lean ====
section
/-!
DEFINITION. The meaning of each instruction, one arm a constructor.
-/

namespace Sys2Proof.Machine

def exec (i : Instr) (s : State) : Host.Outcome State Fault Refusal :=
  match i with
  | .packhdr type ndo id pr dr rev => Sys2Proof.Machine.execPackhdr type ndo id pr dr rev s
  | .unpackhdr value => Sys2Proof.Machine.execUnpackhdr value s
  | .unpackcap packed => Sys2Proof.Machine.execUnpackcap packed s
  | .pack16le v => Sys2Proof.Machine.execPack16le v s
  | .unpack16le b0 b1 => Sys2Proof.Machine.execUnpack16le b0 b1 s
  | .pack32le v => Sys2Proof.Machine.execPack32le v s
  | .unpack32le b0 b1 b2 b3 => Sys2Proof.Machine.execUnpack32le b0 b1 b2 b3 s
  | .packreq index currentMa => Sys2Proof.Machine.execPackreq index currentMa s
  | .regwr1 addr b => Sys2Proof.Machine.execRegwr1 addr b s
  | .regwrn addr bytes => Sys2Proof.Machine.execRegwrn addr bytes s
  | .regrd1 addr => Sys2Proof.Machine.execRegrd1 addr s
  | .regrdn addr n => Sys2Proof.Machine.execRegrdn addr n s
  | .wrmsg header ndo objects => Sys2Proof.Machine.execWrmsg header ndo objects s
  | .rdframe buf => Sys2Proof.Machine.execRdframe buf s
  | .vbusstep => Sys2Proof.Machine.execVbusstep s
  | .init => Sys2Proof.Machine.execInit s
  | .reset => Sys2Proof.Machine.execReset s
  | .update => Sys2Proof.Machine.execUpdate s
  | .reqcap index currentMa => Sys2Proof.Machine.execReqcap index currentMa s
  | .getcaps => Sys2Proof.Machine.execGetcaps s
  | .curcap => Sys2Proof.Machine.execCurcap s
  | .pwrstable => Sys2Proof.Machine.execPwrstable s
  | .getccpin => Sys2Proof.Machine.execGetccpin s
  | .procmsg => Sys2Proof.Machine.execProcmsg s
  | .header16 n i' p r d t => Sys2Proof.Machine.execHeader16 n i' p r d t s
  | .capability32 y a b c e f g x k v m => Sys2Proof.Machine.execCapability32 y a b c e f g x k v m s
  | .request32 i' o m => Sys2Proof.Machine.execRequest32 i' o m s
  | .txPacksym count => Sys2Proof.Machine.execTxPacksym count s
  | .txFrame header objects => Sys2Proof.Machine.execTxFrame header objects s
  | .rxSop x => Sys2Proof.Machine.execRxSop x s
  | .rxFrame x header objects c0 c1 c2 c3 => Sys2Proof.Machine.execRxFrame x header objects c0 c1 c2 c3 s
  | .measure8 code => Sys2Proof.Machine.execMeasure8 code s

end Sys2Proof.Machine
end

