-- ==== Sys2Proof/Machine/Step.lean ====
section
/-!
DEFINITION. One step of the machine: take the next instruction (`State.takeNext`) and run it. With nothing
presented the block waits and nothing changes (`spec/00_scope.md` R13, log entry 2).
-/

namespace Sys2Proof.Machine

/-- One step: the loop in progress, a presented wire value, or the command at the head of the port. -/
def step (s : State) : Host.Outcome State Fault Refusal :=
  match s.takeNext with
  | .run i s' => exec i s'
  | .reject why => .refused (.undecodable why)
  | .idle => .next s

/-- The state with an instruction of `spec/opcode_table.json`, of `nbits` bits `w`, presented where the next
step takes it. -/
def State.withFetchWord (s : State) (nbits w : Nat) : State := s.present (placeTableWord nbits w)

end Sys2Proof.Machine
end

