-- ==== Sys2Proof/Safety.lean ====
section
/-!
DEFINITION. What counts as a legal state, in the terms the statements use: the invariants the spec gives
(`spec/10_state.md` R25, R26, R28; `spec/42_vbus_sampler.md` R167, R171; `spec/43_negotiation.md` R204) and the
canonical form of the chip register space.
-/

namespace Sys2Proof.Machine

/-- The block, its ports and its parameters are as before: what may differ is the chip, the environment,
the record of calls and the result port. -/
abbrev State.SameBlock (s t : State) : Prop :=
  t.cfg = s.cfg ∧ t.seq = s.seq ∧ t.vs = s.vs ∧ t.port = s.port ∧ t.wire = s.wire ∧ t.loop = s.loop

/-- Nothing of the past is taken back: the parameters stay, the record of calls only grows (R51, R62), and
the host's clock never goes back (R225). -/
abbrev State.Later (s t : State) : Prop :=
  t.cfg = s.cfg ∧ s.trace <+: t.trace ∧ s.env.clock ≤ t.env.clock

/-- Every transaction in a record is followed at once by the pause of R54 (D17). -/
def Paused (us : Nat) : List Event → Bool
  | [] => true
  | .write _ _ _ :: t => decide (t.head? = some (.delay us)) && Paused us t
  | .read _ _ _ :: t => decide (t.head? = some (.delay us)) && Paused us t
  | .delay _ :: t => Paused us t
  | .now _ :: t => Paused us t
  | .action _ _ :: t => Paused us t
  | .level _ :: t => Paused us t

/-- What R171 and R167 say of the sampler's state after power-on: the step's magnitude is a power of two
from 1 to 64; a programmed code is below `VBUS_MAX_CODE`; once a code is programmed, the step points up
exactly when the last comparator result was true, and the code is not at the rail the step came from. -/
def VbusSearch.Legal (c : Params) (vs : VbusSearch) : Prop :=
  vs.step.natAbs ∈ [1, 2, 4, 8, 16, 32, 64] ∧
  ∀ code, vs.last = some code →
    code.toNat < c.vbusMaxCode ∧
    (0 < vs.step ↔ vs.lastComp = true) ∧
    (0 < vs.step → 1 ≤ code.toNat) ∧
    (vs.step < 0 → code.toNat + 1 < c.vbusMaxCode)

/-- What the spec says of the sequencer's state: the count never exceeds 7 (R25), a pin is chosen in every
state after DetectCc (R189, R204), clock values have the clock's width (R225), and a list is stored only
once the marker is set (R194). -/
def Sequencer.Legal (c : Params) (q : Sequencer) : Prop :=
  q.capcount.val ≤ 7 ∧
  (q.nstate = .enableTransceiver ∨ q.nstate = .waitSourceCapabilities ∨ q.nstate = .connected →
    q.ccpin ≠ none) ∧
  q.tsettle < 2 ^ c.clockWidth ∧ q.twait < 2 ^ c.clockWidth ∧
  (q.capcount.val ≠ 0 → q.srccapseen = true)

/-- A legal state. -/
def State.Legal (s : State) : Prop :=
  s.cfg.Ok ∧ s.seq.Legal s.cfg ∧ s.vs.Legal s.cfg ∧ s.chip.regs.Wf

/-- A call of `VBUSSTEP` whose transactions succeed, against a steady boundary `B`: the comparator reads true
exactly when the code last programmed is below `B` (R161, R172). -/
def State.SteadyCall (B : Nat) (s t : State) : Prop :=
  exec .vbusstep s = .next t ∧
  match s.vs.last with
  | none => s.nextDraw.ok = true
  | some code =>
    ∃ b, (regRead s.cfg.regStatus0 1 s).1 = some [b] ∧
      comparatorBit s.cfg [b] = decide (code.toNat < B) ∧
      (regRead s.cfg.regStatus0 1 s).2.nextDraw.ok = true

/-- The message loop of R190, uncut: pass after pass until one ends it. The first Boolean is what was seen
before, the second what was seen in all, the second state the one the loop ends in. -/
inductive LoopRuns : Bool → State → Bool → State → Prop where
  /-- The pass ends the loop. -/
  | ends {saw : Bool} {s u : State} (pass : messagePass s = (none, u)) : LoopRuns saw s saw u
  /-- The pass handles a message, and the loop goes on. -/
  | goesOn {saw seen all : Bool} {s s' u : State} (pass : messagePass s = (some seen, s'))
      (rest : LoopRuns (saw || seen) s' all u) : LoopRuns saw s all u

/-- The transfers of the table of R204: every change of `S.NSTATE`, and staying. -/
def mayGo : NegState → NegState → Bool
  | .start, .start => true
  | .start, .detectCc => true
  | .detectCc, .start => true
  | .detectCc, .detectCc => true
  | .detectCc, .enableTransceiver => true
  | .enableTransceiver, .start => true
  | .enableTransceiver, .enableTransceiver => true
  | .enableTransceiver, .waitSourceCapabilities => true
  | .waitSourceCapabilities, .start => true
  | .waitSourceCapabilities, .waitSourceCapabilities => true
  | .waitSourceCapabilities, .enableTransceiver => true
  | .waitSourceCapabilities, .connected => true
  | .connected, .start => true
  | .connected, .connected => true
  | _, _ => false

end Sys2Proof.Machine
end

