-- ==== Sys2Proof/Certificates/Slice0/Obligations.lean ====
section
/-!
DEFINITION. The statements about the model, from the numbered rules of `spec/`. `OBLIGATIONS.json` lists
them with the rules they cite. A statement says of the environment only what its hypotheses say: every
answer of the chip, the bus and the clock is otherwise free. Every clause on what a FIFO of the chip holds after
an access rests on the FIFOs having no bound, and every clause that an access leaves a FIFO or a register of the chip
as it was, where no rule names it, on the access having no further effect: the model's choice, log entries 28, and
29 (reads) and 30 (writes).
-/

open Sys2Proof Sys2Proof.Machine

/-! ## Taking and decoding instructions -/

/-- With no loop in progress and no wire value presented, the command at the head of the port runs, on the
state with its bytes taken (R101, D1; how operands follow a code is log entry 1). -/
def Obligations.StepRunsDecodedCommand : Prop :=
  ∀ (s : State) (b : Byte) (t rest : List Byte) (i : Instr),
    s.loop = none → s.wire = [] → s.port = b :: t → decode (b :: t) = .ok (i, rest) →
    step s = exec i { s with port := rest }

/-- What is taken before a command: the message loop in progress (D1, R250); else a presented wire value;
with nothing presented at all, nothing changes. The model's choice: log entries 2, 3 and 4. -/
def Obligations.StepTakesLoopValueOrIdles : Prop :=
  ∀ s : State,
    (∀ l, s.loop = some l → step s = exec .procmsg s) ∧
    (∀ item rest i, s.loop = none → s.wire = item :: rest →
      decodeFormat s.cfg item.format item.bytes = .ok i → step s = exec i { s with wire := rest }) ∧
    (s.loop = none → s.wire = [] → s.port = [] → step s = .next s)

/-- A code outside the map of R102 is refused (R103, D2). -/
def Obligations.UnknownCodeIsRefused : Prop :=
  ∀ (s : State) (op : Byte) (t : List Byte),
    s.loop = none → s.wire = [] → s.port = op :: t → (∀ o : Op, o.code ≠ op) →
    step s = .refused (.undecodable (.unknownOpcode op))

/-- Bytes that are no operation, an operand byte outside its field among them, are refused by name: no next
state. An operand wider than its field is never masked (D3, U1): type 5 bits, count and id 3, power role and
data role 1, revision 2, index 1 to 7, current up to 10239. How a field stands in its byte (an operand that
can be left out as its value plus 1, the index less 1) is the model's choice: log entry 1; that presented wire
values are taken first, entry 3. -/
def Obligations.PortRefusesWideOperands : Prop :=
  (∀ (s : State) (b : Byte) (t : List Byte) (why : Rejection),
    s.loop = none → s.wire = [] → s.port = b :: t → decode (b :: t) = .error why →
    step s = .refused (.undecodable why)) ∧
  (∀ (s : State) (item : WireItem) (rest : List WireItem) (why : Rejection),
    s.loop = none → s.wire = item :: rest → decodeFormat s.cfg item.format item.bytes = .error why →
    step s = .refused (.undecodable why)) ∧
  ∀ (b x y p d r : Byte) (t : List Byte),
    (32 ≤ b.toNat → decode (0x10 :: b :: t) = .error .messageType) ∧
    (b.toNat < 32 → 8 ≤ x.toNat → decode (0x10 :: b :: x :: t) = .error .numDataObjects) ∧
    (b.toNat < 32 → x.toNat < 8 → 8 ≤ y.toNat → decode (0x10 :: b :: x :: y :: t) = .error .messageId) ∧
    (b.toNat < 32 → x.toNat < 8 → y.toNat < 8 →
      (3 ≤ p.toNat → decode (0x10 :: b :: x :: y :: p :: t) = .error .powerRole) ∧
      (p.toNat < 3 → 3 ≤ d.toNat → decode (0x10 :: b :: x :: y :: p :: d :: t) = .error .dataRole) ∧
      (p.toNat < 3 → d.toNat < 3 → 5 ≤ r.toNat →
        decode (0x10 :: b :: x :: y :: p :: d :: r :: t) = .error .specRevision)) ∧
    (7 ≤ b.toNat → decode (0x17 :: b :: x :: y :: t) = .error .capabilityIndex ∧
      decode (0x43 :: b :: x :: y :: t) = .error .capabilityIndex) ∧
    (b.toNat < 7 → 10240 ≤ x.toNat + 256 * y.toNat →
      decode (0x17 :: b :: x :: y :: t) = .error .currentMa ∧
      decode (0x43 :: b :: x :: y :: t) = .error .currentMa) ∧
    (8 ≤ b.toNat → decode (0x24 :: x :: y :: b :: t) = .error .numDataObjects)

/-- A call outside its operation's domain is refused, whatever the state (R99, D3, U1: a Request's index and
current, the buffer of `RDFRAME`). That an empty `REGWRN`, a `REGRDN` of length 0 and a `WRMSG` without its
objects are outside the domain is read from R52, R53 and R144 and is the model's choice to refuse: log entry
17; the domains of the two frame formats are the model's choice: log entries 3 and 17. -/
def Obligations.CallOutsideDomainIsRefused : Prop :=
  ∀ (i : Instr) (s : State), WellFormed i = false → exec i s = .refused .outOfDomain

/-- A call in its operation's domain always answers a next state: "Nothing in this core is fatal" (R215). Every
operation but `UPDATE` and `PROCMSG` has then completed; those two may answer a state in which their message
loop is still in progress (R255, U17; where a step cuts it is the model's choice: log entry 4), and then they
have not returned: the result port is as before. The premise on the state is that a pin is chosen before the
transceiver is enabled on it (R184; log entry 22). That `PROCMSG` runs alone and the wire formats run as
layouts is the model's choice: log entries 4 and 3. -/
def Obligations.EveryCallInDomainCompletes : Prop :=
  ∀ (i : Instr) (s : State), WellFormed i = true →
    (i = .update → s.seq.nstate = .enableTransceiver → s.seq.ccpin ≠ none) →
    ∃ t, exec i s = .next t ∧
      (i ≠ .update → i ≠ .procmsg → t.loop = s.loop) ∧
      (i = .procmsg ∨ i = .update ∧ s.loop = none →
        t.loop = none ∨ (∃ l, t.loop = some l) ∧ t.result = s.result)

/-- Words written out from the encodings of the spec decode to what they stand for (R80, R86, R90, R91,
R102). The two operand bytes of `UNPACKHDR` are the model's choice: log entry 1; the tags of the packed symbol
and the start-of-frame byte are the default parameters, PRESUMED: log entry 13. -/
def Obligations.DecodeReadsSpecWords : Prop :=
  decode [0x11, 0x61, 0x0A] = .ok (.unpackhdr 0x0A61, []) ∧
  decode [0x30] = .ok (.vbusstep, []) ∧
  decode [0x42, 0x47] = .ok (.update, [0x47]) ∧
  decodeFormat Config.defaults .header16 [0x61, 0x21] = .ok (.header16 2 0 1 1 1 1) ∧
  decodeFormat Config.defaults .request32 [0xC8, 0x20, 0x03, 0x21] = .ok (.request32 2 200 200) ∧
  decodeFormat Config.defaults .txPacksym [0x86] = .ok (.txPacksym 6) ∧
  decodeFormat Config.defaults .rxFrame [0xE0, 0x63, 0x03, 0xC0, 0xC1, 0xC2, 0xC3] =
    .ok (.rxFrame 0 0x0363 [] 0xC0 0xC1 0xC2 0xC3)

/-- Decode and encode agree for every operation of the command port, with every operand in the domain,
whatever bytes follow. -/
def Obligations.DecodeEncodeCommands : Prop :=
  ∀ (c : Params) (i : Instr) (op : Op) (rest : List Byte),
    opOf i = some op → WellFormed i = true → decode (encode c i ++ rest) = .ok (i, rest)

/-- Decode and encode agree for every value of the eight wire formats, for every choice of the parameters
that meets the side conditions. -/
def Obligations.DecodeEncodeFormats : Prop :=
  ∀ (c : Params) (i : Instr) (f : WireFormat),
    c.Ok → formatOf i = some f → WellFormed i = true → decodeFormat c f (encode c i) = .ok i

/-! ## Reset and the invariant -/

/-- The reset values the table of R37 gives (D42), and that `RESET` sets all of them but the sampler's, and
nothing the table leaves unspecified. -/
def Obligations.ResetHoldsSpecValues : Prop :=
  let q := State.reset.seq
  q.nstate = .start ∧ q.msgid = 0 ∧ q.capcount = 0 ∧ q.reqcap = 0 ∧ q.curcap = 0 ∧ q.pwrstable = false ∧
  q.srccapseen = false ∧ q.ccpin = none ∧ q.ccmeas = .cc1 ∧ q.ccsaved = none ∧
  State.reset.vs = { last := none, step := 64, widen := false, lastComp := false } ∧
  ∀ s : State, exec .reset s = .next { s with
    seq := { q with caplist := s.seq.caplist, tsettle := s.seq.tsettle, twait := s.seq.twait }
    result := .none }

/-- The state after reset is legal. -/
def Obligations.ResetIsLegal : Prop := State.reset.Legal

/-- Every step keeps the state legal: the sampler's invariants (R171, R167), the count's bound (R25), the
chosen pin, the clock values' width, the parameters' side conditions, and the canonical form of the chip
register space. -/
def Obligations.StepKeepsLegal : Prop :=
  ∀ s t : State, s.Legal → step s = .next t → t.Legal

/-! ## Codec -/

/-- `PACKHDR` places each field at its offset, with defaults for roles and revision left out (R121, R105),
and changes nothing but the result. -/
def Obligations.PackHeaderPlacesFields : Prop :=
  ∀ (type : BitVec 5) (ndo id : BitVec 3) (pr dr : Option (BitVec 1)) (rev : Option (BitVec 2)) (s : State),
    ∃ h : Half, exec (.packhdr type ndo id pr dr rev) s = .next { s with result := .half h } ∧
      h.toNat = ndo.toNat * 4096 + id.toNat * 512 + (pr.getD s.cfg.roleSink).toNat * 256 +
        (rev.getD s.cfg.specRev20).toNat * 64 + (dr.getD s.cfg.roleUfp).toNat * 32 + type.toNat

/-- `UNPACKHDR` reads three fields of any value, and drops the other bits (R122). -/
def Obligations.UnpackHeaderReadsFields : Prop :=
  ∀ (v : Half) (s : State),
    ∃ f : HeaderFields, exec (.unpackhdr v) s = .next { s with result := .headerFields f } ∧
      f.ndo.toNat = v.toNat / 4096 % 8 ∧ f.id.toNat = v.toNat / 512 % 8 ∧ f.type.toNat = v.toNat % 32

/-- The round trip of the header, both ways (R129). -/
def Obligations.HeaderRoundTrip : Prop :=
  (∀ (type : BitVec 5) (ndo id : BitVec 3) (pr dr : Option (BitVec 1)) (rev : Option (BitVec 2)) (s : State),
    ∃ h : Half, exec (.packhdr type ndo id pr dr rev) s = .next { s with result := .half h } ∧
      exec (.unpackhdr h) s =
        .next { s with result := .headerFields { ndo := ndo, id := id, type := type } }) ∧
  (∀ (v : Half) (s : State),
    ∃ f : HeaderFields, exec (.unpackhdr v) s = .next { s with result := .headerFields f } ∧
      (exec (.packhdr f.type f.ndo f.id none none none) s = .next { s with result := .half v } ↔
        v.getLsbD 15 = false ∧ v.extractLsb' 8 1 = s.cfg.roleSink ∧
        v.extractLsb' 6 2 = s.cfg.specRev20 ∧ v.extractLsb' 5 1 = s.cfg.roleUfp))

/-- `UNPACKCAP` reads the ten fields whatever the tag (R123), with the scaling of R85. -/
def Obligations.UnpackCapabilityReadsFields : Prop :=
  ∀ (w : Word) (s : State),
    ∃ u : Unpacked, exec (.unpackcap w) s = .next { s with result := .capability u } ∧
      u.tag.toNat = w.toNat / 2 ^ 30 ∧
      u.dualRolePower = w.toNat.testBit 29 ∧ u.usbSuspend = w.toNat.testBit 28 ∧
      u.unconstrainedPower = w.toNat.testBit 27 ∧ u.usbComm = w.toNat.testBit 26 ∧
      u.dualRoleData = w.toNat.testBit 25 ∧ u.unchunkedExt = w.toNat.testBit 24 ∧
      u.peakCurrent.toNat = w.toNat / 2 ^ 20 % 4 ∧
      u.voltageMv = w.toNat / 1024 % 1024 * 50 ∧ u.maxCurrentMa = w.toNat % 1024 * 10 ∧
      u.voltageMv ≤ 51150 ∧ u.maxCurrentMa ≤ 10230

/-- `PACK16LE` and `UNPACK16LE` (R124, R125): least significant byte first, and inverse to each other. -/
def Obligations.HalfBytesLittleEndian : Prop :=
  (∀ (v : Half) (s : State),
    ∃ b0 b1 : Byte, exec (.pack16le v) s = .next { s with result := .bytes [b0, b1] } ∧
      b0.toNat = v.toNat % 256 ∧ b1.toNat = v.toNat / 256 ∧
      exec (.unpack16le b0 b1) s = .next { s with result := .half v }) ∧
  (∀ (b0 b1 : Byte) (s : State),
    ∃ v : Half, exec (.unpack16le b0 b1) s = .next { s with result := .half v } ∧
      v.toNat = b0.toNat + 256 * b1.toNat)

/-- `PACK32LE` and `UNPACK32LE` (R126, R127): least significant byte first, and inverse to each other. -/
def Obligations.WordBytesLittleEndian : Prop :=
  (∀ (v : Word) (s : State),
    ∃ b0 b1 b2 b3 : Byte, exec (.pack32le v) s = .next { s with result := .bytes [b0, b1, b2, b3] } ∧
      b0.toNat = v.toNat % 256 ∧ b1.toNat = v.toNat / 256 % 256 ∧
      b2.toNat = v.toNat / 65536 % 256 ∧ b3.toNat = v.toNat / 16777216 ∧
      exec (.unpack32le b0 b1 b2 b3) s = .next { s with result := .word v }) ∧
  (∀ (b0 b1 b2 b3 : Byte) (s : State),
    ∃ v : Word, exec (.unpack32le b0 b1 b2 b3) s = .next { s with result := .word v } ∧
      v.toNat = b0.toNat + 256 * b1.toNat + 65536 * b2.toNat + 16777216 * b3.toNat)

/-- `PACKREQ` in its domain (R128, R87): index, flag bit 24, and the truncated current in both fields. -/
def Obligations.PackRequestPlacesFields : Prop :=
  ∀ (index : BitVec 3) (currentMa : Nat) (s : State), index ≠ 0 → currentMa ≤ 10239 →
    ∃ w : Word, exec (.packreq index currentMa) s = .next { s with result := .word w } ∧
      w.toNat = index.toNat * 2 ^ 28 + 2 ^ 24 + currentMa / 10 * 1024 + currentMa / 10

/-- A capability's current, unpacked and put into a Request, gives back the capability's raw current in both
fields (R130). -/
def Obligations.CapabilityCurrentSurvivesRequest : Prop :=
  ∀ (w : Word) (index : BitVec 3) (s : State), index ≠ 0 →
    ∃ (u : Unpacked) (r : Word),
      exec (.unpackcap w) s = .next { s with result := .capability u } ∧
      exec (.packreq index u.maxCurrentMa) s = .next { s with result := .word r } ∧
      r.toNat % 1024 = w.toNat % 1024 ∧ r.toNat / 1024 % 1024 = w.toNat % 1024

/-! ## Transport -/

/-- `REGWR1` (R140): one transaction and its pause; the outcome is the host's; the register holds the byte;
every other register, and all of the block, is unchanged. At `REG_FIFO` no register changes and the transmit
FIFO takes the byte. What a write leaves at the chip (a register holds the byte, or after a failure is unknown;
a failed write leaves a free number of bytes in the FIFO; the FIFO has no bound; nothing else changes) is the
model's choice: log entries 6, 8, 28 and 30. -/
def Obligations.RegisterWriteOneByte : Prop :=
  ∀ (addr b : Byte) (s : State), let d := s.nextDraw
    ∃ t, exec (.regwr1 addr b) s = .next t ∧ s.SameBlock t ∧
      t.result = (if d.ok then .ok else .fail .ioWrite) ∧
      t.trace = s.trace ++ [.write addr [b] d.ok, .delay s.cfg.tXactDelayUs] ∧
      t.chip.rxFifo = s.chip.rxFifo ++ d.arrive ∧
      (addr ≠ s.cfg.regFifo →
        t.chip.regs.read addr.toNat = (if d.ok then some b else none) ∧
        (∀ a, a ≠ addr.toNat → t.chip.regs.read a = s.chip.regs.read a) ∧
        t.chip.txFifo = s.chip.txFifo.drop d.drain) ∧
      (addr = s.cfg.regFifo →
        (∀ a, t.chip.regs.read a = s.chip.regs.read a) ∧
        t.chip.txFifo = s.chip.txFifo.drop d.drain ++ (if d.ok then [b] else [b].take d.moved))

/-- `REGWRN` (R141): the whole sequence in one transaction; one byte is the case of `REGWR1`. That several
bytes at a register leave the registers unknown and reach neither FIFO, that a failed write at the FIFO leaves a
free number of them there, and that the FIFO has no bound, is the model's choice: log entries 6, 8, 28 and 30. -/
def Obligations.RegisterWriteManyBytes : Prop :=
  ∀ (addr : Byte) (bytes : List Byte) (s : State), bytes ≠ [] → let d := s.nextDraw
    ∃ t, exec (.regwrn addr bytes) s = .next t ∧ s.SameBlock t ∧
      t.result = (if d.ok then .ok else .fail .ioWrite) ∧
      t.trace = s.trace ++ [.write addr bytes d.ok, .delay s.cfg.tXactDelayUs] ∧
      t.chip.rxFifo = s.chip.rxFifo ++ d.arrive ∧
      (∀ b, bytes = [b] → exec (.regwrn addr bytes) s = exec (.regwr1 addr b) s) ∧
      (addr = s.cfg.regFifo →
        (∀ a, t.chip.regs.read a = s.chip.regs.read a) ∧
        t.chip.txFifo = s.chip.txFifo.drop d.drain ++ (if d.ok then bytes else bytes.take d.moved)) ∧
      (addr ≠ s.cfg.regFifo → t.chip.txFifo = s.chip.txFifo.drop d.drain ∧
        (2 ≤ bytes.length → ∀ a, t.chip.regs.read a = none))

/-- `REGRD1` (R142): one transaction and its pause; nothing of the block changes. At `REG_FIFO` the byte is the
next of the receive FIFO, if it holds one, and is gone from it (R34, R59; R143: "`REGRD1` is the case
`n = 1`"); elsewhere the byte is the chip's and the receive FIFO is unchanged. That a failed read at the FIFO
takes at most one byte, that the FIFO has no bound, and that a read elsewhere changes nothing of the chip, is the
model's choice: log entries 7, 28 and 29. -/
def Obligations.RegisterReadOneByte : Prop :=
  ∀ (addr : Byte) (s : State), let d := s.nextDraw
    ∃ t, exec (.regrd1 addr) s = .next t ∧ s.SameBlock t ∧
      (∀ a, t.chip.regs.read a = s.chip.regs.read a) ∧
      (addr ≠ s.cfg.regFifo → t.chip.rxFifo = s.chip.rxFifo ++ d.arrive) ∧
      (d.ok = true → ∃ b, t.result = .byte b ∧
        t.trace = s.trace ++ [.read addr 1 (some [b]), .delay s.cfg.tXactDelayUs] ∧
        (addr = s.cfg.regFifo →
          (∀ b' rest, s.chip.rxFifo ++ d.arrive = b' :: rest → b = b' ∧ t.chip.rxFifo = rest) ∧
          (s.chip.rxFifo ++ d.arrive = [] → t.chip.rxFifo = []))) ∧
      (d.ok = false → t.result = .fail .ioRead ∧
        t.trace = s.trace ++ [.read addr 1 none, .delay s.cfg.tXactDelayUs] ∧
        (addr = s.cfg.regFifo →
          ∃ k, k ≤ 1 ∧ t.chip.rxFifo = (s.chip.rxFifo ++ d.arrive).drop k))

/-- `REGRDN` (R143): exactly `n` bytes; at `REG_FIFO` they are the next bytes of the receive FIFO, as far as
it holds them, and are gone from it (R34); a failed read delivers no byte (R53). That a failed read takes at
most `n` bytes from the FIFO, that the FIFO has no bound, and that a read elsewhere changes nothing of the chip,
is the model's choice: log entries 7, 28 and 29. -/
def Obligations.RegisterReadManyBytes : Prop :=
  ∀ (addr : Byte) (n : Nat) (s : State), 1 ≤ n → let d := s.nextDraw
    ∃ t, exec (.regrdn addr n) s = .next t ∧ s.SameBlock t ∧
      (∀ a, t.chip.regs.read a = s.chip.regs.read a) ∧
      (addr ≠ s.cfg.regFifo → t.chip.rxFifo = s.chip.rxFifo ++ d.arrive) ∧
      (d.ok = true → ∃ bytes, t.result = .bytes bytes ∧ bytes.length = n ∧
        t.trace = s.trace ++ [.read addr n (some bytes), .delay s.cfg.tXactDelayUs] ∧
        (addr = s.cfg.regFifo →
          bytes.take (s.chip.rxFifo ++ d.arrive).length = (s.chip.rxFifo ++ d.arrive).take n ∧
          t.chip.rxFifo = (s.chip.rxFifo ++ d.arrive).drop n)) ∧
      (d.ok = false → t.result = .fail .ioRead ∧
        t.trace = s.trace ++ [.read addr n none, .delay s.cfg.tXactDelayUs] ∧
        (addr = s.cfg.regFifo →
          ∃ k, k ≤ n ∧ t.chip.rxFifo = (s.chip.rxFifo ++ d.arrive).drop k))

/-- `WRMSG` (R144, R88, R90): exactly one write to `REG_FIFO`, of the frame written out here: preamble,
packed symbol from the operand `ndo`, the header as given, the first `ndo` objects, the four tokens. That the
FIFO has room for it, and that nothing else of the chip changes, is the model's choice: log entries 28 and 30. -/
def Obligations.WriteMessageSendsFrame : Prop :=
  ∀ (header : Half) (ndo : BitVec 3) (objects : List Word) (s : State), ndo.toNat ≤ objects.length →
    let c := s.cfg
    let d := s.nextDraw
    let frame := [c.tokSync1, c.tokSync1, c.tokSync1, c.tokSync2,
        c.tokPacksym ||| BitVec.ofNat 8 (2 + 4 * ndo.toNat),
        header.extractLsb' 0 8, header.extractLsb' 8 8] ++
      (objects.take ndo.toNat).flatMap (fun w =>
        [w.extractLsb' 0 8, w.extractLsb' 8 8, w.extractLsb' 16 8, w.extractLsb' 24 8]) ++
      [c.tokJamCrc, c.tokEop, c.tokTxOff, c.tokTxOn]
    frame.length = 11 + 4 * ndo.toNat ∧
    ∃ t, exec (.wrmsg header ndo objects) s = .next t ∧ s.SameBlock t ∧
      t.result = (if d.ok then .ok else .fail .ioWrite) ∧
      t.trace = s.trace ++ [.write c.regFifo frame d.ok, .delay c.tXactDelayUs] ∧
      (d.ok = true → t.chip.txFifo = s.chip.txFifo.drop d.drain ++ frame) ∧
      t.chip.rxFifo = s.chip.rxFifo ++ d.arrive ∧
      (∀ a, t.chip.regs.read a = s.chip.regs.read a)

/-- `RDFRAME` (R145, R146): the outcome the host's two answers and the start-of-frame test decide, with the
transactions issued and what the receive FIFO holds afterwards (R34, R219). The first three bytes are the
FIFO's next, as far as it holds them. After a mismatch no second read is issued, exactly those three are gone
and the body stays (S4); on success `4×N + 4` more are gone, the buffer holds header and data and is unchanged
beyond them, and the CRC is dropped. Nothing of the block and no register changes. That a failed read takes at
most the bytes it asked for, and the FIFO without a bound, are the model's choice: log entries 7 and 28. -/
def Obligations.ReadFrameOutcomes : Prop :=
  ∀ (buf : List Byte) (s : State), 30 ≤ buf.length →
    let c := s.cfg
    let pause : Event := .delay c.tXactDelayUs
    let d1 := s.nextDraw
    let d2 := s.takeDraw.nextDraw
    let queue := s.chip.rxFifo ++ d1.arrive
    ∃ t, exec (.rdframe buf) s = .next t ∧ s.SameBlock t ∧
      (∀ a, t.chip.regs.read a = s.chip.regs.read a) ∧
      (d1.ok = false →
        (∃ free, t.result = .noFrame .ioRead free ∧ free.length = buf.length) ∧
        t.trace = s.trace ++ [.read c.regFifo 3 none, pause] ∧
        ∃ k, k ≤ 3 ∧ t.chip.rxFifo = queue.drop k) ∧
      (d1.ok = true → ∃ b0 b1 b2, [b0, b1, b2].take queue.length = queue.take 3 ∧
        let n := b2.toNat / 16 % 8
        let body := queue.drop 3 ++ d2.arrive
        (b0 &&& c.rxSopMask ≠ c.rxSopTag →
          (∃ free, t.result = .noFrame .sopMismatch free ∧ free.length = buf.length) ∧
          t.trace = s.trace ++ [.read c.regFifo 3 (some [b0, b1, b2]), pause] ∧
          t.chip.rxFifo = queue.drop 3) ∧
        (b0 &&& c.rxSopMask = c.rxSopTag → d2.ok = false →
          (∃ free, t.result = .noFrame .ioRead free ∧ free.length = buf.length) ∧
          t.trace = s.trace ++ [.read c.regFifo 3 (some [b0, b1, b2]), pause,
            .read c.regFifo (4 * n + 4) none, pause] ∧
          ∃ k, k ≤ 4 * n + 4 ∧ t.chip.rxFifo = body.drop k) ∧
        (b0 &&& c.rxSopMask = c.rxSopTag → d2.ok = true →
          ∃ d, d.length = 4 * n + 4 ∧ d.take body.length = body.take (4 * n + 4) ∧
            t.result = .frame (b1 :: b2 :: (d.take (4 * n) ++ buf.drop (2 + 4 * n))) ∧
            t.trace = s.trace ++ [.read c.regFifo 3 (some [b0, b1, b2]), pause,
              .read c.regFifo (4 * n + 4) (some d), pause] ∧
            t.chip.rxFifo = body.drop (4 * n + 4)))

/-- Round trip through a loop-back (R147): the payload of a transmit frame, put into the receive stream
between a byte that passes the start-of-frame test and any four bytes, comes back in the buffer byte for
byte, when the header's count is the number of objects. What follows the frame stays in the FIFO, which has no
bound (log entry 28). -/
def Obligations.FrameLoopBack : Prop :=
  ∀ (s : State) (header : Half) (objects : List Word) (sop c0 c1 c2 c3 : Byte) (rest buf : List Byte)
    (d1 d2 : Draw) (script : List Draw),
    header.toNat / 4096 % 8 = objects.length → sop &&& s.cfg.rxSopMask = s.cfg.rxSopTag →
    30 ≤ buf.length → s.env.script = d1 :: d2 :: script → d1.ok = true → d2.ok = true →
    let payload := ((encode s.cfg (.txFrame header objects)).drop 5).take (2 + 4 * objects.length)
    s.chip.rxFifo = sop :: (payload ++ [c0, c1, c2, c3] ++ rest) →
    ∃ t, exec (.rdframe buf) s = .next t ∧
      t.result = .frame (payload ++ buf.drop (2 + 4 * objects.length)) ∧
      t.chip.rxFifo = rest ++ d1.arrive ++ d2.arrive

/-! ## Sampler -/

/-- The first call of `VBUSSTEP` (R163): no comparator read, one write, as if the last code were 0 and the
comparator true; on a failed write the search state is unchanged (R170). What the write leaves at the chip
(`REG_MEASURE` holds the byte, or after a failure is unknown; the other registers and the FIFOs stay) is the model's
choice: log entries 6, 28 and 30. -/
def Obligations.VbusFirstCall : Prop :=
  ∀ s : State, s.cfg.Ok → s.vs.last = none →
    let d := s.nextDraw
    let mag := s.vs.step.natAbs
    let mag' := if s.vs.widen then min (2 * mag) s.cfg.vbusFullStep else max (mag / 2) 1
    ∃ (t : State) (code : BitVec 6), exec .vbusstep s = .next t ∧ t.result = .vbus none ∧
      code.toNat = min mag' (s.cfg.vbusMaxCode - 1) ∧
      t.trace = s.trace ++ [.write s.cfg.regMeasure [s.cfg.measureVbus ||| code.setWidth 8] d.ok,
        .delay s.cfg.tXactDelayUs] ∧
      t.cfg = s.cfg ∧ t.seq = s.seq ∧ t.port = s.port ∧ t.wire = s.wire ∧ t.loop = s.loop ∧
      (∀ a, a ≠ s.cfg.regMeasure.toNat → t.chip.regs.read a = s.chip.regs.read a) ∧
      t.chip.regs.read s.cfg.regMeasure.toNat =
        (if d.ok then some (s.cfg.measureVbus ||| code.setWidth 8) else none) ∧
      t.chip.rxFifo = s.chip.rxFifo ++ d.arrive ∧ t.chip.txFifo = s.chip.txFifo.drop d.drain ∧
      (d.ok = true → t.vs = { last := some code, step := mag', widen := s.vs.widen, lastComp := true }) ∧
      (d.ok = false → t.vs = s.vs)

/-- Every later call of `VBUSSTEP` (R162): a failed comparator read changes nothing and issues no write; else
the five steps, on the sampled bit `c`: convergence at unit step, mode, magnitude, sign, clamped code. A
failed write leaves the search state unchanged and reports nothing (R170). What the accesses leave at the chip
(`REG_MEASURE` holds the byte written, or after a failed write is unknown; the other registers and the FIFOs stay)
is the model's choice: log entries 6, 28 and 30; that the comparator's register is read without side effect is R59,
decision D18. -/
def Obligations.VbusSampledCall : Prop :=
  ∀ (s : State) (base : BitVec 6), s.cfg.Ok → s.vs.last = some base →
    let d1 := s.nextDraw
    let r := regRead s.cfg.regStatus0 1 s
    let pause : Event := .delay s.cfg.tXactDelayUs
    ∃ t, exec .vbusstep s = .next t ∧
      t.cfg = s.cfg ∧ t.seq = s.seq ∧ t.port = s.port ∧ t.wire = s.wire ∧ t.loop = s.loop ∧
      (∀ a, a ≠ s.cfg.regMeasure.toNat → t.chip.regs.read a = s.chip.regs.read a) ∧
      (r.1 = none → t.vs = s.vs ∧ t.result = .vbus none ∧
        t.trace = s.trace ++ [.read s.cfg.regStatus0 1 none, pause] ∧
        t.chip.rxFifo = s.chip.rxFifo ++ d1.arrive ∧ t.chip.txFifo = s.chip.txFifo.drop d1.drain) ∧
      (∀ b, r.1 = some [b] →
        let c : Bool := decide (b &&& s.cfg.status0Comp ≠ 0)
        let conv : Prop := (s.vs.step = -1 ∧ s.vs.lastComp = false ∧ c = true) ∨
          (s.vs.step = 1 ∧ s.vs.lastComp = true ∧ c = false)
        let d2 := r.2.nextDraw
        let ok := d2.ok
        ∃ (code : BitVec 6) (mag : Nat) (widen : Bool),
          (conv → widen = true ∧ mag = 1) ∧
          (¬ conv → widen = (s.vs.widen && (c == s.vs.lastComp)) ∧
            mag = if widen then min (2 * s.vs.step.natAbs) s.cfg.vbusFullStep
              else max (s.vs.step.natAbs / 2) 1) ∧
          ((code.toNat : Int) = max 0 (min ((base.toNat : Int) + (if c then (mag : Int) else -mag))
            ((s.cfg.vbusMaxCode : Int) - 1))) ∧
          t.trace = s.trace ++ [.read s.cfg.regStatus0 1 (some [b]), pause,
            .write s.cfg.regMeasure [s.cfg.measureVbus ||| code.setWidth 8] ok, pause] ∧
          t.chip.rxFifo = s.chip.rxFifo ++ d1.arrive ++ d2.arrive ∧
          t.chip.txFifo = (s.chip.txFifo.drop d1.drain).drop d2.drain ∧
          (ok = true →
            t.vs = { last := some code, step := if c then (mag : Int) else -mag,
                     widen := widen, lastComp := c } ∧
            t.chip.regs.read s.cfg.regMeasure.toNat = some (s.cfg.measureVbus ||| code.setWidth 8) ∧
            (conv → t.result = .vbus (some (((if 0 < s.vs.step then base.toNat else base.toNat + 1) +
              s.cfg.vbusCodeBias) * s.cfg.vbusMvPerCount))) ∧
            (¬ conv → t.result = .vbus none)) ∧
          (ok = false → t.vs = s.vs ∧ t.result = .vbus none ∧
            t.chip.regs.read s.cfg.regMeasure.toNat = none))

/-- From a legal state a reported value is that of a code from 1 to `VBUS_MAX_CODE - 1` (R169). -/
def Obligations.VbusReportInRange : Prop :=
  ∀ (s t : State) (mv : Nat), s.Legal → exec .vbusstep s = .next t → t.result = .vbus (some mv) →
    ∃ code, 1 ≤ code ∧ code < s.cfg.vbusMaxCode ∧
      mv = (code + s.cfg.vbusCodeBias) * s.cfg.vbusMvPerCount

/-- Against a steady boundary, once converged, the written code alternates between `B - 1` and `B` and every
call reports the same value (R172 (b)). -/
def Obligations.SamplerSteadyAlternation : Prop :=
  ∀ (B : Nat) (s t u : State), s.cfg.Ok → 1 ≤ B → B < s.cfg.vbusMaxCode →
    s.vs.last.map BitVec.toNat = some B → s.vs.step = 1 → s.vs.lastComp = true →
    State.SteadyCall B s t → State.SteadyCall B t u →
    t.vs.last.map BitVec.toNat = some (B - 1) ∧ u.vs.last.map BitVec.toNat = some B ∧
    t.vs.step = -1 ∧ u.vs.step = 1 ∧ u.vs.lastComp = true ∧
    t.result = .vbus (some ((B + s.cfg.vbusCodeBias) * s.cfg.vbusMvPerCount)) ∧
    u.result = t.result

/-- From the power-on search state, against a steady boundary `B` from 1 to 63, nothing is reported before
call 7, and the first convergence, on call 7 or 8, reports the value of `B` (R172 (a)). The sampler's range
is that of R161: codes 0 to 63, full step 64. -/
def Obligations.SamplerFindsBoundary : Prop :=
  ∀ (B : Nat) (s : Fin 9 → State), 1 ≤ B → B ≤ 63 →
    (s 0).cfg.Ok → (s 0).cfg.vbusMaxCode = 64 → (s 0).cfg.vbusFullStep = 64 →
    (s 0).vs = VbusSearch.reset (s 0).cfg →
    (∀ k : Fin 8, State.SteadyCall B (s k.castSucc) (s k.succ)) →
    let found : Result := .vbus (some ((B + (s 0).cfg.vbusCodeBias) * (s 0).cfg.vbusMvPerCount))
    (∀ k : Fin 9, 1 ≤ k.val → k.val ≤ 6 → (s k).result = .vbus none) ∧
    ((s 7).result = found ∨ (s 7).result = .vbus none ∧ (s 8).result = found)

/-! ## Sequencer -/

/-- `INIT` (R185): one abstract chip action; its outcome is the result; the block is unchanged. -/
def Obligations.InitReportsChipOutcome : Prop :=
  ∀ s : State, let d := s.nextDraw
    ∃ t, exec .init s = .next t ∧ s.SameBlock t ∧
      t.trace = s.trace ++ [.action .chipInit d.ok] ∧
      (d.ok = true → t.result = .ok) ∧
      (d.ok = false → t.result = .fail .ioRead ∨ t.result = .fail .ioWrite)

/-- `RESET` (R186): what it sets, and nothing else: no transaction, the sampler untouched. -/
def Obligations.ResetClearsSequencer : Prop :=
  ∀ s : State, exec .reset s = .next { s with
    seq := { nstate := .start, msgid := 0, caplist := s.seq.caplist, capcount := 0, reqcap := 0, curcap := 0,
             pwrstable := false, srccapseen := false, ccpin := none, ccmeas := .cc1, ccsaved := none,
             tsettle := s.seq.tsettle, twait := s.seq.twait }
    result := .none }

/-- `UPDATE` in state Start (R188): to DetectCc when `INIT` and the CC1 measurement succeed, with the clock
value of that moment; else nothing of the block changes. -/
def Obligations.UpdateInStart : Prop :=
  ∀ s : State, s.seq.nstate = .start →
    let d1 := s.nextDraw
    let d2 := s.takeDraw.nextDraw
    let d3 := s.takeDraw.takeDraw.nextDraw
    ∃ t, exec .update s = .next t ∧ t.cfg = s.cfg ∧ t.vs = s.vs ∧ t.port = s.port ∧ t.wire = s.wire ∧
      t.loop = s.loop ∧ t.result = .state t.seq.nstate ∧
      (d1.ok = false → t.seq = s.seq ∧ t.trace = s.trace ++ [.action .chipInit false]) ∧
      (d1.ok = true → d2.ok = false → t.seq = s.seq ∧
        t.trace = s.trace ++ [.action .chipInit true, .action (.ccMeasureStart .cc1) false]) ∧
      (d1.ok = true → d2.ok = true →
        let now := (s.env.clock + d3.elapsed) % 2 ^ s.cfg.clockWidth
        t.seq = { s.seq with nstate := .detectCc, ccmeas := .cc1, ccsaved := none, tsettle := now } ∧
        t.trace = s.trace ++ [.action .chipInit true, .action (.ccMeasureStart .cc1) true, .now now])

/-- `UPDATE` in state DetectCc (R189): before the settle time the clock reading is all the tick does; when the
level read fails nothing changes; a different saved level decides the pin; otherwise, if the other pin's
measurement starts, this level is saved. With the calls each case makes, in order. -/
def Obligations.UpdateInDetectCc : Prop :=
  ∀ s : State, s.seq.nstate = .detectCc → s.seq.tsettle < 2 ^ s.cfg.clockWidth →
    let d1 := s.nextDraw
    let d2 := s.takeDraw.nextDraw
    let d3 := s.takeDraw.takeDraw.nextDraw
    let d4 := s.takeDraw.takeDraw.takeDraw.nextDraw
    let now := (s.env.clock + d1.elapsed) % 2 ^ s.cfg.clockWidth
    let later := (s.env.clock + d1.elapsed + d4.elapsed) % 2 ^ s.cfg.clockWidth
    let settled := s.cfg.tCcSettleMs ≤ (now + 2 ^ s.cfg.clockWidth - s.seq.tsettle) % 2 ^ s.cfg.clockWidth
    let other : CcPin := if s.seq.ccmeas = .cc1 then .cc2 else .cc1
    ∃ t, exec .update s = .next t ∧ t.cfg = s.cfg ∧ t.vs = s.vs ∧ t.port = s.port ∧ t.wire = s.wire ∧
      t.loop = s.loop ∧ t.result = .state t.seq.nstate ∧
      (¬ settled → t.seq = s.seq ∧ t.trace = s.trace ++ [.now now]) ∧
      (settled → d2.ok = false → t.seq = s.seq ∧ t.trace = s.trace ++ [.now now, .level none]) ∧
      (settled → d2.ok = true → ∀ saved, s.seq.ccsaved = some saved → saved ≠ d2.level →
        t.seq = { s.seq with
          ccpin := some (if saved < d2.level then s.seq.ccmeas else other), nstate := .enableTransceiver } ∧
        t.trace = s.trace ++ [.now now, .level (some d2.level)]) ∧
      (settled → d2.ok = true → (s.seq.ccsaved = none ∨ s.seq.ccsaved = some d2.level) →
        (d3.ok = false → t.seq = s.seq ∧ t.trace = s.trace ++ [.now now, .level (some d2.level),
          .action (.ccMeasureStart other) false]) ∧
        (d3.ok = true →
          t.seq = { s.seq with ccsaved := some d2.level, ccmeas := other, tsettle := later } ∧
          t.trace = s.trace ++ [.now now, .level (some d2.level), .action (.ccMeasureStart other) true,
            .now later]))

/-- Two settled ticks of DetectCc with two different levels reach EnableTransceiver with the pin of the
higher level (R189, the source's §8 property). -/
def Obligations.TwoDetectTicksPickHigherPin : Prop :=
  ∀ (s : State) (c1 v1 m1 n1 c2 v2 : Draw) (script : List Draw),
    s.seq.nstate = .detectCc → s.seq.ccmeas = .cc1 → s.seq.ccsaved = none →
    s.env.script = c1 :: v1 :: m1 :: n1 :: c2 :: v2 :: script →
    v1.ok = true → m1.ok = true → v2.ok = true → v1.level ≠ v2.level →
    s.cfg.tCcSettleMs ≤ elapsedMs s.cfg ((s.env.clock + c1.elapsed) % 2 ^ s.cfg.clockWidth) s.seq.tsettle →
    s.cfg.tCcSettleMs ≤ c2.elapsed → c2.elapsed < 2 ^ s.cfg.clockWidth →
    ∃ t u, exec .update s = .next t ∧ exec .update t = .next u ∧
      t.seq.nstate = .detectCc ∧ u.seq.nstate = .enableTransceiver ∧
      u.seq.ccpin = some (if v2.level < v1.level then .cc1 else .cc2)

/-- `UPDATE` in state EnableTransceiver (R191), with its pin. -/
def Obligations.UpdateInEnableTransceiver : Prop :=
  ∀ (s : State) (pin : CcPin), s.seq.nstate = .enableTransceiver → s.seq.ccpin = some pin →
    let d1 := s.nextDraw
    let now := (s.env.clock + s.takeDraw.nextDraw.elapsed) % 2 ^ s.cfg.clockWidth
    ∃ t, exec .update s = .next t ∧ t.cfg = s.cfg ∧ t.vs = s.vs ∧ t.port = s.port ∧ t.wire = s.wire ∧
      t.loop = s.loop ∧ t.result = .state t.seq.nstate ∧
      (d1.ok = false → t.seq = s.seq ∧ t.trace = s.trace ++ [.action (.transceiverEnable pin) false]) ∧
      (d1.ok = true →
        t.seq = { s.seq with nstate := .waitSourceCapabilities, twait := now } ∧
        t.trace = s.trace ++ [.action (.transceiverEnable pin) true, .now now])

/-- `UPDATE` in state WaitSourceCapabilities with no message read, because the status read fails or shows the
FIFO empty (R192, R190): back to EnableTransceiver exactly when more than the timeout has passed since the
state was entered, and nothing else of the sequencer changes (R212). That the timeout is tested after a failed
status read too is the model's choice (R204's last row and R219 say that the state does not advance): log entry
31. -/
def Obligations.UpdateWaitTimesOut : Prop :=
  ∀ s : State, s.seq.nstate = .waitSourceCapabilities → s.seq.twait < 2 ^ s.cfg.clockWidth →
    let r := regRead s.cfg.regStatus1 1 s
    let now := (s.env.clock + s.takeDraw.nextDraw.elapsed) % 2 ^ s.cfg.clockWidth
    let elapsed := (now + 2 ^ s.cfg.clockWidth - s.seq.twait) % 2 ^ s.cfg.clockWidth
    (r.1 = none ∨ ∃ b, r.1 = some [b] ∧ b &&& s.cfg.status1RxEmpty ≠ 0) →
    ∃ t, exec .update s = .next t ∧ t.cfg = s.cfg ∧ t.vs = s.vs ∧ t.loop = none ∧
      t.trace = s.trace ++ [.read s.cfg.regStatus1 1 r.1, .delay s.cfg.tXactDelayUs, .now now] ∧
      (s.cfg.tSrccapTimeoutMs < elapsed →
        t.seq = { s.seq with nstate := .enableTransceiver } ∧ t.result = .state .enableTransceiver) ∧
      (elapsed ≤ s.cfg.tSrccapTimeoutMs →
        t.seq = s.seq ∧ t.result = .state .waitSourceCapabilities)

/-- `UPDATE` in state Connected with one control message in the FIFO (R193, R195 to R198): Accept, Reject,
PS-Ready have their effect, every other control type has none; the frame is out of the FIFO. A control message
is one that counts no objects (R82, the spec's decision D7). -/
def Obligations.UpdateAppliesControlMessage : Prop :=
  ∀ (s : State) (d1 d2 d3 d4 : Draw) (script : List Draw) (b1 b4 sop lo hi c0 c1 c2 c3 : Byte)
    (queue : List Byte) (type : BitVec 5),
    s.cfg.Ok → s.seq.nstate = .connected → s.env.script = d1 :: d2 :: d3 :: d4 :: script →
    d1.ok = true → d2.ok = true → d3.ok = true → d4.ok = true →
    d1.data = [b1] → b1 &&& s.cfg.status1RxEmpty = 0 →
    d4.data = [b4] → b4 &&& s.cfg.status1RxEmpty ≠ 0 →
    s.chip.rxFifo = sop :: lo :: hi :: c0 :: c1 :: c2 :: c3 :: queue →
    sop &&& s.cfg.rxSopMask = s.cfg.rxSopTag → hi.toNat / 16 % 8 = 0 → type.toNat = lo.toNat % 32 →
    ∃ t, exec .update s = .next t ∧ t.cfg = s.cfg ∧ t.vs = s.vs ∧ t.loop = none ∧
      t.result = .state .connected ∧
      (type = s.cfg.ctrlAccept → t.seq = { s.seq with curcap := s.seq.reqcap }) ∧
      (type = s.cfg.ctrlReject → t.seq = { s.seq with reqcap := s.seq.curcap }) ∧
      (type = s.cfg.ctrlPsRdy → t.seq = { s.seq with pwrstable := true }) ∧
      (type ≠ s.cfg.ctrlAccept → type ≠ s.cfg.ctrlReject → type ≠ s.cfg.ctrlPsRdy → t.seq = s.seq) ∧
      t.chip.rxFifo = queue ++ d1.arrive ++ d2.arrive ++ d3.arrive ++ d4.arrive

/-- `UPDATE` in state WaitSourceCapabilities with the first Source Capabilities message since reset in the
FIFO (R192, R194, the source's §8 property): the list is stored, the marker is set, a Request for capability
1 at its advertised current is written; its success or failure decides the Request's state, and the
sequencer goes to Connected either way (R260). -/
def Obligations.UpdateFirstSourceCapabilities : Prop :=
  ∀ (s : State) (d1 d2 d3 dw d4 : Draw) (script : List Draw) (b1 b4 sop lo hi c0 c1 c2 c3 : Byte)
    (queue : List Byte) (first : Word) (others : List Word),
    let objects := first :: others
    s.cfg.Ok → s.seq.nstate = .waitSourceCapabilities → s.seq.srccapseen = false →
    s.env.script = d1 :: d2 :: d3 :: dw :: d4 :: script →
    d1.ok = true → d2.ok = true → d3.ok = true → d4.ok = true →
    d1.data = [b1] → b1 &&& s.cfg.status1RxEmpty = 0 →
    d4.data = [b4] → b4 &&& s.cfg.status1RxEmpty ≠ 0 →
    s.chip.rxFifo = sop :: lo :: hi :: (objects.flatMap le32 ++ [c0, c1, c2, c3] ++ queue) →
    sop &&& s.cfg.rxSopMask = s.cfg.rxSopTag →
    hi.toNat / 16 % 8 = objects.length → lo.toNat % 32 = s.cfg.dataSourceCap.toNat →
    ∃ (t : State) (header : Half) (object : Word), exec .update s = .next t ∧
      t.result = .state .connected ∧ t.loop = none ∧ t.vs = s.vs ∧
      t.seq.nstate = .connected ∧ t.seq.srccapseen = true ∧
      t.seq.capcount.val = objects.length ∧ t.seq.caplist.toList.take objects.length = objects ∧
      header.toNat = 4096 + s.seq.msgid.toNat * 512 + s.cfg.roleSink.toNat * 256 +
        s.cfg.specRev20.toNat * 64 + s.cfg.roleUfp.toNat * 32 + s.cfg.dataRequest.toNat ∧
      object.toNat = 2 ^ 28 + 2 ^ 24 + first.toNat % 1024 * 1024 + first.toNat % 1024 ∧
      .write s.cfg.regFifo (encode s.cfg (.txFrame header [object])) dw.ok ∈ t.trace ∧
      (dw.ok = true → t.seq.reqcap = 1 ∧ t.seq.pwrstable = false ∧ t.seq.msgid = s.seq.msgid + 1) ∧
      (dw.ok = false →
        t.seq.reqcap = s.seq.reqcap ∧ t.seq.pwrstable = s.seq.pwrstable ∧ t.seq.msgid = s.seq.msgid) ∧
      t.seq.curcap = s.seq.curcap ∧ t.seq.ccpin = s.seq.ccpin

/-- `PROCMSG` on a later Source Capabilities message (R194): the list is replaced, nothing is requested, no
write is issued, and `saw` is true (R190). -/
def Obligations.ProcmsgLaterSourceCapabilities : Prop :=
  ∀ (s : State) (d1 d2 d3 d4 : Draw) (script : List Draw) (b1 b4 sop lo hi c0 c1 c2 c3 : Byte)
    (queue : List Byte) (objects : List Word),
    s.cfg.Ok → s.loop = none → s.seq.srccapseen = true → objects ≠ [] →
    s.env.script = d1 :: d2 :: d3 :: d4 :: script →
    d1.ok = true → d2.ok = true → d3.ok = true → d4.ok = true →
    d1.data = [b1] → b1 &&& s.cfg.status1RxEmpty = 0 →
    d4.data = [b4] → b4 &&& s.cfg.status1RxEmpty ≠ 0 →
    s.chip.rxFifo = sop :: lo :: hi :: (objects.flatMap le32 ++ [c0, c1, c2, c3] ++ queue) →
    sop &&& s.cfg.rxSopMask = s.cfg.rxSopTag →
    hi.toNat / 16 % 8 = objects.length → lo.toNat % 32 = s.cfg.dataSourceCap.toNat →
    ∃ (t : State) (list : Vector Word 8) (count : Fin 9), exec .procmsg s = .next t ∧
      t.result = .saw true ∧ t.loop = none ∧ t.vs = s.vs ∧
      t.seq = { s.seq with caplist := list, capcount := count } ∧
      count.val = objects.length ∧ list.toList.take objects.length = objects ∧
      ∃ bytes, t.trace = s.trace ++ [.read s.cfg.regStatus1 1 (some [b1]), .delay s.cfg.tXactDelayUs,
        .read s.cfg.regFifo 3 (some [sop, lo, hi]), .delay s.cfg.tXactDelayUs,
        .read s.cfg.regFifo (4 * objects.length + 4) (some bytes), .delay s.cfg.tXactDelayUs,
        .read s.cfg.regStatus1 1 (some [b4]), .delay s.cfg.tXactDelayUs]

/-- `REQCAP` in its domain (R199): one write of a Request frame with the message id as it was; on success the
capability is requested, the power not stable, the id advanced modulo 8; on failure the sequencer is
unchanged. That the write changes no register of the chip is the model's choice: log entry 30. -/
def Obligations.RequestSendsAndCommits : Prop :=
  ∀ (index : BitVec 3) (currentMa : Nat) (s : State), index ≠ 0 → currentMa ≤ 10239 →
    let d := s.nextDraw
    ∃ (t : State) (header : Half) (object : Word), exec (.reqcap index currentMa) s = .next t ∧
      header.toNat = 4096 + s.seq.msgid.toNat * 512 + s.cfg.roleSink.toNat * 256 +
        s.cfg.specRev20.toNat * 64 + s.cfg.roleUfp.toNat * 32 + s.cfg.dataRequest.toNat ∧
      object.toNat = index.toNat * 2 ^ 28 + 2 ^ 24 + currentMa / 10 * 1024 + currentMa / 10 ∧
      t.trace = s.trace ++ [.write s.cfg.regFifo (encode s.cfg (.txFrame header [object])) d.ok,
        .delay s.cfg.tXactDelayUs] ∧
      t.cfg = s.cfg ∧ t.vs = s.vs ∧ t.port = s.port ∧ t.wire = s.wire ∧ t.loop = s.loop ∧
      (∀ a, t.chip.regs.read a = s.chip.regs.read a) ∧
      (d.ok = true → t.result = .ok ∧
        t.seq = { s.seq with reqcap := index, pwrstable := false, msgid := s.seq.msgid + 1 }) ∧
      (d.ok = false → t.result = .fail .ioWrite ∧ t.seq = s.seq)

/-- The read-out operations (R200 to R203) return what the state holds and write nothing. -/
def Obligations.ReadOutsReturnState : Prop :=
  ∀ s : State,
    exec .getcaps s = .next { s with result := (.caps s.seq.capcount.val
      ((s.seq.caplist.toList.take s.seq.capcount.val).map unpackCapability)) } ∧
    exec .curcap s = .next { s with result := .index s.seq.curcap } ∧
    exec .pwrstable s = .next { s with result := .stable s.seq.pwrstable } ∧
    (∃ n, exec .getccpin s = .next { s with result := .pin n } ∧
      (s.seq.ccpin = none → n = 0) ∧ (s.seq.ccpin = some .cc1 → n = 1) ∧ (s.seq.ccpin = some .cc2 → n = 2))

/-! ## Promises of the whole machine -/

/-- Every change of `S.NSTATE`, by any step or instruction from any state, is in the table of R204; a change to
Start is `RESET`'s only; nothing but `RESET` leaves Connected; and only `UPDATE`, its message loop and `RESET`
change the state at all (R23, conflict C12). That a tick whose message loop ended at a failed read may still take a
row is the model's choice: log entry 31. Under what conditions a row is taken is said by the statements
about the ticks. -/
def Obligations.NstateFollowsTransferTable : Prop :=
  ∀ s t : State,
    (step s = .next t → mayGo s.seq.nstate t.seq.nstate = true) ∧
    (∀ i, exec i s = .next t → i ≠ .update → i ≠ .reset → i ≠ .procmsg →
      t.seq.nstate = s.seq.nstate) ∧
    (exec .procmsg s = .next t → s.loop = none → t.seq.nstate = s.seq.nstate) ∧
    (∀ i, exec i s = .next t → t.seq.nstate = .start → s.seq.nstate ≠ .start → i = .reset) ∧
    (∀ i, exec i s = .next t → s.seq.nstate = .connected → i ≠ .reset → t.seq.nstate = .connected) ∧
    (∀ i, exec i s = .next t → mayGo s.seq.nstate t.seq.nstate = true)

/-- The message id (R24): cleared by `RESET`; advanced by one, modulo 8, by a Request that went out, `REQCAP`'s
or the automatic one; never changed otherwise. -/
def Obligations.MessageIdMovesByOne : Prop :=
  ∀ (i : Instr) (s t : State), exec i s = .next t →
    (i = .reset → t.seq.msgid = 0) ∧
    (i ≠ .reset → t.seq.msgid = s.seq.msgid ∨
      t.seq.msgid = s.seq.msgid + 1 ∧
        ((∃ index ma, i = .reqcap index ma ∧ t.result = .ok) ∨
          ((i = .update ∨ i = .procmsg) ∧ s.seq.srccapseen = false ∧ t.seq.srccapseen = true)))

/-- Only `VBUSSTEP` moves the sampler's search (R27, R160, R173): no operation of the sequencer, `RESET`
among them, touches it, and `VBUSSTEP` touches nothing of the sequencer. -/
def Obligations.OnlyVbusstepMovesSearch : Prop :=
  ∀ (i : Instr) (s t : State), exec i s = .next t →
    (i ≠ .vbusstep → t.vs = s.vs) ∧ (i = .vbusstep → t.seq = s.seq)

/-- No step writes the parameters, takes back a recorded transaction or turns the host's clock back (R10, R51,
R62, R225). -/
def Obligations.StepTakesNothingBack : Prop :=
  ∀ s t : State, step s = .next t → s.Later t

/-- Every transaction is followed at once by the pause (R54), in every run from a record where that holds. -/
def Obligations.EveryTransactionIsPaused : Prop :=
  ∀ s t : State, Paused s.cfg.tXactDelayUs s.trace = true → step s = .next t →
    Paused t.cfg.tXactDelayUs t.trace = true

/-- The codec's operations (R120), the read-outs (R200 to R203) and the wire formats (log entry 3) change
nothing but the result: no state, no transaction, no reading of the clock. -/
def Obligations.CodecAndReadOutsArePure : Prop :=
  ∀ (i : Instr) (s t : State), exec i s = .next t →
    ((∃ op, opOf i = some op ∧ op ∈ [Op.packhdr, .unpackhdr, .unpackcap, .pack16le, .unpack16le, .pack32le,
      .unpack32le, .packreq, .getcaps, .curcap, .pwrstable, .getccpin]) ∨ (formatOf i).isSome = true) →
    t = { s with result := t.result }

/-- Cutting the message loop over steps does not show (R190, R255; where a step cuts it is the model's choice,
log entry 4; that `UPDATE` goes on to its exit test after a loop that a failed read ended, log entry 31). A step of
a machine with a loop in progress makes one pass or more of it: either the loop ends
there, as the uncut loop `LoopRuns` ends, and its caller goes on; or what is left stays in progress with the
same caller and with what was seen so far. So when the uncut loop ends, steps reach its end; and the same when
the loop starts in `UPDATE`, or in `PROCMSG` alone. -/
def Obligations.MessageLoopSplits : Prop :=
  (∀ (s : State) (l : Loop), s.loop = some l →
    ∃ t, step s = .next t ∧
      ((t.loop = none ∧ ∃ saw u, LoopRuns l.saw s saw u ∧ t = loopReturns l.caller saw u) ∨
        ∃ (m : Nat) (saw : Bool) (u : State), 1 ≤ m ∧ messageLoop m l.saw s = (.goesOn saw, u) ∧
          t = { u with loop := some { saw := saw, caller := l.caller } })) ∧
  (∀ (s u : State) (l : Loop) (saw : Bool), s.loop = some l → LoopRuns l.saw s saw u →
    ∃ k, Sys2Proof.core.run k s = .next (loopReturns l.caller saw u)) ∧
  (∀ (s u : State) (i : Instr) (caller : Caller) (saw : Bool), s.loop = none →
    (i = .procmsg ∧ caller = .procmsg) ∨ (i = .update ∧ caller = .update ∧
      (s.seq.nstate = .waitSourceCapabilities ∨ s.seq.nstate = .connected)) →
    LoopRuns false s saw u →
    ∃ t k, exec i s = .next t ∧ Sys2Proof.core.run k t = .next (loopReturns caller saw u))

/-! ## Wire formats -/

/-- `HEADER16` (R80): the value's bits, sent little-endian; what `UNPACKHDR` reads are its count, id and type.
That the row runs as a layout is the model's choice: log entry 3. -/
def Obligations.HeaderFormatLaysOut : Prop :=
  ∀ (n i : BitVec 3) (p : BitVec 1) (r : BitVec 2) (d : BitVec 1) (t : BitVec 5) (s : State),
    ∃ b0 b1 : Byte,
      exec (.header16 n i p r d t) s =
        .next { s with result := .wire [b0, b1] (.header { ndo := n, id := i, type := t }) } ∧
      b0.toNat + 256 * b1.toNat =
        n.toNat * 4096 + i.toNat * 512 + p.toNat * 256 + r.toNat * 64 + d.toNat * 32 + t.toNat

/-- `CAPABILITY32` and `REQUEST32` (R83, R86): the value's bits, little-endian; a capability reads back as its
fields, the ignored bits dropped. That the rows run as layouts is the model's choice: log entry 3. -/
def Obligations.ObjectFormatsLayOut : Prop :=
  (∀ (y : BitVec 2) (a b c e f g : BitVec 1) (x k : BitVec 2) (v m : BitVec 10) (s : State),
    ∃ b0 b1 b2 b3 : Byte,
      exec (.capability32 y a b c e f g x k v m) s = .next { s with result := (.wire [b0, b1, b2, b3]
        (.capability (Unpacked.mk y (a.getLsbD 0) (b.getLsbD 0) (c.getLsbD 0) (e.getLsbD 0) (f.getLsbD 0)
          (g.getLsbD 0) k (v.toNat * 50) (m.toNat * 10)))) } ∧
      b0.toNat + 256 * b1.toNat + 65536 * b2.toNat + 16777216 * b3.toNat =
        y.toNat * 2 ^ 30 + a.toNat * 2 ^ 29 + b.toNat * 2 ^ 28 + c.toNat * 2 ^ 27 + e.toNat * 2 ^ 26 +
          f.toNat * 2 ^ 25 + g.toNat * 2 ^ 24 + x.toNat * 2 ^ 22 + k.toNat * 2 ^ 20 + v.toNat * 2 ^ 10 +
          m.toNat) ∧
  (∀ (i : BitVec 3) (o m : BitVec 10) (s : State),
    ∃ b0 b1 b2 b3 : Byte,
      exec (.request32 i o m) s = .next { s with result := .wire [b0, b1, b2, b3] .notRead } ∧
      b0.toNat + 256 * b1.toNat + 65536 * b2.toNat + 16777216 * b3.toNat =
        i.toNat * 2 ^ 28 + 2 ^ 24 + o.toNat * 2 ^ 10 + m.toNat)

/-- `TX_PACKSYM`, `RX_SOP`, `MEASURE8` (R90, R92, R95): tag or flag bits over the value's low bits; a
start-of-frame byte with the tag passes the test whatever its low bits. That the rows run as layouts is the
model's choice: log entry 3. -/
def Obligations.ByteFormatsLayOut : Prop :=
  ∀ (n x : BitVec 5) (code : BitVec 6) (s : State), s.cfg.Ok →
    ∃ sym sop meas : Byte,
      exec (.txPacksym n) s = .next { s with result := .wire [sym] .notRead } ∧
      exec (.rxSop x) s = .next { s with result := .wire [sop] (.sop true) } ∧
      exec (.measure8 code) s = .next { s with result := .wire [meas] .notRead } ∧
      sym.toNat = s.cfg.tokPacksym.toNat + n.toNat ∧
      sop.toNat = s.cfg.rxSopTag.toNat + x.toNat ∧
      meas.toNat = s.cfg.measureVbus.toNat + code.toNat

/-- `TX_FRAME` and `RX_FRAME` (R88, R91, R94): the frame `WRMSG` writes, and the stream `RDFRAME` reads, whose
payload is what it delivers, the CRC dropped. That the rows run as layouts is the model's choice: log
entry 3. -/
def Obligations.FrameFormatsLayOut : Prop :=
  ∀ (header : Half) (objects : List Word) (x : BitVec 5) (c0 c1 c2 c3 : Byte) (s : State),
    let payload := [header.extractLsb' 0 8, header.extractLsb' 8 8] ++ objects.flatMap (fun w =>
      [w.extractLsb' 0 8, w.extractLsb' 8 8, w.extractLsb' 16 8, w.extractLsb' 24 8])
    (objects.length ≤ 7 → exec (.txFrame header objects) s = .next { s with
      result := (.wire ([s.cfg.tokSync1, s.cfg.tokSync1, s.cfg.tokSync1, s.cfg.tokSync2,
        s.cfg.tokPacksym ||| BitVec.ofNat 8 (2 + 4 * objects.length)] ++ payload ++
        [s.cfg.tokJamCrc, s.cfg.tokEop, s.cfg.tokTxOff, s.cfg.tokTxOn]) .notRead) }) ∧
    (header.toNat / 4096 % 8 = objects.length → exec (.rxFrame x header objects c0 c1 c2 c3) s = .next { s with
      result := (.wire ((s.cfg.rxSopTag ||| x.setWidth 8) :: (payload ++ [c0, c1, c2, c3]))
        (.payload payload)) })

/-! ## One pass of the message loop -/

/-- One pass of the message loop, from every state (R190): a failed status read, the empty bit, or a frame that
could not be read ends the loop, with nothing done beyond those reads (R213); a control message (no objects:
R82, the spec's decision D7) has the effect of its type (R195 to R198); a data message that is not Source
Capabilities has none (R198); Source Capabilities are stored (R194), and seen; with the first since reset one
Request for capability 1 at its advertised current is written, and committed only if the write succeeds (R199,
R260). -/
def Obligations.MessagePassOutcomes : Prop :=
  ∀ s : State, s.cfg.Ok →
    let c := s.cfg
    let r := regRead c.regStatus1 1 s
    let q := readNextFrame r.2
    (r.1 = none → messagePass s = (none, r.2)) ∧
    (∀ b, r.1 = some [b] → b &&& c.status1RxEmpty ≠ 0 → messagePass s = (none, r.2)) ∧
    (∀ b, r.1 = some [b] → b &&& c.status1RxEmpty = 0 →
      (∀ cause, q.1 = .error cause → messagePass s = (none, q.2)) ∧
      (∀ f, q.1 = .ok f →
        let ndo := f.header.toNat / 4096 % 8
        let type := f.header.extractLsb' 0 5
        (ndo = 0 →
          (type = c.ctrlAccept →
            messagePass s = (some false, { q.2 with seq := { s.seq with curcap := s.seq.reqcap } })) ∧
          (type = c.ctrlReject →
            messagePass s = (some false, { q.2 with seq := { s.seq with reqcap := s.seq.curcap } })) ∧
          (type = c.ctrlPsRdy →
            messagePass s = (some false, { q.2 with seq := { s.seq with pwrstable := true } })) ∧
          (type ≠ c.ctrlAccept → type ≠ c.ctrlReject → type ≠ c.ctrlPsRdy →
            messagePass s = (some false, q.2))) ∧
        (ndo ≠ 0 → type ≠ c.dataSourceCap → messagePass s = (some false, q.2)) ∧
        (ndo ≠ 0 → type = c.dataSourceCap →
          ∃ t, messagePass s = (some true, t) ∧ t.cfg = c ∧ t.vs = s.vs ∧ t.loop = s.loop ∧
            t.seq.capcount.val = ndo ∧ (t.seq.caplist.toList.take ndo).flatMap le32 = f.data ∧
            let stored := { s.seq with
              caplist := t.seq.caplist, capcount := t.seq.capcount, srccapseen := true }
            (s.seq.srccapseen = true → t.trace = q.2.trace ∧ t.chip = q.2.chip ∧ t.seq = stored) ∧
            (s.seq.srccapseen = false → ∃ (header : Half) (object : Word),
              header.toNat = 4096 + s.seq.msgid.toNat * 512 + c.roleSink.toNat * 256 +
                c.specRev20.toNat * 64 + c.roleUfp.toNat * 32 + c.dataRequest.toNat ∧
              object.toNat = 2 ^ 28 + 2 ^ 24 + t.seq.caplist[0].toNat % 1024 * 1024 +
                t.seq.caplist[0].toNat % 1024 ∧
              t.trace = q.2.trace ++ [.write c.regFifo (encode c (.txFrame header [object]))
                q.2.nextDraw.ok, .delay c.tXactDelayUs] ∧
              t.seq = if q.2.nextDraw.ok
                then { stored with reqcap := 1, pwrstable := false, msgid := s.seq.msgid + 1 }
                else stored))))

/-- `UPDATE` in Connected or WaitSourceCapabilities with one message in the FIFO that is not Source Capabilities
(R190, R192, R193, R195 to R198): a control message (no objects: R82, D7) has the effect of its type, a data
message none; the frame is out of the FIFO. In Connected that is all; in WaitSourceCapabilities the timeout is
tested after it. -/
def Obligations.UpdateAppliesOtherMessage : Prop :=
  ∀ (s : State) (d1 d2 d3 d4 : Draw) (script : List Draw) (b1 b4 sop lo hi : Byte) (body queue : List Byte),
    let c := s.cfg
    let ndo := hi.toNat / 16 % 8
    let type : BitVec 5 := lo.extractLsb' 0 5
    c.Ok → s.env.script = d1 :: d2 :: d3 :: d4 :: script →
    d1.ok = true → d2.ok = true → d3.ok = true → d4.ok = true →
    d1.data = [b1] → b1 &&& c.status1RxEmpty = 0 → d4.data = [b4] → b4 &&& c.status1RxEmpty ≠ 0 →
    s.chip.rxFifo = sop :: lo :: hi :: (body ++ queue) → body.length = 4 * ndo + 4 →
    sop &&& c.rxSopMask = c.rxSopTag → (ndo = 0 ∨ type ≠ c.dataSourceCap) →
    let q := s.seq
    let applied : Sequencer :=
      if ndo ≠ 0 then q
      else if type = c.ctrlAccept then { q with curcap := q.reqcap }
      else if type = c.ctrlReject then { q with reqcap := q.curcap }
      else if type = c.ctrlPsRdy then { q with pwrstable := true }
      else q
    let d5 := script.headD (Config.environment (s.env.draws + 4))
    let now := (s.env.clock + d5.elapsed) % 2 ^ c.clockWidth
    let elapsed := (now + 2 ^ c.clockWidth - q.twait) % 2 ^ c.clockWidth
    let left := queue ++ d1.arrive ++ d2.arrive ++ d3.arrive ++ d4.arrive
    (q.nstate = .connected →
      ∃ t, exec .update s = .next t ∧ t.cfg = c ∧ t.vs = s.vs ∧ t.loop = none ∧
        t.seq = applied ∧ t.result = .state .connected ∧ t.chip.rxFifo = left) ∧
    (q.nstate = .waitSourceCapabilities → q.twait < 2 ^ c.clockWidth →
      ∃ t, exec .update s = .next t ∧ t.cfg = c ∧ t.vs = s.vs ∧ t.loop = none ∧
        t.seq = { applied with nstate := if c.tSrccapTimeoutMs < elapsed then .enableTransceiver
                                         else .waitSourceCapabilities } ∧
        t.result = .state t.seq.nstate ∧ t.chip.rxFifo = left ++ d5.arrive)

/-- `UPDATE` in Connected or WaitSourceCapabilities when the status read shows a frame and `RDFRAME` then fails,
by a failed read or a start-of-frame mismatch (R190, R213): the loop ends there, with the chip as `RDFRAME` left
it. In Connected nothing of the sequencer changes; in WaitSourceCapabilities the timeout is tested, which after a
failure is the model's choice (R204's last row and R219 say that the state does not advance): log entry 31. -/
def Obligations.UpdateEndsAtUnreadFrame : Prop :=
  ∀ (s u : State) (b : Byte) (buf free : List Byte) (cause : Cause),
    let c := s.cfg
    let r := regRead c.regStatus1 1 s
    r.1 = some [b] → b &&& c.status1RxEmpty = 0 → 30 ≤ buf.length →
    exec (.rdframe buf) r.2 = .next u → u.result = .noFrame cause free →
    let now := (s.env.clock + u.nextDraw.elapsed) % 2 ^ c.clockWidth
    let elapsed := (now + 2 ^ c.clockWidth - s.seq.twait) % 2 ^ c.clockWidth
    (s.seq.nstate = .connected →
      exec .update s = .next { u with loop := none, result := .state .connected }) ∧
    (s.seq.nstate = .waitSourceCapabilities → s.seq.twait < 2 ^ c.clockWidth →
      ∃ t, exec .update s = .next t ∧ t.cfg = c ∧ t.vs = s.vs ∧ t.loop = none ∧
        t.seq = { s.seq with nstate := if c.tSrccapTimeoutMs < elapsed then .enableTransceiver
                                       else .waitSourceCapabilities } ∧
        t.result = .state t.seq.nstate ∧ t.trace = u.trace ++ [.now now] ∧
        t.chip.rxFifo = u.chip.rxFifo ++ u.nextDraw.arrive)
end

