-- ==== Sys2Proof/Laws/Codec.lean ====
section
/-!
SUPPORT. What each piece of the decoder finds in the bytes the encoder wrote, and the byte order's round
trips. Proofs about decoding cite these and unfold neither.
-/

namespace Sys2Proof

/-! ## Byte order -/

theorem fromLe16_le16 (v : Half) : fromLe16 (v.extractLsb' 0 8) (v.extractLsb' 8 8) = v := by
  unfold fromLe16
  apply BitVec.eq_of_getLsbD_eq
  intro i hi
  interval_cases i <;> simp

theorem fromLe32_le32 (v : Word) :
    fromLe32 (v.extractLsb' 0 8) (v.extractLsb' 8 8) (v.extractLsb' 16 8) (v.extractLsb' 24 8) = v := by
  unfold fromLe32
  apply BitVec.eq_of_getLsbD_eq
  intro i hi
  interval_cases i <;> simp

theorem fromLe16_toNat (b0 b1 : Byte) : (fromLe16 b0 b1).toNat = b0.toNat + 256 * b1.toNat := by
  have h1 := b0.isLt
  have h2 := b1.isLt
  unfold fromLe16
  rw [BitVec.toNat_or, BitVec.toNat_shiftLeft, BitVec.toNat_setWidth, BitVec.toNat_setWidth, Nat.or_comm,
    Nat.mod_eq_of_lt (by omega : b0.toNat < 2 ^ 16), Nat.mod_eq_of_lt (by omega : b1.toNat < 2 ^ 16),
    Nat.mod_eq_of_lt (by rw [Nat.shiftLeft_eq]; omega), ← Nat.shiftLeft_add_eq_or_of_lt (by omega),
    Nat.shiftLeft_eq]
  omega

theorem fromLe16_ndo (b0 b1 : Byte) : (headerFields (fromLe16 b0 b1)).ndo.toNat = b1.toNat / 16 % 8 := by
  have h := b0.isLt
  simp only [headerFields, BitVec.extractLsb'_toNat, fromLe16_toNat, Nat.shiftRight_eq_div_pow]
  omega

theorem fromLe16_type (b0 b1 : Byte) : (headerFields (fromLe16 b0 b1)).type.toNat = b0.toNat % 32 := by
  simp only [headerFields, BitVec.extractLsb'_toNat, fromLe16_toNat, Nat.shiftRight_eq_div_pow]
  omega

/-- Data objects laid out and read back (R91). -/
theorem wordsOf_flatMap_le32 (ws : List Word) : wordsOf (ws.flatMap le32) = ws := by
  induction ws with
  | nil => rfl
  | cons w t ih => simpa [List.flatMap_cons, le32, wordsOf, fromLe32_le32] using ih

theorem le32_fromLe32 (b0 b1 b2 b3 : Byte) : le32 (fromLe32 b0 b1 b2 b3) = [b0, b1, b2, b3] := by
  unfold le32 fromLe32
  simp only [List.cons.injEq, and_true]
  refine ⟨?_, ?_, ?_, ?_⟩ <;>
    (apply BitVec.eq_of_getLsbD_eq; intro i hi; interval_cases i <;> simp)

/-- As many whole words as the bytes hold, and their bytes are those bytes. -/
theorem wordsOf_bytes : ∀ {n : Nat} {bs : List Byte}, bs.length = 4 * n →
    (wordsOf bs).length = n ∧ (wordsOf bs).flatMap le32 = bs
  | 0, [], _ => ⟨rfl, rfl⟩
  | 0, _ :: _, h => by simp at h
  | _ + 1, [], h => by simp at h
  | _ + 1, [_], h => by simp at h; omega
  | _ + 1, [_, _], h => by simp at h; omega
  | _ + 1, [_, _, _], h => by simp at h; omega
  | n + 1, b0 :: b1 :: b2 :: b3 :: t, h => by
    simp only [List.length_cons] at h
    obtain ⟨h1, h2⟩ := wordsOf_bytes (n := n) (bs := t) (by omega)
    exact ⟨by simp [wordsOf, h1], by simp only [wordsOf, List.flatMap_cons, h2, le32_fromLe32]; rfl⟩

theorem length_flatMap_le32 (ws : List Word) : (ws.flatMap le32).length = 4 * ws.length := by
  induction ws with
  | nil => rfl
  | cons w t ih => simp only [List.flatMap_cons, List.length_append, ih, le32, List.length_cons,
      List.length_nil]; omega

/-! ## Operands -/

theorem takeField_setWidth {w : Nat} (hw : w ≤ 8) (x : BitVec w) (why : Rejection) (t : List Byte) :
    takeField w why (x.setWidth 8 :: t) = .ok (x, t) := by
  have h1 := x.isLt
  have h2 : 2 ^ w ≤ 2 ^ 8 := Nat.pow_le_pow_right (by omega) hw
  have h3 : (x.setWidth 8).toNat = x.toNat := by simp; omega
  simp only [takeField, h3, h1, if_true]
  congr 2
  apply BitVec.eq_of_toNat_eq
  rw [BitVec.toNat_setWidth, h3, Nat.mod_eq_of_lt h1]

theorem takeOptField_put {w : Nat} (hw : w ≤ 7) (x : Option (BitVec w)) (why : Rejection) (t : List Byte) :
    takeOptField w why (putOptField x :: t) = .ok (x, t) := by
  rcases x with _ | x
  · rfl
  · have h1 := x.isLt
    have h2 : 2 ^ w ≤ 2 ^ 7 := Nat.pow_le_pow_right (by omega) hw
    have h3 : (putOptField (some x)).toNat = x.toNat + 1 := by simp [putOptField]; omega
    have h4 : putOptField (some x) ≠ 0 := fun h => by
      have := congrArg BitVec.toNat h
      rw [h3] at this
      simp at this
    simp only [takeOptField, h3]
    rw [if_neg h4, if_pos (by omega)]
    simp

theorem takeCount_put (n : Nat) (rest : List Byte) : takeCount (putCount n ++ rest) = .ok (n, rest) := by
  have key : ∀ k r, r < 255 →
      takeCount (List.replicate k 255 ++ [BitVec.ofNat 8 r] ++ rest) = .ok (255 * k + r, rest) := by
    intro k r hr
    induction k with
    | zero =>
      have h1 : (BitVec.ofNat 8 r).toNat = r := by simp; omega
      have h2 : BitVec.ofNat 8 r ≠ 255#8 := fun h => by
        have := congrArg BitVec.toNat h
        rw [h1] at this
        simp at this
        omega
      have h3 : r % 256 = r := by omega
      simp [takeCount, h2, h3]
    | succ k ih =>
      simp only [List.replicate_succ, List.cons_append, takeCount, if_true, ih]
      congr 2
      omega
  unfold putCount
  rw [key _ _ (Nat.mod_lt _ (by omega))]
  congr 2
  omega

theorem takeBytes_append (bs rest : List Byte) : takeBytes bs.length (bs ++ rest) = .ok (bs, rest) := by
  induction bs with
  | nil => rfl
  | cons b t ih => simp [takeBytes, ih]

theorem takeHalf_le16 (v : Half) (t : List Byte) : takeHalf (le16 v ++ t) = .ok (v, t) := by
  simp [takeHalf, le16, fromLe16_le16]

theorem takeWord_le32 (v : Word) (t : List Byte) : takeWord (le32 v ++ t) = .ok (v, t) := by
  simp [takeWord, le32, fromLe32_le32]

theorem takeWords_flatMap (ws : List Word) (rest : List Byte) :
    takeWords ws.length (ws.flatMap le32 ++ rest) = .ok (ws, rest) := by
  induction ws with
  | nil => rfl
  | cons w t ih =>
    simp only [List.flatMap_cons, List.append_assoc, List.length_cons, takeWords, takeWord_le32, ih]

theorem takeRequest_put {index : BitVec 3} {currentMa : Nat} (h1 : index ≠ 0) (h2 : currentMa ≤ 10239)
    (t : List Byte) : takeRequest (putRequest index currentMa ++ t) = .ok ((index, currentMa), t) := by
  have hi := index.isLt
  have h0 : index.toNat ≠ 0 := fun h => h1 (BitVec.eq_of_toNat_eq (by simpa using h))
  have e1 : (BitVec.ofNat 8 (index.toNat - 1)).toNat = index.toNat - 1 := by simp; omega
  have e2 : (BitVec.ofNat 16 currentMa).toNat = currentMa := by simp; omega
  have e3 : BitVec.ofNat 3 (index.toNat - 1 + 1) = index := by
    apply BitVec.eq_of_toNat_eq
    simp
    omega
  have field : takeField 8 .capabilityIndex (putRequest index currentMa ++ t) =
      .ok (BitVec.ofNat 8 (index.toNat - 1), le16 (BitVec.ofNat 16 currentMa) ++ t) := by
    simp only [putRequest, List.cons_append, takeField]
    rw [if_pos (by omega), BitVec.setWidth_eq]
  simp only [takeRequest, field, thenParse, takeHalf_le16, e1, e2, e3]
  rw [if_neg (by omega), if_neg (by simp [Config.maxCurrentMa]; omega)]

end Sys2Proof
end

