-- ==== Sys2Proof/Laws/Mem.lean ====
section
/-!
SUPPORT. The chip register space: what a read finds after an update, and that every update keeps the
canonical form (`Mem.Wf`).
-/

namespace Sys2Proof.Machine

theorem Mem.read_write_same (m : Mem) (a : Nat) (b : Byte) : (m.write a b).read a = some b := by
  induction m with
  | nil => simp [Mem.write, Mem.read]
  | cons cell t ih =>
    obtain ⟨k, v⟩ := cell
    simp only [Mem.write]
    split
    · simp [Mem.read]
    · split
      · simp [Mem.read]
      · rename_i _ h
        simp [Mem.read, Ne.symm h, ih]

theorem Mem.read_write_other (m : Mem) {a a' : Nat} (h : a' ≠ a) (b : Byte) :
    (m.write a b).read a' = m.read a' := by
  induction m with
  | nil => simp [Mem.write, Mem.read, h.symm]
  | cons cell t ih =>
    obtain ⟨k, v⟩ := cell
    simp only [Mem.write]
    split
    · simp [Mem.read, h.symm]
    · split
      · rename_i hk
        subst hk
        simp [Mem.read, h.symm]
      · simp [Mem.read, ih]

theorem Mem.read_forget_same (m : Mem) (a : Nat) : (m.forget a).read a = none := by
  induction m with
  | nil => rfl
  | cons cell t ih =>
    obtain ⟨k, v⟩ := cell
    by_cases hk : k = a
    · simpa [Mem.forget, hk] using ih
    · simpa [Mem.forget, hk, Mem.read] using ih

theorem Mem.read_forget_other (m : Mem) {a a' : Nat} (h : a' ≠ a) :
    (m.forget a).read a' = m.read a' := by
  induction m with
  | nil => rfl
  | cons cell t ih =>
    obtain ⟨k, v⟩ := cell
    by_cases hk : k = a
    · have h' : ¬ a = a' := fun e => h e.symm
      simpa [Mem.forget, hk, Mem.read, h'] using ih
    · by_cases hk' : k = a'
      · simp [Mem.forget, Mem.read, hk', h]
      · simpa [Mem.forget, hk, Mem.read, hk'] using ih

/-- Every address listed after a write is the one written or was listed before. -/
theorem Mem.mem_write {m : Mem} {a : Nat} {b : Byte} {cell : Host.Cell} (h : cell ∈ m.write a b) :
    cell = (a, b) ∨ cell ∈ m := by
  induction m with
  | nil => simpa [Mem.write] using h
  | cons c t ih =>
    obtain ⟨k, v⟩ := c
    simp only [Mem.write] at h
    split at h
    · simpa using h
    · split at h
      · rcases List.mem_cons.1 h with h | h
        · exact .inl h
        · exact .inr (List.mem_cons_of_mem _ h)
      · rcases List.mem_cons.1 h with h | h
        · exact .inr (h ▸ List.mem_cons_self)
        · exact (ih h).imp_right (List.mem_cons_of_mem _)

theorem Mem.Wf.nil : Mem.Wf [] := by simp [Mem.Wf]

theorem Mem.Wf.forget {m : Mem} (h : m.Wf) (a : Nat) : (m.forget a).Wf :=
  ⟨h.1.sublist (List.filter_sublist.map _), fun cell hc => h.2 cell (List.mem_filter.1 hc).1⟩

theorem Mem.Wf.write {m : Mem} (h : m.Wf) {a : Nat} (ha : a < 256) (b : Byte) : (m.write a b).Wf := by
  refine ⟨?_, fun cell hc => ?_⟩
  · have hp := h.1
    clear h
    induction m with
    | nil => simp [Mem.write]
    | cons c t ih =>
      obtain ⟨k, v⟩ := c
      simp only [List.map_cons, List.pairwise_cons] at hp
      simp only [Mem.write]
      split
      · rename_i hlt
        simp only [List.map_cons, List.pairwise_cons]
        refine ⟨fun x hx => ?_, hp⟩
        rcases List.mem_cons.1 hx with rfl | hx
        · exact hlt
        · exact Nat.lt_trans hlt (hp.1 x hx)
      · split
        · rename_i hk
          subst hk
          simpa using hp
        · simp only [List.map_cons, List.pairwise_cons]
          refine ⟨fun x hx => ?_, ih hp.2⟩
          obtain ⟨cell, hc, rfl⟩ := List.mem_map.1 hx
          rcases Mem.mem_write hc with rfl | hc
          · simp only; omega
          · exact hp.1 _ (List.mem_map_of_mem hc)
  · rcases Mem.mem_write hc with rfl | hc
    · exact ha
    · exact h.2 cell hc

end Sys2Proof.Machine
end

