-- ==== Sys2Proof/Laws/State.lean ====
section
/-!
SUPPORT. One lemma a field for each update of the state (`Machine/Ops.lean`), so that no later proof
unfolds a record update.
-/

namespace Sys2Proof.Machine

variable (s : State)

/-! ## `takeDraw` -/

@[simp] theorem takeDraw_cfg : s.takeDraw.cfg = s.cfg := rfl
@[simp] theorem takeDraw_seq : s.takeDraw.seq = s.seq := rfl
@[simp] theorem takeDraw_vs : s.takeDraw.vs = s.vs := rfl
@[simp] theorem takeDraw_chip : s.takeDraw.chip = s.chip := rfl
@[simp] theorem takeDraw_env : s.takeDraw.env = { s.env with script := s.env.script.tail, draws := s.env.draws + 1 } := rfl
@[simp] theorem takeDraw_port : s.takeDraw.port = s.port := rfl
@[simp] theorem takeDraw_wire : s.takeDraw.wire = s.wire := rfl
@[simp] theorem takeDraw_loop : s.takeDraw.loop = s.loop := rfl
@[simp] theorem takeDraw_result : s.takeDraw.result = s.result := rfl
@[simp] theorem takeDraw_trace : s.takeDraw.trace = s.trace := rfl

/-! ## `chipRuns` -/

@[simp] theorem chipRuns_cfg (d : Draw) : (s.chipRuns d).cfg = s.cfg := rfl
@[simp] theorem chipRuns_seq (d : Draw) : (s.chipRuns d).seq = s.seq := rfl
@[simp] theorem chipRuns_vs (d : Draw) : (s.chipRuns d).vs = s.vs := rfl
@[simp] theorem chipRuns_chip (d : Draw) : (s.chipRuns d).chip = { s.chip with
      rxFifo := s.chip.rxFifo ++ d.arrive, txFifo := s.chip.txFifo.drop d.drain } := rfl
@[simp] theorem chipRuns_env (d : Draw) : (s.chipRuns d).env = s.env := rfl
@[simp] theorem chipRuns_port (d : Draw) : (s.chipRuns d).port = s.port := rfl
@[simp] theorem chipRuns_wire (d : Draw) : (s.chipRuns d).wire = s.wire := rfl
@[simp] theorem chipRuns_loop (d : Draw) : (s.chipRuns d).loop = s.loop := rfl
@[simp] theorem chipRuns_result (d : Draw) : (s.chipRuns d).result = s.result := rfl
@[simp] theorem chipRuns_trace (d : Draw) : (s.chipRuns d).trace = s.trace := rfl

/-! ## `chipDisturbed` -/

@[simp] theorem chipDisturbed_cfg (d : Draw) : (s.chipDisturbed d).cfg = s.cfg := rfl
@[simp] theorem chipDisturbed_seq (d : Draw) : (s.chipDisturbed d).seq = s.seq := rfl
@[simp] theorem chipDisturbed_vs (d : Draw) : (s.chipDisturbed d).vs = s.vs := rfl
@[simp] theorem chipDisturbed_chip (d : Draw) : (s.chipDisturbed d).chip = { s.chip with rxFifo := s.chip.rxFifo.drop d.moved, regs := [] } := rfl
@[simp] theorem chipDisturbed_env (d : Draw) : (s.chipDisturbed d).env = s.env := rfl
@[simp] theorem chipDisturbed_port (d : Draw) : (s.chipDisturbed d).port = s.port := rfl
@[simp] theorem chipDisturbed_wire (d : Draw) : (s.chipDisturbed d).wire = s.wire := rfl
@[simp] theorem chipDisturbed_loop (d : Draw) : (s.chipDisturbed d).loop = s.loop := rfl
@[simp] theorem chipDisturbed_result (d : Draw) : (s.chipDisturbed d).result = s.result := rfl
@[simp] theorem chipDisturbed_trace (d : Draw) : (s.chipDisturbed d).trace = s.trace := rfl

/-! ## `record` -/

@[simp] theorem record_cfg (e : Event) : (s.record e).cfg = s.cfg := rfl
@[simp] theorem record_seq (e : Event) : (s.record e).seq = s.seq := rfl
@[simp] theorem record_vs (e : Event) : (s.record e).vs = s.vs := rfl
@[simp] theorem record_chip (e : Event) : (s.record e).chip = s.chip := rfl
@[simp] theorem record_env (e : Event) : (s.record e).env = s.env := rfl
@[simp] theorem record_port (e : Event) : (s.record e).port = s.port := rfl
@[simp] theorem record_wire (e : Event) : (s.record e).wire = s.wire := rfl
@[simp] theorem record_loop (e : Event) : (s.record e).loop = s.loop := rfl
@[simp] theorem record_result (e : Event) : (s.record e).result = s.result := rfl
@[simp] theorem record_trace (e : Event) : (s.record e).trace = s.trace ++ [e] := rfl

/-! ## `pause` -/

@[simp] theorem pause_cfg : s.pause.cfg = s.cfg := rfl
@[simp] theorem pause_seq : s.pause.seq = s.seq := rfl
@[simp] theorem pause_vs : s.pause.vs = s.vs := rfl
@[simp] theorem pause_chip : s.pause.chip = s.chip := rfl
@[simp] theorem pause_env : s.pause.env = s.env := rfl
@[simp] theorem pause_port : s.pause.port = s.port := rfl
@[simp] theorem pause_wire : s.pause.wire = s.wire := rfl
@[simp] theorem pause_loop : s.pause.loop = s.loop := rfl
@[simp] theorem pause_result : s.pause.result = s.result := rfl
@[simp] theorem pause_trace : s.pause.trace = s.trace ++ [.delay s.cfg.tXactDelayUs] := rfl

/-! ## `returns` -/

@[simp] theorem returns_cfg (r : Result) : (s.returns r).cfg = s.cfg := rfl
@[simp] theorem returns_seq (r : Result) : (s.returns r).seq = s.seq := rfl
@[simp] theorem returns_vs (r : Result) : (s.returns r).vs = s.vs := rfl
@[simp] theorem returns_chip (r : Result) : (s.returns r).chip = s.chip := rfl
@[simp] theorem returns_env (r : Result) : (s.returns r).env = s.env := rfl
@[simp] theorem returns_port (r : Result) : (s.returns r).port = s.port := rfl
@[simp] theorem returns_wire (r : Result) : (s.returns r).wire = s.wire := rfl
@[simp] theorem returns_loop (r : Result) : (s.returns r).loop = s.loop := rfl
@[simp] theorem returns_result (r : Result) : (s.returns r).result = r := rfl
@[simp] theorem returns_trace (r : Result) : (s.returns r).trace = s.trace := rfl

/-! ## `raiseFail` -/

@[simp] theorem raiseFail_cfg (cause : Cause) : (s.raiseFail cause).cfg = s.cfg := rfl
@[simp] theorem raiseFail_seq (cause : Cause) : (s.raiseFail cause).seq = s.seq := rfl
@[simp] theorem raiseFail_vs (cause : Cause) : (s.raiseFail cause).vs = s.vs := rfl
@[simp] theorem raiseFail_chip (cause : Cause) : (s.raiseFail cause).chip = s.chip := rfl
@[simp] theorem raiseFail_env (cause : Cause) : (s.raiseFail cause).env = s.env := rfl
@[simp] theorem raiseFail_port (cause : Cause) : (s.raiseFail cause).port = s.port := rfl
@[simp] theorem raiseFail_wire (cause : Cause) : (s.raiseFail cause).wire = s.wire := rfl
@[simp] theorem raiseFail_loop (cause : Cause) : (s.raiseFail cause).loop = s.loop := rfl
@[simp] theorem raiseFail_result (cause : Cause) : (s.raiseFail cause).result = .fail cause := rfl
@[simp] theorem raiseFail_trace (cause : Cause) : (s.raiseFail cause).trace = s.trace := rfl

end Sys2Proof.Machine
end

