-- ==== Sys2Proof/Laws/Ops.lean ====
section
/-!
SUPPORT. What each shared operation can do, said once: the two primitives, the clock, the abstract chip
actions, sending and receiving a frame. Later proofs cite these and unfold none of the operations.
-/

namespace Sys2Proof.Machine

variable (s : State)

/-! ## Answers -/

theorem answerBytes_length (d : Draw) (k n : Nat) : (answerBytes d k n).length = n := by
  simp [answerBytes]

theorem readAnswer_length (addr : Byte) (n : Nat) (d : Draw) : (readAnswer s addr n d).length = n := by
  unfold readAnswer
  split
  · simp only [List.length_append, List.length_take, answerBytes_length]
    omega
  · exact answerBytes_length ..

/-- An answer that holds enough bytes is what a register read delivers. -/
theorem answerBytes_data {d : Draw} {n : Nat} (k : Nat) (h : n ≤ d.data.length) :
    answerBytes d k n = d.data.take n := by
  apply List.ext_getElem
  · simp [answerBytes, h]
  · intro i h1 h2
    have hi : i < d.data.length := by simp [answerBytes] at h1; omega
    simp [answerBytes, List.getElem?_eq_getElem hi]

/-! ## `RegWrite` (R52) -/

@[simp] theorem regWrite_fst (addr : Byte) (bytes : List Byte) :
    (regWrite addr bytes s).1 = s.nextDraw.ok := rfl
@[simp] theorem regWrite_cfg (addr : Byte) (bytes : List Byte) : (regWrite addr bytes s).2.cfg = s.cfg := rfl
@[simp] theorem regWrite_seq (addr : Byte) (bytes : List Byte) : (regWrite addr bytes s).2.seq = s.seq := rfl
@[simp] theorem regWrite_vs (addr : Byte) (bytes : List Byte) : (regWrite addr bytes s).2.vs = s.vs := rfl
@[simp] theorem regWrite_port (addr : Byte) (bytes : List Byte) : (regWrite addr bytes s).2.port = s.port := rfl
@[simp] theorem regWrite_wire (addr : Byte) (bytes : List Byte) : (regWrite addr bytes s).2.wire = s.wire := rfl
@[simp] theorem regWrite_loop (addr : Byte) (bytes : List Byte) : (regWrite addr bytes s).2.loop = s.loop := rfl
@[simp] theorem regWrite_result (addr : Byte) (bytes : List Byte) : (regWrite addr bytes s).2.result = s.result := rfl
@[simp] theorem regWrite_env (addr : Byte) (bytes : List Byte) :
    (regWrite addr bytes s).2.env = s.takeDraw.env := rfl
@[simp] theorem regWrite_chip (addr : Byte) (bytes : List Byte) :
    (regWrite addr bytes s).2.chip =
      (s.chipRuns s.nextDraw).chip.written s.cfg.regFifo addr bytes s.nextDraw := rfl
@[simp] theorem regWrite_trace (addr : Byte) (bytes : List Byte) :
    (regWrite addr bytes s).2.trace =
      s.trace ++ [.write addr bytes s.nextDraw.ok, .delay s.cfg.tXactDelayUs] := by
  simp [regWrite]

/-- A write to the FIFO leaves the registers alone. -/
theorem written_fifo_regs (c : Chip) (fifo : Byte) (bytes : List Byte) (d : Draw) :
    (c.written fifo fifo bytes d).regs = c.regs := by
  simp [Chip.written]

/-- A write never touches the receive FIFO. -/
theorem written_rxFifo (c : Chip) (fifo addr : Byte) (bytes : List Byte) (d : Draw) :
    (c.written fifo addr bytes d).rxFifo = c.rxFifo := by
  unfold Chip.written
  split
  · rfl
  · split <;> rfl

/-- A write at a register never touches the transmit FIFO (log entry 30). -/
theorem written_register_txFifo (c : Chip) {fifo addr : Byte} (h : addr ≠ fifo) (bytes : List Byte) (d : Draw) :
    (c.written fifo addr bytes d).txFifo = c.txFifo := by
  unfold Chip.written
  rw [if_neg h]
  split <;> rfl

theorem written_wf {c : Chip} (h : c.regs.Wf) (fifo addr : Byte) (bytes : List Byte) (d : Draw) :
    (c.written fifo addr bytes d).regs.Wf := by
  unfold Chip.written
  split
  · exact h
  · split
    · dsimp only
      split
      · exact h.write (by exact addr.isLt) _
      · exact h.forget _
    · exact Mem.Wf.nil

/-! ## `RegRead` (R53) -/

@[simp] theorem regRead_cfg (addr : Byte) (n : Nat) : (regRead addr n s).2.cfg = s.cfg := rfl
@[simp] theorem regRead_seq (addr : Byte) (n : Nat) : (regRead addr n s).2.seq = s.seq := rfl
@[simp] theorem regRead_vs (addr : Byte) (n : Nat) : (regRead addr n s).2.vs = s.vs := rfl
@[simp] theorem regRead_port (addr : Byte) (n : Nat) : (regRead addr n s).2.port = s.port := rfl
@[simp] theorem regRead_wire (addr : Byte) (n : Nat) : (regRead addr n s).2.wire = s.wire := rfl
@[simp] theorem regRead_loop (addr : Byte) (n : Nat) : (regRead addr n s).2.loop = s.loop := rfl
@[simp] theorem regRead_result (addr : Byte) (n : Nat) : (regRead addr n s).2.result = s.result := rfl
@[simp] theorem regRead_env (addr : Byte) (n : Nat) : (regRead addr n s).2.env = s.takeDraw.env := rfl
@[simp] theorem regRead_chip (addr : Byte) (n : Nat) :
    (regRead addr n s).2.chip = (s.chipRuns s.nextDraw).chip.wasRead s.cfg.regFifo addr n s.nextDraw := rfl
@[simp] theorem regRead_trace (addr : Byte) (n : Nat) :
    (regRead addr n s).2.trace =
      s.trace ++ [.read addr n (regRead addr n s).1, .delay s.cfg.tXactDelayUs] := by
  simp [regRead]

/-- A read fails exactly when the host says so. -/
theorem regRead_fst (addr : Byte) (n : Nat) :
    (regRead addr n s).1 =
      if s.nextDraw.ok then some (readAnswer (s.takeDraw.chipRuns s.nextDraw) addr n s.nextDraw) else none :=
  rfl

theorem regRead_length {addr : Byte} {n : Nat} {bytes : List Byte}
    (h : (regRead addr n s).1 = some bytes) : bytes.length = n := by
  rw [regRead_fst] at h
  split at h
  · cases h
    exact readAnswer_length ..
  · cases h

theorem wasRead_regs (c : Chip) (fifo addr : Byte) (n : Nat) (d : Draw) :
    (c.wasRead fifo addr n d).regs = c.regs := by
  unfold Chip.wasRead
  split <;> rfl

/-- What a read of `REG_FIFO` leaves in the receive FIFO. -/
theorem regRead_fifo_left (n : Nat) :
    (regRead s.cfg.regFifo n s).2.chip.rxFifo =
      (s.chip.rxFifo ++ s.nextDraw.arrive).drop
        (if s.nextDraw.ok then n else min s.nextDraw.moved n) := by
  rw [regRead_chip]
  simp [Chip.wasRead]

/-- What a successful read of `REG_FIFO` delivers: the FIFO's next bytes, as far as it holds them. -/
theorem regRead_fifo_delivers (n : Nat) (h : s.nextDraw.ok = true) :
    ∃ bytes, (regRead s.cfg.regFifo n s).1 = some bytes ∧ bytes.length = n ∧
      bytes.take (s.chip.rxFifo ++ s.nextDraw.arrive).length =
        (s.chip.rxFifo ++ s.nextDraw.arrive).take n := by
  refine ⟨_, by rw [regRead_fst, if_pos h], readAnswer_length .., ?_⟩
  simp only [readAnswer, chipRuns_cfg, takeDraw_cfg, if_true, chipRuns_chip, takeDraw_chip]
  generalize s.chip.rxFifo ++ s.nextDraw.arrive = queue
  by_cases hq : n ≤ queue.length
  · rw [show n - queue.length = 0 by omega]
    simp [answerBytes, List.take_take, hq]
  · rw [List.take_of_length_le (by omega : queue.length ≤ n)]
    simp

/-- A failed read delivers no byte. -/
theorem regRead_failed {addr : Byte} {n : Nat} (h : s.nextDraw.ok = false) : (regRead addr n s).1 = none := by
  rw [regRead_fst, h]
  rfl

/-! ## `NowMs` (R224) -/

@[simp] theorem nowMs_cfg : (nowMs s).2.cfg = s.cfg := rfl
@[simp] theorem nowMs_seq : (nowMs s).2.seq = s.seq := rfl
@[simp] theorem nowMs_vs : (nowMs s).2.vs = s.vs := rfl
@[simp] theorem nowMs_port : (nowMs s).2.port = s.port := rfl
@[simp] theorem nowMs_wire : (nowMs s).2.wire = s.wire := rfl
@[simp] theorem nowMs_loop : (nowMs s).2.loop = s.loop := rfl
@[simp] theorem nowMs_result : (nowMs s).2.result = s.result := rfl
@[simp] theorem nowMs_chip : (nowMs s).2.chip = (s.chipRuns s.nextDraw).chip := rfl
@[simp] theorem nowMs_trace : (nowMs s).2.trace = s.trace ++ [.now (nowMs s).1] := rfl
@[simp] theorem nowMs_fst :
    (nowMs s).1 = (s.env.clock + s.nextDraw.elapsed) % 2 ^ s.cfg.clockWidth := rfl
theorem nowMs_lt : (nowMs s).1 < 2 ^ s.cfg.clockWidth := Nat.mod_lt _ (Nat.two_pow_pos _)
theorem nowMs_clock : (nowMs s).2.env.clock = s.env.clock + s.nextDraw.elapsed := rfl

/-! ## Abstract chip actions (R181 to R184) -/

@[simp] theorem chipAction_cfg (a : ChipAction) : (chipAction a s).2.cfg = s.cfg := rfl
@[simp] theorem chipAction_seq (a : ChipAction) : (chipAction a s).2.seq = s.seq := rfl
@[simp] theorem chipAction_vs (a : ChipAction) : (chipAction a s).2.vs = s.vs := rfl
@[simp] theorem chipAction_port (a : ChipAction) : (chipAction a s).2.port = s.port := rfl
@[simp] theorem chipAction_wire (a : ChipAction) : (chipAction a s).2.wire = s.wire := rfl
@[simp] theorem chipAction_loop (a : ChipAction) : (chipAction a s).2.loop = s.loop := rfl
@[simp] theorem chipAction_result (a : ChipAction) : (chipAction a s).2.result = s.result := rfl
@[simp] theorem chipAction_env (a : ChipAction) : (chipAction a s).2.env = s.takeDraw.env := rfl
@[simp] theorem chipAction_trace (a : ChipAction) :
    (chipAction a s).2.trace = s.trace ++ [.action a s.nextDraw.ok] := rfl
@[simp] theorem chipAction_regs (a : ChipAction) : (chipAction a s).2.chip.regs = [] := rfl
theorem chipAction_fst (a : ChipAction) :
    (chipAction a s).1 =
      if s.nextDraw.ok then none else some (if s.nextDraw.readFault then .ioRead else .ioWrite) := rfl

@[simp] theorem ccLevelRead_cfg  : (ccLevelRead s).2.cfg = s.cfg := rfl
@[simp] theorem ccLevelRead_seq  : (ccLevelRead s).2.seq = s.seq := rfl
@[simp] theorem ccLevelRead_vs  : (ccLevelRead s).2.vs = s.vs := rfl
@[simp] theorem ccLevelRead_port  : (ccLevelRead s).2.port = s.port := rfl
@[simp] theorem ccLevelRead_wire  : (ccLevelRead s).2.wire = s.wire := rfl
@[simp] theorem ccLevelRead_loop  : (ccLevelRead s).2.loop = s.loop := rfl
@[simp] theorem ccLevelRead_result  : (ccLevelRead s).2.result = s.result := rfl
@[simp] theorem ccLevelRead_env : (ccLevelRead s).2.env = s.takeDraw.env := rfl
@[simp] theorem ccLevelRead_trace :
    (ccLevelRead s).2.trace = s.trace ++ [.level (ccLevelRead s).1] := rfl
@[simp] theorem ccLevelRead_regs : (ccLevelRead s).2.chip.regs = [] := rfl
theorem ccLevelRead_fst :
    (ccLevelRead s).1 = if s.nextDraw.ok then some s.nextDraw.level else none := rfl

/-! ## Frames (R144, R145) -/

/-- Sending a frame is one write to `REG_FIFO` of the frame's bytes. -/
theorem writeMessage_eq (header : Half) (ndo : BitVec 3) (objects : List Word) :
    writeMessage header ndo objects s =
      regWrite s.cfg.regFifo (txFrameBytes s.cfg header (objects.take ndo.toNat)) s := rfl

theorem payloadBytes_length (header : Half) (objects : List Word) :
    (payloadBytes header objects).length = 2 + 4 * objects.length := by
  induction objects with
  | nil => rfl
  | cons w t ih =>
    simp only [payloadBytes, List.flatMap_cons, List.length_append, List.length_cons] at ih ⊢
    simp only [le32, List.length_cons, List.length_nil]
    omega

/-- The frame is `11 + 4×N` bytes (R88). -/
theorem txFrameBytes_length (c : Params) (header : Half) (objects : List Word) :
    (txFrameBytes c header objects).length = 11 + 4 * objects.length := by
  simp only [txFrameBytes, List.length_append, payloadBytes_length, txHead, txTail, List.length_cons,
    List.length_nil]
  omega

/-- Everything receiving a frame can do (R145): the first read fails; the start-of-frame test fails, and no
second read is issued; the second read fails; or a frame is delivered. -/
theorem readNextFrame_cases :
    let r1 := regRead s.cfg.regFifo 3 s
    (r1.1 = none ∧ readNextFrame s = (.error .ioRead, r1.2)) ∨
    (∃ b, r1.1 = some b ∧ sopMatches s.cfg (b.headD 0) = false ∧
      readNextFrame s = (.error .sopMismatch, r1.2)) ∨
    (∃ b, r1.1 = some b ∧ sopMatches s.cfg (b.headD 0) = true ∧
      let header := fromLe16 (b.getD 1 0) (b.getD 2 0)
      let n := (headerFields header).ndo.toNat
      let r2 := regRead s.cfg.regFifo (4 * n + 4) r1.2
      (r2.1 = none ∧ readNextFrame s = (.error .ioRead, r2.2)) ∨
      (∃ d, r2.1 = some d ∧
        readNextFrame s = (.ok { header := header, data := d.take (4 * n) }, r2.2))) := by
  intro r1
  rcases h1 : r1 with ⟨_ | b, s1⟩
  · left
    refine ⟨rfl, ?_⟩
    unfold readNextFrame
    rw [show regRead s.cfg.regFifo 3 s = (none, s1) from h1]
  · right
    have hc : s1.cfg = s.cfg := by rw [← regRead_cfg s s.cfg.regFifo 3]; exact congrArg (·.2.cfg) h1.symm
    have hr : regRead s.cfg.regFifo 3 s = (some b, s1) := h1
    by_cases hs : sopMatches s.cfg (b.headD 0) = true
    · right
      refine ⟨b, rfl, hs, ?_⟩
      intro header n r2
      rcases h2 : r2 with ⟨_ | d, s2⟩
      · left
        refine ⟨rfl, ?_⟩
        have hr2 : regRead s.cfg.regFifo (4 * n + 4) s1 = (none, s2) := h2
        unfold readNextFrame
        simp only [hr, hc, hs, if_true]
        rw [show regRead s.cfg.regFifo (4 * (headerFields (fromLe16 (b.getD 1 0) (b.getD 2 0))).ndo.toNat + 4) s1
          = (none, s2) from hr2]
      · right
        refine ⟨d, rfl, ?_⟩
        have hr2 : regRead s.cfg.regFifo (4 * n + 4) s1 = (some d, s2) := h2
        unfold readNextFrame
        simp only [hr, hc, hs, if_true]
        rw [show regRead s.cfg.regFifo (4 * (headerFields (fromLe16 (b.getD 1 0) (b.getD 2 0))).ndo.toNat + 4) s1
          = (some d, s2) from hr2]
    · left
      have hs' : sopMatches s.cfg (b.headD 0) = false := by simpa using hs
      refine ⟨b, rfl, hs', ?_⟩
      unfold readNextFrame
      simp only [hr, hc]
      rw [if_neg hs]

/-- A frame received holds four bytes for each object its header counts. -/
theorem readNextFrame_data_length {f : RxFrame} (h : (readNextFrame s).1 = .ok f) :
    f.data.length = 4 * (headerFields f.header).ndo.toNat := by
  rcases readNextFrame_cases s with ⟨-, e⟩ | ⟨b, -, -, e⟩ | ⟨b, -, -, ⟨-, e⟩ | ⟨d, hd, e⟩⟩ <;> rw [e] at h <;> cases h
  have := regRead_length _ hd
  simp only [List.length_take, this]
  omega

/-- Receiving a frame touches the chip, the environment and the record only. -/
theorem readNextFrame_keeps {P : State → Prop} (hread : ∀ addr n s, P s → P (regRead addr n s).2) (h : P s) :
    P (readNextFrame s).2 := by
  rcases readNextFrame_cases s with ⟨-, e⟩ | ⟨b, -, -, e⟩ | ⟨b, -, -, ⟨-, e⟩ | ⟨d, -, e⟩⟩ <;> rw [e]
  · exact hread _ _ _ h
  · exact hread _ _ _ h
  · exact hread _ _ _ (hread _ _ _ h)
  · exact hread _ _ _ (hread _ _ _ h)

@[simp] theorem readNextFrame_cfg : (readNextFrame s).2.cfg = s.cfg :=
  readNextFrame_keeps s (P := fun t => t.cfg = s.cfg) (fun _ _ _ h => h) rfl
@[simp] theorem readNextFrame_seq : (readNextFrame s).2.seq = s.seq :=
  readNextFrame_keeps s (P := fun t => t.seq = s.seq) (fun _ _ _ h => h) rfl
@[simp] theorem readNextFrame_vs : (readNextFrame s).2.vs = s.vs :=
  readNextFrame_keeps s (P := fun t => t.vs = s.vs) (fun _ _ _ h => h) rfl
@[simp] theorem readNextFrame_port : (readNextFrame s).2.port = s.port :=
  readNextFrame_keeps s (P := fun t => t.port = s.port) (fun _ _ _ h => h) rfl
@[simp] theorem readNextFrame_wire : (readNextFrame s).2.wire = s.wire :=
  readNextFrame_keeps s (P := fun t => t.wire = s.wire) (fun _ _ _ h => h) rfl
@[simp] theorem readNextFrame_loop : (readNextFrame s).2.loop = s.loop :=
  readNextFrame_keeps s (P := fun t => t.loop = s.loop) (fun _ _ _ h => h) rfl
@[simp] theorem readNextFrame_result : (readNextFrame s).2.result = s.result :=
  readNextFrame_keeps s (P := fun t => t.result = s.result) (fun _ _ _ h => h) rfl
theorem readNextFrame_regs : (readNextFrame s).2.chip.regs = s.chip.regs :=
  readNextFrame_keeps s (P := fun t => t.chip.regs = s.chip.regs)
    (fun _ _ t h => by rw [regRead_chip, wasRead_regs]; exact h) rfl

/-! ## Answers that a script fixes -/

/-- A read of `REG_FIFO` that the FIFO can serve. -/
theorem regRead_fifo_ok {d : Draw} {script : List Draw} {front rest : List Byte}
    (hs : s.env.script = d :: script) (hok : d.ok = true) (hq : s.chip.rxFifo = front ++ rest) :
    (regRead s.cfg.regFifo front.length s).1 = some front ∧
    (regRead s.cfg.regFifo front.length s).2.chip.rxFifo = rest ++ d.arrive ∧
    (regRead s.cfg.regFifo front.length s).2.env.script = script := by
  have hd : s.nextDraw = d := by simp [State.nextDraw, hs]
  refine ⟨?_, ?_, by simp [hs]⟩
  · rw [regRead_fst, hd, hok, if_pos rfl]
    have h0 : front.length - (s.chip.rxFifo ++ d.arrive).length = 0 := by simp [hq]
    simp only [readAnswer, chipRuns_cfg, takeDraw_cfg, if_true, chipRuns_chip, takeDraw_chip, h0]
    simp [answerBytes, hq]
  · rw [regRead_chip, hd]
    simp [Chip.wasRead, hok, hq]

/-- A status read answered by the script. -/
theorem regRead_register_ok {d : Draw} {script : List Draw} {addr b : Byte}
    (ha : addr ≠ s.cfg.regFifo)
    (hs : s.env.script = d :: script) (hok : d.ok = true) (hb : d.data = [b]) :
    (regRead addr 1 s).1 = some [b] ∧
    (regRead addr 1 s).2.chip.rxFifo = s.chip.rxFifo ++ d.arrive ∧
    (regRead addr 1 s).2.env.script = script := by
  have hd : s.nextDraw = d := by simp [State.nextDraw, hs]
  refine ⟨?_, ?_, by simp [hs]⟩
  · rw [regRead_fst, hd, hok, if_pos rfl]
    simp [readAnswer, ha, answerBytes_data, hb]
  · rw [regRead_chip, hd]
    simp [Chip.wasRead, ha]

/-- A frame the FIFO holds whole is received (R145). -/
theorem readNextFrame_ok {d1 d2 : Draw} {script : List Draw} {sop lo hi : Byte}
    {body rest : List Byte} (hs : s.env.script = d1 :: d2 :: script) (h1 : d1.ok = true) (h2 : d2.ok = true)
    (hq : s.chip.rxFifo = sop :: lo :: hi :: (body ++ rest)) (hsop : sopMatches s.cfg sop = true)
    (hn : body.length = 4 * (headerFields (fromLe16 lo hi)).ndo.toNat + 4) :
    (readNextFrame s).1 = .ok { header := fromLe16 lo hi,
                                data := body.take (4 * (headerFields (fromLe16 lo hi)).ndo.toNat) } ∧
    (readNextFrame s).2 = (regRead s.cfg.regFifo body.length (regRead s.cfg.regFifo 3 s).2).2 ∧
    (readNextFrame s).2.chip.rxFifo = rest ++ d1.arrive ++ d2.arrive ∧
    (readNextFrame s).2.env.script = script := by
  obtain ⟨r1, q1, e1⟩ := regRead_fifo_ok s (front := [sop, lo, hi]) (rest := body ++ rest) hs h1 hq
  have r1' : (regRead s.cfg.regFifo 3 s).1 = some [sop, lo, hi] := r1
  have hc : (regRead s.cfg.regFifo 3 s).2.cfg = s.cfg := rfl
  obtain ⟨r2, q2, e2⟩ := regRead_fifo_ok (regRead s.cfg.regFifo 3 s).2 (front := body)
    (rest := rest ++ d1.arrive) e1 h2 (q1.trans (by simp))
  rw [hc] at r2 q2 e2
  rcases readNextFrame_cases s with ⟨hr, -⟩ | ⟨b, hr, hm, -⟩ | ⟨b, hr, hm, h⟩
  · rw [r1'] at hr; cases hr
  · rw [r1'] at hr; cases hr; rw [List.headD_cons, hsop] at hm; cases hm
  · rw [r1'] at hr; cases hr
    simp only [List.getD_cons_succ, List.getD_cons_zero] at h
    rw [← hn] at h
    rcases h with ⟨hf, -⟩ | ⟨d, hd, e⟩
    · rw [r2] at hf; cases hf
    · rw [r2] at hd; cases hd
      rw [e]
      exact ⟨rfl, rfl, q2, e2⟩

end Sys2Proof.Machine
end

