-- ==== Sys2Proof/Laws/PerInstr.lean ====
section
/-!
SUPPORT. Statements about every instruction as syntax, one lemma a constructor.

`CodeFirst`: the bytes of an operation begin with its code of the map of R102, and only an operation of the
command port has a code.
-/

namespace Sys2Proof.Laws

/-- The code an instruction is selected by is the first of its bytes; a value of a wire format has none. -/
def CodeFirst.Statement (i : Instr) : Prop :=
  ∀ c : Params, (opOf i).map Op.code = if (formatOf i).isSome then none else (encode c i).head?

theorem CodeFirst.packhdr (type : BitVec 5) (ndo id : BitVec 3) (pr dr : Option (BitVec 1)) (rev : Option (BitVec 2)) :
    CodeFirst.Statement (.packhdr type ndo id pr dr rev) := fun _ => rfl
theorem CodeFirst.unpackhdr (value : Half) : CodeFirst.Statement (.unpackhdr value) := fun _ => rfl
theorem CodeFirst.unpackcap (packed : Word) : CodeFirst.Statement (.unpackcap packed) := fun _ => rfl
theorem CodeFirst.pack16le (v : Half) : CodeFirst.Statement (.pack16le v) := fun _ => rfl
theorem CodeFirst.unpack16le (b0 b1 : Byte) : CodeFirst.Statement (.unpack16le b0 b1) := fun _ => rfl
theorem CodeFirst.pack32le (v : Word) : CodeFirst.Statement (.pack32le v) := fun _ => rfl
theorem CodeFirst.unpack32le (b0 b1 b2 b3 : Byte) :
    CodeFirst.Statement (.unpack32le b0 b1 b2 b3) := fun _ => rfl
theorem CodeFirst.packreq (index : BitVec 3) (currentMa : Nat) :
    CodeFirst.Statement (.packreq index currentMa) := fun _ => rfl
theorem CodeFirst.regwr1 (addr b : Byte) : CodeFirst.Statement (.regwr1 addr b) := fun _ => rfl
theorem CodeFirst.regwrn (addr : Byte) (bytes : List Byte) :
    CodeFirst.Statement (.regwrn addr bytes) := fun _ => rfl
theorem CodeFirst.regrd1 (addr : Byte) : CodeFirst.Statement (.regrd1 addr) := fun _ => rfl
theorem CodeFirst.regrdn (addr : Byte) (n : Nat) : CodeFirst.Statement (.regrdn addr n) := fun _ => rfl
theorem CodeFirst.wrmsg (header : Half) (ndo : BitVec 3) (objects : List Word) :
    CodeFirst.Statement (.wrmsg header ndo objects) := fun _ => rfl
theorem CodeFirst.rdframe (buf : List Byte) : CodeFirst.Statement (.rdframe buf) := fun _ => rfl
theorem CodeFirst.vbusstep : CodeFirst.Statement .vbusstep := fun _ => rfl
theorem CodeFirst.init : CodeFirst.Statement .init := fun _ => rfl
theorem CodeFirst.reset : CodeFirst.Statement .reset := fun _ => rfl
theorem CodeFirst.update : CodeFirst.Statement .update := fun _ => rfl
theorem CodeFirst.reqcap (index : BitVec 3) (currentMa : Nat) :
    CodeFirst.Statement (.reqcap index currentMa) := fun _ => rfl
theorem CodeFirst.getcaps : CodeFirst.Statement .getcaps := fun _ => rfl
theorem CodeFirst.curcap : CodeFirst.Statement .curcap := fun _ => rfl
theorem CodeFirst.pwrstable : CodeFirst.Statement .pwrstable := fun _ => rfl
theorem CodeFirst.getccpin : CodeFirst.Statement .getccpin := fun _ => rfl
theorem CodeFirst.procmsg : CodeFirst.Statement .procmsg := fun _ => rfl
theorem CodeFirst.header16 (n i : BitVec 3) (p : BitVec 1) (r : BitVec 2) (d : BitVec 1) (t : BitVec 5) :
    CodeFirst.Statement (.header16 n i p r d t) := fun _ => rfl
theorem CodeFirst.capability32 (y : BitVec 2) (a b c e f g : BitVec 1) (x k : BitVec 2) (v m : BitVec 10) :
    CodeFirst.Statement (.capability32 y a b c e f g x k v m) := fun _ => rfl
theorem CodeFirst.request32 (i : BitVec 3) (o m : BitVec 10) :
    CodeFirst.Statement (.request32 i o m) := fun _ => rfl
theorem CodeFirst.txPacksym (count : BitVec 5) : CodeFirst.Statement (.txPacksym count) := fun _ => rfl
theorem CodeFirst.txFrame (header : Half) (objects : List Word) :
    CodeFirst.Statement (.txFrame header objects) := fun _ => rfl
theorem CodeFirst.rxSop (x : BitVec 5) : CodeFirst.Statement (.rxSop x) := fun _ => rfl
theorem CodeFirst.rxFrame (x : BitVec 5) (header : Half) (objects : List Word) (c0 c1 c2 c3 : Byte) :
    CodeFirst.Statement (.rxFrame x header objects c0 c1 c2 c3) := fun _ => rfl
theorem CodeFirst.measure8 (code : BitVec 6) : CodeFirst.Statement (.measure8 code) := fun _ => rfl

end Sys2Proof.Laws
end

