-- ==== Sys2Proof/Laws/Sampler.lean ====
section
/-!
SUPPORT. What `VBUSSTEP` can do, said once: the write of step 5, the first call, and a later call.
-/

namespace Sys2Proof.Machine

variable (s : State)

/-- Steps 3 to 5: one write to `REG_MEASURE`; the new search state and the report only on success (R170). -/
theorem vbusProgram_eq (next : VbusSearch) (report : Option Nat) :
    vbusProgram next report s =
      let r := regWrite s.cfg.regMeasure [measureByte s.cfg (next.last.getD 0)] s
      if s.nextDraw.ok then (report, { r.2 with vs := next }) else (none, r.2) := by
  have h1 := regWrite_fst s s.cfg.regMeasure [measureByte s.cfg (next.last.getD 0)]
  unfold vbusProgram
  split <;> rename_i s1 h <;> rw [h] at h1 ⊢ <;> simp only at h1 <;> rw [← h1] <;> rfl

@[simp] theorem vbusProgram_cfg (next : VbusSearch) (report : Option Nat) :
    (vbusProgram next report s).2.cfg = s.cfg := by
  rw [vbusProgram_eq]; dsimp only; split <;> rfl
@[simp] theorem vbusProgram_seq (next : VbusSearch) (report : Option Nat) :
    (vbusProgram next report s).2.seq = s.seq := by
  rw [vbusProgram_eq]; dsimp only; split <;> rfl
@[simp] theorem vbusProgram_trace (next : VbusSearch) (report : Option Nat) :
    (vbusProgram next report s).2.trace = s.trace ++
      [.write s.cfg.regMeasure [measureByte s.cfg (next.last.getD 0)] s.nextDraw.ok,
        .delay s.cfg.tXactDelayUs] := by
  rw [vbusProgram_eq]; dsimp only; split <;> exact regWrite_trace ..
@[simp] theorem vbusProgram_port (next : VbusSearch) (report : Option Nat) :
    (vbusProgram next report s).2.port = s.port := by
  rw [vbusProgram_eq]; dsimp only; split <;> rfl
@[simp] theorem vbusProgram_wire (next : VbusSearch) (report : Option Nat) :
    (vbusProgram next report s).2.wire = s.wire := by
  rw [vbusProgram_eq]; dsimp only; split <;> rfl
@[simp] theorem vbusProgram_loop (next : VbusSearch) (report : Option Nat) :
    (vbusProgram next report s).2.loop = s.loop := by
  rw [vbusProgram_eq]; dsimp only; split <;> rfl
theorem vbusProgram_vs (next : VbusSearch) (report : Option Nat) :
    (vbusProgram next report s).2.vs = if s.nextDraw.ok then next else s.vs := by
  rw [vbusProgram_eq]; dsimp only; split <;> rfl
theorem vbusProgram_fst (next : VbusSearch) (report : Option Nat) :
    (vbusProgram next report s).1 = if s.nextDraw.ok then report else none := by
  rw [vbusProgram_eq]; dsimp only; split <;> rfl

/-- The chip's registers after the write: REG_MEASURE holds the byte, or is unknown; the others are as before. -/
theorem vbusProgram_regs (next : VbusSearch) (report : Option Nat) (h : s.cfg.regMeasure ≠ s.cfg.regFifo) :
    (∀ a, a ≠ s.cfg.regMeasure.toNat →
      (vbusProgram next report s).2.chip.regs.read a = s.chip.regs.read a) ∧
    (vbusProgram next report s).2.chip.regs.read s.cfg.regMeasure.toNat =
      if s.nextDraw.ok then some (measureByte s.cfg (next.last.getD 0)) else none := by
  have hr : (vbusProgram next report s).2.chip.regs =
      (regWrite s.cfg.regMeasure [measureByte s.cfg (next.last.getD 0)] s).2.chip.regs := by
    rw [vbusProgram_eq]; dsimp only; split <;> rfl
  rw [hr, regWrite_chip]
  simp only [Chip.written, h, if_false]
  cases s.nextDraw.ok
  · exact ⟨fun a ha => Mem.read_forget_other _ ha, Mem.read_forget_same _ _⟩
  · exact ⟨fun a ha => Mem.read_write_other _ ha _, Mem.read_write_same _ _ _⟩

/-- The chip's FIFOs after the write: as the chip's own running leaves them. -/
theorem vbusProgram_fifos (next : VbusSearch) (report : Option Nat) (h : s.cfg.regMeasure ≠ s.cfg.regFifo) :
    (vbusProgram next report s).2.chip.rxFifo = s.chip.rxFifo ++ s.nextDraw.arrive ∧
    (vbusProgram next report s).2.chip.txFifo = s.chip.txFifo.drop s.nextDraw.drain := by
  have hr : (vbusProgram next report s).2.chip =
      (regWrite s.cfg.regMeasure [measureByte s.cfg (next.last.getD 0)] s).2.chip := by
    rw [vbusProgram_eq]; dsimp only; split <;> rfl
  rw [hr, regWrite_chip]
  exact ⟨written_rxFifo .., written_register_txFifo _ h _ _⟩

/-- The first call reads no comparator (R163). -/
theorem updateVbus_first (h : s.vs.last = none) :
    updateVbus s = vbusProgram (vbusAdvance s.cfg s.vs 0 true s.vs.widen false) none s := by
  simp only [updateVbus, h]

/-- A later call whose comparator read fails does nothing more (R170). -/
theorem updateVbus_unread {code : BitVec 6} (h : s.vs.last = some code)
    (hr : (regRead s.cfg.regStatus0 1 s).1 = none) :
    updateVbus s = (none, (regRead s.cfg.regStatus0 1 s).2) := by
  unfold updateVbus
  simp only [h]
  rcases hq : regRead s.cfg.regStatus0 1 s with ⟨_ | b, s1⟩
  · rfl
  · rw [hq] at hr; cases hr

/-- A later call with its sample (R162). -/
theorem updateVbus_sampled {code : BitVec 6} {bytes : List Byte} (h : s.vs.last = some code)
    (hr : (regRead s.cfg.regStatus0 1 s).1 = some bytes) :
    updateVbus s =
      let c := comparatorBit s.cfg bytes
      let conv := vbusConverges s.vs c
      vbusProgram (vbusAdvance s.cfg s.vs code.toNat c (vbusWiden s.vs c) conv)
        (if conv then some (vbusMillivolts s.cfg (vbusConvCode s.vs code.toNat)) else none)
        (regRead s.cfg.regStatus0 1 s).2 := by
  have hc : (regRead s.cfg.regStatus0 1 s).2.cfg = s.cfg := rfl
  unfold updateVbus
  simp only [h]
  rcases hq : regRead s.cfg.regStatus0 1 s with ⟨_ | b, s1⟩
  · rw [hq] at hr; cases hr
  · rw [hq] at hr hc
    cases hr
    simp only at hc
    simp only [hc]

/-- The programmed code is the clamped signed sum (R168). -/
theorem vbusNewCode_toNat (cfg : Params) (h1 : 1 ≤ cfg.vbusMaxCode) (h2 : cfg.vbusMaxCode ≤ 64) (base : Nat)
    (step : Int) :
    ((vbusNewCode cfg base step).toNat : Int) = max 0 (min ((base : Int) + step) ((cfg.vbusMaxCode : Int) - 1)) := by
  unfold vbusNewCode clamp
  rw [BitVec.toNat_ofNat]
  split
  · simp; omega
  · split <;> omega

end Sys2Proof.Machine
end

