-- ==== Sys2Proof/Laws/Sequencer.lean ====
section
/-!
SUPPORT. What the sequencer's shared operations can do, said once: a Request, one received message, one pass
of the message loop, and the principle by which a property that every pass keeps is kept by the loop and by
`PROCMSG`.
-/

namespace Sys2Proof.Machine

variable (s : State)

/-! ## A Request (R199) -/

/-- A Request is one write; the sequencer is written exactly when it succeeded. -/
theorem requestCapability_eq (index : BitVec 3) (currentMa : Nat) :
    requestCapability index currentMa s =
      let r := writeMessage (requestHeader s) 1 [packRequest index currentMa] s
      (s.nextDraw.ok, if s.nextDraw.ok then { r.2 with seq := s.seq.requested index } else r.2) := by
  have h1 : (writeMessage (requestHeader s) 1 [packRequest index currentMa] s).1 = s.nextDraw.ok := rfl
  have h2 : (writeMessage (requestHeader s) 1 [packRequest index currentMa] s).2.seq = s.seq := rfl
  unfold requestCapability
  split <;> rename_i s1 h <;> rw [h] at h1 h2 ⊢ <;> simp only at h1 h2 <;> rw [← h1]
  · simp [h2]
  · simp

theorem requestCapability_cfg (index : BitVec 3) (currentMa : Nat) :
    (requestCapability index currentMa s).2.cfg = s.cfg := by
  rw [requestCapability_eq]; dsimp only; split <;> rfl
theorem requestCapability_vs (index : BitVec 3) (currentMa : Nat) :
    (requestCapability index currentMa s).2.vs = s.vs := by
  rw [requestCapability_eq]; dsimp only; split <;> rfl
theorem requestCapability_loop (index : BitVec 3) (currentMa : Nat) :
    (requestCapability index currentMa s).2.loop = s.loop := by
  rw [requestCapability_eq]; dsimp only; split <;> rfl
theorem requestCapability_regs (index : BitVec 3) (currentMa : Nat) :
    (requestCapability index currentMa s).2.chip.regs = s.chip.regs := by
  have h : (writeMessage (requestHeader s) 1 [packRequest index currentMa] s).2.chip.regs = s.chip.regs := by
    rw [writeMessage_eq, regWrite_chip, written_fifo_regs]; rfl
  rw [requestCapability_eq]; dsimp only; split <;> exact h
theorem requestCapability_env (index : BitVec 3) (currentMa : Nat) :
    (requestCapability index currentMa s).2.env = s.takeDraw.env := by
  rw [requestCapability_eq]; dsimp only; split <;> rfl
theorem requestCapability_trace (index : BitVec 3) (currentMa : Nat) :
    (requestCapability index currentMa s).2.trace = s.trace ++
      [.write s.cfg.regFifo (txFrameBytes s.cfg (requestHeader s) [packRequest index currentMa])
        s.nextDraw.ok, .delay s.cfg.tXactDelayUs] := by
  have h := regWrite_trace s s.cfg.regFifo
    (txFrameBytes s.cfg (requestHeader s) [packRequest index currentMa])
  rw [requestCapability_eq]; dsimp only; split <;> exact h
theorem requestCapability_seq (index : BitVec 3) (currentMa : Nat) :
    (requestCapability index currentMa s).2.seq =
      if s.nextDraw.ok then s.seq.requested index else s.seq := by
  rw [requestCapability_eq]; dsimp only; split <;> rfl

/-! ## One message (R190, R194 to R198) -/

/-- The state with a received list stored and the marker set, as the automatic Request finds it (R194). -/
def firstListStored (s : State) (ndo : BitVec 3) (objects : List Word) : State :=
  { s with seq := { s.seq.storing ndo objects with srccapseen := true } }

/-- Everything a Source Capabilities message can do (R194): a later one stores the list; the first also sets
the marker and requests capability 1. -/
theorem onSourceCapabilities_cases (ndo : BitVec 3) (objects : List Word) :
    (s.seq.srccapseen = true ∧
      onSourceCapabilities ndo objects s = { s with seq := s.seq.storing ndo objects }) ∨
    (s.seq.srccapseen = false ∧
      onSourceCapabilities ndo objects s =
        (requestCapability 1 (unpackCapability (storeCaps s.seq.caplist objects)[0]).maxCurrentMa
          (firstListStored s ndo objects)).2) := by
  unfold onSourceCapabilities
  cases h : s.seq.srccapseen
  · right
    refine ⟨rfl, ?_⟩
    rw [if_neg (by simp [Sequencer.storing, h])]
    rfl
  · left
    refine ⟨rfl, ?_⟩
    rw [if_pos (by simp [Sequencer.storing, h])]

/-- What a control message leaves alone: it writes `curcap`, `reqcap` and `pwrstable` only. -/
theorem onControl_frame (c : Params) (type : BitVec 5) (q : Sequencer) :
    ∃ r k p, q.onControl c type = { q with reqcap := r, curcap := k, pwrstable := p } := by
  unfold Sequencer.onControl
  split
  · exact ⟨_, _, _, rfl⟩
  · split
    · exact ⟨_, _, _, rfl⟩
    · split <;> exact ⟨_, _, _, rfl⟩

/-- Everything one message can do: a control message has its effect on three fields; Source Capabilities are
processed; any other data message does nothing. -/
theorem dispatchMessage_cases (f : RxFrame) :
    (∃ r k p, dispatchMessage f s =
      (false, { s with seq := { s.seq with reqcap := r, curcap := k, pwrstable := p } })) ∨
    (∃ ndo objects, dispatchMessage f s = (true, onSourceCapabilities ndo objects s)) ∨
    dispatchMessage f s = (false, s) := by
  unfold dispatchMessage
  dsimp only
  split
  · obtain ⟨r, k, p, h⟩ := onControl_frame s.cfg (headerFields f.header).type s.seq
    exact .inl ⟨r, k, p, by rw [h]⟩
  · split
    · exact .inr (.inl ⟨_, _, rfl⟩)
    · exact .inr (.inr rfl)

/-- The list begins with the objects stored, as many as a message can hold. -/
theorem storeCaps_take (old : Vector Word 8) {objects : List Word} (h : objects.length ≤ 7) :
    (storeCaps old objects).toList.take objects.length = objects := by
  apply List.ext_getElem
  · simp
    omega
  · intro i h1 h2
    simp [storeCaps]
    rw [List.getElem?_eq_getElem h2]
    rfl

/-! ## The message loop (R190) -/

/-- Everything one pass can do: the status read ends the loop, by failing or by showing the FIFO empty; the
frame's read ends it; or a frame is dispatched. -/
theorem messagePass_cases :
    let r := regRead s.cfg.regStatus1 1 s
    messagePass s = (none, r.2) ∨
    (∃ cause, (readNextFrame r.2).1 = .error cause ∧ messagePass s = (none, (readNextFrame r.2).2)) ∨
    (∃ f, (readNextFrame r.2).1 = .ok f ∧
      messagePass s = (some (dispatchMessage f (readNextFrame r.2).2).1,
        (dispatchMessage f (readNextFrame r.2).2).2)) := by
  intro r
  rcases h1 : r with ⟨_ | b, s1⟩
  · left
    unfold messagePass
    rw [show regRead s.cfg.regStatus1 1 s = (none, s1) from h1]
  · have hr : regRead s.cfg.regStatus1 1 s = (some b, s1) := h1
    by_cases he : rxEmptyBit s1.cfg b = true
    · left
      unfold messagePass
      rw [hr]
      simp only [he, if_true]
    · right
      rcases h2 : readNextFrame s1 with ⟨cause | f, s2⟩
      · left
        refine ⟨cause, rfl, ?_⟩
        unfold messagePass
        rw [hr]
        simp only [h2]
        rw [if_neg he]
      · right
        refine ⟨f, rfl, ?_⟩
        unfold messagePass
        rw [hr]
        simp only [h2]
        rw [if_neg he]

/-- A pass whose status read fails ends the loop. -/
theorem messagePass_unanswered (h : (regRead s.cfg.regStatus1 1 s).1 = none) :
    messagePass s = (none, (regRead s.cfg.regStatus1 1 s).2) := by
  unfold messagePass
  rw [show regRead s.cfg.regStatus1 1 s = (none, (regRead s.cfg.regStatus1 1 s).2) from Prod.ext h rfl]

/-- A pass that finds the FIFO empty ends the loop. -/
theorem messagePass_empty {bytes : List Byte} (hr : (regRead s.cfg.regStatus1 1 s).1 = some bytes)
    (he : rxEmptyBit s.cfg bytes = true) : messagePass s = (none, (regRead s.cfg.regStatus1 1 s).2) := by
  have hc : (regRead s.cfg.regStatus1 1 s).2.cfg = s.cfg := rfl
  unfold messagePass
  rcases hq : regRead s.cfg.regStatus1 1 s with ⟨_ | b, s1⟩
  · rw [hq] at hr
  · rw [hq] at hr hc
    cases hr
    simp only at hc
    simp only [hc, he, if_true]

/-- A pass that finds a frame it cannot read ends the loop (R213). -/
theorem messagePass_noFrame {bytes : List Byte} {cause : Cause}
    (hr : (regRead s.cfg.regStatus1 1 s).1 = some bytes) (he : rxEmptyBit s.cfg bytes = false)
    (hf : (readNextFrame (regRead s.cfg.regStatus1 1 s).2).1 = .error cause) :
    messagePass s = (none, (readNextFrame (regRead s.cfg.regStatus1 1 s).2).2) := by
  have hc : (regRead s.cfg.regStatus1 1 s).2.cfg = s.cfg := rfl
  unfold messagePass
  rw [show regRead s.cfg.regStatus1 1 s = (some bytes, (regRead s.cfg.regStatus1 1 s).2) from Prod.ext hr rfl]
  simp only [hc, he]
  rw [show readNextFrame (regRead s.cfg.regStatus1 1 s).2 =
    (.error cause, (readNextFrame (regRead s.cfg.regStatus1 1 s).2).2) from Prod.ext hf rfl]
  simp

/-- A pass that finds a frame dispatches it. -/
theorem messagePass_message {bytes : List Byte} {f : RxFrame}
    (hr : (regRead s.cfg.regStatus1 1 s).1 = some bytes) (he : rxEmptyBit s.cfg bytes = false)
    (hf : (readNextFrame (regRead s.cfg.regStatus1 1 s).2).1 = .ok f) :
    messagePass s =
      let r := dispatchMessage f (readNextFrame (regRead s.cfg.regStatus1 1 s).2).2
      (some r.1, r.2) := by
  have hc : (regRead s.cfg.regStatus1 1 s).2.cfg = s.cfg := rfl
  unfold messagePass
  rcases hq : regRead s.cfg.regStatus1 1 s with ⟨_ | b, s1⟩
  · rw [hq] at hr
    cases hr
  · rw [hq] at hr hc hf
    cases hr
    simp only at hc hf
    simp only [hc, he, Bool.false_eq_true, if_false]
    rcases hn : readNextFrame s1 with ⟨_ | g, s2⟩
    · rw [hn] at hf
      cases hf
    · rw [hn] at hf
      cases hf
      rfl

/-- A property that both primitives and the dispatch of a message keep is kept by one pass. -/
theorem messagePass_keeps {P : State → Prop}
    (hread : ∀ addr n s, P s → P (regRead addr n s).2)
    (hmsg : ∀ f s, P s → P (dispatchMessage f s).2) (h : P s) : P (messagePass s).2 := by
  have hframe : ∀ s, P s → P (readNextFrame s).2 := fun s h => readNextFrame_keeps s hread h
  rcases messagePass_cases s with e | ⟨cause, -, e⟩ | ⟨f, -, e⟩ <;> rw [e]
  · exact hread _ _ _ h
  · exact hframe _ (hread _ _ _ h)
  · exact hmsg _ _ (hframe _ (hread _ _ _ h))

/-- A property that every pass keeps is kept by the loop. -/
theorem messageLoop_keeps {P : State → Prop} (hpass : ∀ s, P s → P (messagePass s).2) :
    ∀ (n : Nat) (saw : Bool) (s : State), P s → P (messageLoop n saw s).2
  | 0, _, _, h => h
  | n + 1, saw, s, h => by
    have hp := hpass s h
    unfold messageLoop
    split
    · rename_i s1 e
      rw [e] at hp
      exact hp
    · rename_i seen s1 e
      rw [e] at hp
      exact messageLoop_keeps hpass n _ _ hp

/-! ## Cutting the loop (R255, log entry 4) -/

/-- The state with another loop mark. -/
abbrev withLoop (x : Option Loop) (s : State) : State := { s with loop := x }

theorem readNextFrame_withLoop (x : Option Loop) (s : State) :
    readNextFrame (withLoop x s) = ((readNextFrame s).1, withLoop x (readNextFrame s).2) := by
  have hr : ∀ addr n (s : State), regRead addr n (withLoop x s) =
    ((regRead addr n s).1, withLoop x (regRead addr n s).2) := fun _ _ _ => rfl
  unfold readNextFrame
  rw [hr, show (withLoop x s).cfg = s.cfg from rfl]
  rcases regRead s.cfg.regFifo 3 s with ⟨_ | b, s1⟩
  · rfl
  · dsimp only
    rw [show (withLoop x s1).cfg = s1.cfg from rfl]
    split
    · rw [hr]
      rcases regRead s1.cfg.regFifo _ s1 with ⟨_ | d, s2⟩ <;> rfl
    · rfl

theorem dispatchMessage_withLoop (f : RxFrame) (x : Option Loop) (s : State) :
    dispatchMessage f (withLoop x s) = ((dispatchMessage f s).1, withLoop x (dispatchMessage f s).2) := by
  have hq : ∀ index ma (s : State), (requestCapability index ma (withLoop x s)).2 =
      withLoop x (requestCapability index ma s).2 := by
    intro index ma s
    rw [requestCapability_eq, requestCapability_eq]
    dsimp only [withLoop]
    rw [show ({ s with loop := x } : State).nextDraw = s.nextDraw from rfl]
    split <;> rfl
  unfold dispatchMessage onSourceCapabilities
  dsimp only
  rw [show (withLoop x s).cfg = s.cfg from rfl]
  split
  · rfl
  · split
    · split
      · rfl
      · refine Prod.ext rfl ?_
        exact hq _ _ { s with seq := { s.seq.storing _ _ with srccapseen := true } }
    · rfl

/-- A pass of the message loop neither reads nor writes the mark of a loop in progress. -/
theorem messagePass_withLoop (x : Option Loop) (s : State) :
    messagePass (withLoop x s) = ((messagePass s).1, withLoop x (messagePass s).2) := by
  have hr : regRead s.cfg.regStatus1 1 (withLoop x s) =
    ((regRead s.cfg.regStatus1 1 s).1, withLoop x (regRead s.cfg.regStatus1 1 s).2) := rfl
  unfold messagePass
  rw [show (withLoop x s).cfg = s.cfg from rfl, hr]
  rcases regRead s.cfg.regStatus1 1 s with ⟨_ | b, s1⟩
  · rfl
  · dsimp only
    rw [show (withLoop x s1).cfg = s1.cfg from rfl]
    split
    · rfl
    · rw [readNextFrame_withLoop]
      rcases readNextFrame s1 with ⟨_ | f, s2⟩
      · rfl
      · dsimp only
        rw [dispatchMessage_withLoop]

theorem messageLoop_withLoop (x : Option Loop) : ∀ (n : Nat) (saw : Bool) (s : State),
    messageLoop n saw (withLoop x s) = ((messageLoop n saw s).1, withLoop x (messageLoop n saw s).2)
  | 0, _, _ => rfl
  | n + 1, saw, s => by
    unfold messageLoop
    rw [messagePass_withLoop]
    rcases messagePass s with ⟨_ | seen, s1⟩
    · rfl
    · exact messageLoop_withLoop x n _ s1

/-- Passes of the loop that end it are the uncut loop. -/
theorem loopRuns_of_messageLoop : ∀ {n : Nat} {saw all : Bool} {s u : State},
    messageLoop n saw s = (.ended all, u) → LoopRuns saw s all u
  | 0, _, _, _, _, h => by cases h
  | n + 1, saw, all, s, u, h => by
    unfold messageLoop at h
    rcases hp : messagePass s with ⟨_ | seen, s1⟩ <;> rw [hp] at h
    · cases h; exact .ends hp
    · exact .goesOn hp (loopRuns_of_messageLoop h)

/-- The uncut loop that ends does so after some number of passes. -/
theorem messageLoop_of_loopRuns {saw all : Bool} {s u : State} (h : LoopRuns saw s all u) :
    ∃ n, messageLoop n saw s = (.ended all, u) := by
  induction h with
  | ends hp => exact ⟨1, by unfold messageLoop; rw [hp]⟩
  | goesOn hp _ ih =>
    obtain ⟨n, e⟩ := ih
    exact ⟨n + 1, by unfold messageLoop; rw [hp]; exact e⟩

/-- `m + n` passes are `m` passes and, if the loop goes on, `n` more. -/
theorem messageLoop_add (m n : Nat) (saw : Bool) (s : State) :
    messageLoop (m + n) saw s =
      match messageLoop m saw s with
      | (.ended all, u) => (.ended all, u)
      | (.goesOn saw', u) => messageLoop n saw' u := by
  induction m generalizing saw s with
  | zero => rw [Nat.zero_add]; rfl
  | succ m ih =>
    have hs : ∀ k, messageLoop (k + 1) saw s =
        match messagePass s with
        | (none, s1) => (.ended saw, s1)
        | (some seen, s1) => messageLoop k (saw || seen) s1 := fun _ => rfl
    rw [Nat.succ_add, hs, hs]
    rcases messagePass s with ⟨_ | seen, s1⟩
    · rfl
    · exact ih _ _

/-- Everything running a loop can do: end, and return to its caller; or stay in progress. -/
theorem runLoop_cases (l : Loop) :
    let r := messageLoop (s.env.script.length + 1) l.saw s
    (∃ saw, r.1 = .ended saw ∧ runLoop l s = loopReturns l.caller saw r.2) ∨
    (∃ saw, r.1 = .goesOn saw ∧ runLoop l s = { r.2 with loop := some { l with saw := saw } }) := by
  intro r
  rcases h : r with ⟨saw | saw, s1⟩
  · left
    refine ⟨saw, rfl, ?_⟩
    unfold runLoop
    rw [show messageLoop (s.env.script.length + 1) l.saw s = (.ended saw, s1) from h]
  · right
    refine ⟨saw, rfl, ?_⟩
    unfold runLoop
    rw [show messageLoop (s.env.script.length + 1) l.saw s = (.goesOn saw, s1) from h]

/-- Everything the exit test of WaitSourceCapabilities can do (R192). -/
theorem afterWait_cases (saw : Bool) :
    (saw = true ∧ afterWait saw s = { s with seq := { s.seq with nstate := .connected } }) ∨
    (saw = false ∧ (afterWait saw s = (nowMs s).2 ∨
      afterWait saw s = { (nowMs s).2 with seq := { s.seq with nstate := .enableTransceiver } })) := by
  cases saw
  · right
    refine ⟨rfl, ?_⟩
    unfold afterWait
    simp only [Bool.false_eq_true, if_false]
    split
    · exact .inr rfl
    · exact .inl rfl
  · exact .inl ⟨rfl, rfl⟩

/-- Everything the end of a loop can do: the result and the loop's mark apart, only `UPDATE` in
WaitSourceCapabilities does more. -/
theorem loopReturns_cases (caller : Caller) (saw : Bool) :
    (∃ r, loopReturns caller saw s = { s with loop := none, result := r }) ∨
    (caller = .update ∧ s.seq.nstate = .waitSourceCapabilities ∧
      loopReturns caller saw s = returnsNstate (afterWait saw { s with loop := none })) := by
  have he : ∀ n, s.seq.nstate = n → n ≠ .waitSourceCapabilities →
      loopReturns .update saw s = { s with loop := none, result := .state s.seq.nstate } := by
    intro n h hn
    unfold loopReturns
    simp only [h]
    cases n <;> first | exact absurd rfl hn | simp only [returnsNstate, State.returns, h]
  cases caller
  · by_cases h : s.seq.nstate = .waitSourceCapabilities
    · refine .inr ⟨rfl, h, ?_⟩
      unfold loopReturns
      simp only [h]
    · exact .inl ⟨_, he _ rfl h⟩
  · exact .inl ⟨_, rfl⟩

/-! ## Ticks (R188, R189, R191) -/

theorem chipAction_ok (a : ChipAction) (h : s.nextDraw.ok = true) :
    chipAction a s = (none, (chipAction a s).2) :=
  Prod.ext (by rw [chipAction_fst, if_pos h]) rfl

theorem chipAction_failed (a : ChipAction) (h : s.nextDraw.ok = false) :
    ∃ cause, chipAction a s = (some cause, (chipAction a s).2) :=
  ⟨_, Prod.ext (by rw [chipAction_fst, h]; rfl) rfl⟩

theorem ccLevelRead_ok (h : s.nextDraw.ok = true) :
    ccLevelRead s = (some s.nextDraw.level, (ccLevelRead s).2) :=
  Prod.ext (by rw [ccLevelRead_fst, if_pos h]) rfl

theorem ccLevelRead_failed (h : s.nextDraw.ok = false) : ccLevelRead s = (none, (ccLevelRead s).2) :=
  Prod.ext (by rw [ccLevelRead_fst, h]; rfl) rfl

/-- Everything a tick in Start can do. -/
theorem tickStart_eq :
    tickStart s =
      let s1 := (chipAction .chipInit s).2
      let s2 := (chipAction (.ccMeasureStart .cc1) s1).2
      if s.nextDraw.ok then
        if s1.nextDraw.ok then
          { (nowMs s2).2 with seq := { s.seq with
              ccmeas := .cc1, ccsaved := none, tsettle := (nowMs s2).1, nstate := .detectCc } }
        else s2
      else s1 := by
  unfold tickStart
  dsimp only
  cases h1 : s.nextDraw.ok
  · obtain ⟨cause, e⟩ := chipAction_failed s .chipInit h1
    rw [e]
    simp
  · rw [chipAction_ok s .chipInit h1]
    dsimp only
    generalize hs1 : (chipAction .chipInit s).2 = s1
    have hq : s1.seq = s.seq := by rw [← hs1, chipAction_seq]
    cases h2 : s1.nextDraw.ok
    · obtain ⟨cause, e⟩ := chipAction_failed s1 (.ccMeasureStart .cc1) h2
      rw [e]
      simp
    · rw [chipAction_ok s1 _ h2]
      simp [hq]

/-- Everything a tick in DetectCc with a settled level can do. -/
theorem tickLevel_eq (level : Nat) :
    tickLevel level s =
      let s1 := (chipAction (.ccMeasureStart (otherPin s.seq.ccmeas)) s).2
      if s.seq.ccsaved ≠ none ∧ s.seq.ccsaved ≠ some level then
        { s with seq := { s.seq with
            ccpin := some (if s.seq.ccsaved.getD 0 < level then s.seq.ccmeas else otherPin s.seq.ccmeas),
            nstate := .enableTransceiver } }
      else if s.nextDraw.ok then
        { (nowMs s1).2 with seq := { s.seq with
            ccsaved := some level, ccmeas := otherPin s.seq.ccmeas, tsettle := (nowMs s1).1 } }
      else s1 := by
  unfold tickLevel
  dsimp only
  split
  · rfl
  · cases h1 : s.nextDraw.ok
    · obtain ⟨cause, e⟩ := chipAction_failed s (.ccMeasureStart (otherPin s.seq.ccmeas)) h1
      rw [e]
      simp
    · rw [chipAction_ok s _ h1]
      simp

/-- Everything a tick in DetectCc can do. -/
theorem tickDetectCc_eq :
    tickDetectCc s =
      let s1 := (nowMs s).2
      let s2 := (ccLevelRead s1).2
      if elapsedMs s.cfg (nowMs s).1 s.seq.tsettle < s.cfg.tCcSettleMs then s1
      else if s1.nextDraw.ok then tickLevel s1.nextDraw.level s2
      else s2 := by
  unfold tickDetectCc
  dsimp only
  rw [nowMs_cfg, nowMs_seq]
  by_cases h : elapsedMs s.cfg (nowMs s).1 s.seq.tsettle < s.cfg.tCcSettleMs
  · rw [if_pos h, if_pos h]
  · rw [if_neg h, if_neg h]
    cases h1 : (nowMs s).2.nextDraw.ok
    · rw [ccLevelRead_failed _ h1]
      simp
    · rw [ccLevelRead_ok _ h1]
      simp

/-- Everything a tick in EnableTransceiver with its pin can do. -/
theorem tickEnable_eq (pin : CcPin) :
    tickEnable pin s =
      let s1 := (chipAction (.transceiverEnable pin) s).2
      if s.nextDraw.ok then
        { (nowMs s1).2 with seq := { s.seq with
            twait := (nowMs s1).1, nstate := .waitSourceCapabilities } }
      else s1 := by
  unfold tickEnable
  dsimp only
  cases h1 : s.nextDraw.ok
  · obtain ⟨cause, e⟩ := chipAction_failed s (.transceiverEnable pin) h1
    rw [e]
    simp
  · rw [chipAction_ok s _ h1]
    simp

end Sys2Proof.Machine
end

