-- ==== Sys2Proof/Tests/Slice0.lean ====
section
/-!
SUPPORT. The model's own tests: each check of `WellFormed`, decoding of words written out from the
encodings, the vectors of `spec/95_test_vectors.md`, and a witness for every statement with hypotheses.
Expected values come from the spec's files, or by hand from the rule a test names.
-/

namespace Sys2Proof.Tests

open Sys2Proof Sys2Proof.Machine

/-! ## Helpers -/

/-- The default parameters, with a value for each open one. -/
def params : Params :=
  { Config.defaults with tXactDelayUs := 5, tSrccapTimeoutMs := 310, tCcSettleMs := 250 }

/-- An answer that succeeds and says nothing else. -/
def yes : Draw :=
  { arrive := [], drain := 0, ok := true, data := [], moved := 0, readFault := false, level := 0, elapsed := 0 }

/-- An answer that fails. -/
def no : Draw := { yes with ok := false }

/-- A register read that answers one byte. -/
def gives (b : Byte) : Draw := { yes with data := [b] }

/-- A clock reading, `ms` after the one before. -/
def later (ms : Nat) : Draw := { yes with elapsed := ms }

/-- The machine after reset, with the environment's next answers. -/
def machine (script : List Draw) : State :=
  { State.reset with cfg := params, env := { script := script, draws := 0, clock := 0 } }

/-- The machine in a state of the sequencer, with bytes in the receive FIFO. -/
def inState (n : NegState) (queue : List Byte) (script : List Draw) : State :=
  { machine script with
    seq := { Sequencer.reset with nstate := n, ccpin := some .cc1 }
    chip := { rxFifo := queue, txFifo := [], regs := [] } }

/-- What a function of the next state gives, where there is one. -/
def after {α : Type} (f : State → α) : Host.Outcome State Fault Refusal → Option α
  | .next t => some (f t)
  | .fault _ => none
  | .refused _ => none

/-- Why an instruction was refused. -/
def refusal : Host.Outcome State Fault Refusal → Option Refusal
  | .next _ => none
  | .fault _ => none
  | .refused r => some r

/-- The value of a successful parse. -/
def parsed {α : Type} : Except Rejection α → Option α
  | .ok a => some a
  | .error _ => none

/-! ## Ill-formed instructions (R99) -/

theorem test_refuses_packreq_index_0 : WellFormed (.packreq 0 1500) = false := by decide
theorem test_refuses_packreq_current_10240 : WellFormed (.packreq 1 10240) = false := by decide
theorem test_refuses_reqcap_index_0 : WellFormed (.reqcap 0 1500) = false := by decide
theorem test_refuses_reqcap_current_10240 : WellFormed (.reqcap 7 10240) = false := by decide
theorem test_refuses_regwrn_of_nothing : WellFormed (.regwrn 0x04 []) = false := by decide
theorem test_refuses_regrdn_of_nothing : WellFormed (.regrdn 0x40 0) = false := by decide
theorem test_refuses_wrmsg_without_its_object : WellFormed (.wrmsg 0x1042 1 []) = false := by decide
theorem test_refuses_rdframe_buffer_29 : WellFormed (.rdframe (List.replicate 29 0)) = false := by decide
theorem test_refuses_tx_frame_8_objects : WellFormed (.txFrame 0 (List.replicate 8 0)) = false := by decide
theorem test_refuses_rx_frame_wrong_count : WellFormed (.rxFrame 0 0x2161 [0] 0 0 0 0) = false := by decide

/-! ## Decoding of words written out from the encodings -/

/-- Codes of R102; operands as in log entry 1. -/
theorem test_decode_codec :
    parsed (decode [0x10, 2, 1, 0, 0, 2, 4]) = some (.packhdr 2 1 0 none (some 1) (some 3), []) ∧
    parsed (decode [0x11, 0x61, 0x0A]) = some (.unpackhdr 0x0A61, []) ∧
    parsed (decode [0x12, 0x2C, 0x91, 0x01, 0x00]) = some (.unpackcap 0x0001912C, []) ∧
    parsed (decode [0x13, 0x61, 0x0A]) = some (.pack16le 0x0A61, []) ∧
    parsed (decode [0x14, 0x61, 0x0A]) = some (.unpack16le 0x61 0x0A, []) ∧
    parsed (decode [0x15, 0xCD, 0xAB, 0x34, 0x12]) = some (.pack32le 0x1234ABCD, []) ∧
    parsed (decode [0x16, 0xCD, 0xAB, 0x34, 0x12]) = some (.unpack32le 0xCD 0xAB 0x34 0x12, []) ∧
    parsed (decode [0x17, 1, 0xD0, 0x07]) = some (.packreq 2 2000, []) := by decide

theorem test_decode_transport :
    parsed (decode [0x20, 0x04, 0x60]) = some (.regwr1 0x04 0x60, []) ∧
    parsed (decode [0x21, 0x43, 1, 0x12, 0x13, 0xFF]) = some (.regwrn 0x43 [0x12, 0x13], [0xFF]) ∧
    parsed (decode [0x22, 0x41]) = some (.regrd1 0x41, []) ∧
    parsed (decode [0x23, 0x43, 2]) = some (.regrdn 0x43 3, []) ∧
    parsed (decode [0x24, 0x61, 0x0A, 1, 0, 0xCD, 0xAB, 0x34, 0x12]) =
      some (.wrmsg 0x0A61 1 [0x1234ABCD], []) ∧
    parsed (decode (0x25 :: 0 :: List.replicate 30 0xAA)) = some (.rdframe (List.replicate 30 0xAA), []) := by
  decide

theorem test_decode_sampler_and_sequencer :
    parsed (decode [0x30]) = some (.vbusstep, []) ∧
    parsed (decode [0x40]) = some (.init, []) ∧
    parsed (decode [0x41]) = some (.reset, []) ∧
    parsed (decode [0x42]) = some (.update, []) ∧
    parsed (decode [0x43, 0, 0xDC, 0x05]) = some (.reqcap 1 1500, []) ∧
    parsed (decode [0x44]) = some (.getcaps, []) ∧
    parsed (decode [0x45]) = some (.curcap, []) ∧
    parsed (decode [0x46]) = some (.pwrstable, []) ∧
    parsed (decode [0x47]) = some (.getccpin, []) := by decide

/-- Wire values of R80 to R95, bytes as on the wire. -/
theorem test_decode_wire :
    parsed (decodeFormat params .header16 [0x61, 0x21]) = some (.header16 2 0 1 1 1 1) ∧
    parsed (decodeFormat params .capability32 [0x2C, 0x91, 0x41, 0x36]) =
      some (.capability32 0 1 1 0 1 1 0 1 0 100 300) ∧
    parsed (decodeFormat params .request32 [0xC8, 0x20, 0x03, 0x21]) = some (.request32 2 200 200) ∧
    parsed (decodeFormat params .txPacksym [0x9E]) = some (.txPacksym 30) ∧
    parsed (decodeFormat params .rxSop [0xFF]) = some (.rxSop 31) ∧
    parsed (decodeFormat params .measure8 [0x67]) = some (.measure8 39) := by decide

theorem test_decode_frames :
    parsed (decodeFormat params .txFrame
      [0x12, 0x12, 0x12, 0x13, 0x86, 0x61, 0x0A, 0xCD, 0xAB, 0x34, 0x12, 0xFF, 0x14, 0xFE, 0xA1]) =
      some (.txFrame 0x0A61 [0x1234ABCD]) ∧
    parsed (decodeFormat params .rxFrame
      [0xE0, 0x61, 0x21, 0x96, 0x90, 0x01, 0x00, 0xC8, 0xD0, 0x02, 0x00, 0xC0, 0xC1, 0xC2, 0xC3]) =
      some (.rxFrame 0 0x2161 [0x00019096, 0x0002D0C8] 0xC0 0xC1 0xC2 0xC3) := by decide

/-- No code (R103), a start-of-frame byte with top bits 110, a measure byte with bit 7 set. -/
theorem test_decode_refuses :
    parsed (decode [0x18]) = none ∧ parsed (decode [0x26]) = none ∧ parsed (decode [0x48]) = none ∧
    parsed (decodeFormat params .rxSop [0xC0]) = none ∧
    parsed (decodeFormat params .measure8 [0xC0]) = none ∧
    parsed (decodeFormat params .request32 [0, 0, 0, 0]) = none := by decide

/-- The internal row has no bits: `PROCMSG` (R102). -/
theorem test_decode_procmsg : decodeTableWord 0 0 = some .procmsg := by decide

theorem test_table_words :
    decodeTableWord 8 0x25 = some (.rdframe (List.replicate 30 0)) ∧
    decodeTableWord 8 0x23 = some (.regrdn 0 1) ∧
    decodeTableWord 8 0x86 = some (.txPacksym 6) ∧
    decodeTableWord 16 0x1042 = some (.header16 1 0 0 1 0 2) ∧
    decodeTableWord 32 0x11025896 = some (.request32 1 150 150) ∧
    decodeTableWord 32 0x0001912C = some (.capability32 0 0 0 0 0 0 0 0 0 100 300) := by decide

/-! ## Codec (vectors of section 2) -/

theorem test_packhdr_example : after State.result (exec (.packhdr 1 0 5 none (some 1) none) (machine [])) =
    some (.half 0x0A61) := by decide
theorem test_packhdr_largest :
    after State.result (exec (.packhdr 31 7 7 (some 1) (some 1) (some 3)) (machine [])) =
      some (.half 0x7FFF) := by decide
theorem test_unpackhdr_ignores_bit_15 : after State.result (exec (.unpackhdr 0xA161) (machine [])) =
    some (.headerFields { ndo := 2, id := 0, type := 1 }) := by decide
theorem test_unpackcap_flags : after State.result (exec (.unpackcap 0x3641912C) (machine [])) =
    some (.capability (.mk 0 true true false true true false 0 5000 3000)) := by decide
theorem test_unpackcap_augmented : after State.result (exec (.unpackcap 0xC8DC8320) (machine [])) =
    some (.capability (.mk 3 false false true false false false 1 40000 8000)) := by decide
theorem test_capability_kinds : (capKind params 0, capKind params 1, capKind params 2, capKind params 3) =
    (some .fixedSupply, some .battery, some .variableSupply, some .augmented) := by decide
theorem test_pack16le : after State.result (exec (.pack16le 0x0A61) (machine [])) =
    some (.bytes [0x61, 0x0A]) := by decide
theorem test_unpack16le : after State.result (exec (.unpack16le 0x61 0x0A) (machine [])) =
    some (.half 0x0A61) := by decide
theorem test_pack32le : after State.result (exec (.pack32le 0x1234ABCD) (machine [])) =
    some (.bytes [0xCD, 0xAB, 0x34, 0x12]) := by decide
theorem test_unpack32le : after State.result (exec (.unpack32le 0xCD 0xAB 0x34 0x12) (machine [])) =
    some (.word 0x1234ABCD) := by decide
theorem test_packreq_truncates : after State.result (exec (.packreq 1 1509) (machine [])) =
    some (.word 0x11025896) := by decide
theorem test_packreq_largest : after State.result (exec (.packreq 7 10239) (machine [])) =
    some (.word 0x710FFFFF) := by decide

/-! ## Transport (vectors of section 3) -/

/-- A register holds the byte written to it; after a failure it holds no known byte. -/
theorem test_regwr1_holds : after (fun t => t.chip.regs) (exec (.regwr1 0x04 0x60) (machine [yes])) =
    some [(4, 0x60)] := by decide
theorem test_regwr1_fails : after State.result (exec (.regwr1 0x04 0x60) (machine [no])) =
    some (.fail .ioWrite) := by decide
theorem test_regwrn_one_transaction :
    after State.trace (exec (.regwrn 0x43 [0x12, 0x13]) (machine [yes])) =
      some [.write 0x43 [0x12, 0x13] true, .delay 5] := by decide
theorem test_regrd1_reads : after State.result (exec (.regrd1 0x41) (machine [gives 0x20])) =
    some (.byte 0x20) := by decide
theorem test_regrdn_takes_from_fifo :
    after (fun t => (t.result, t.chip.rxFifo))
      (exec (.regrdn 0x43 2) (inState .start [0xE0, 0x63, 0x03] [yes])) =
      some (.bytes [0xE0, 0x63], [0x03]) := by decide

/-- The packed symbol counts the objects sent, and what is not sent is not written: row 4 of the table. -/
theorem test_wrmsg_sends_first_objects :
    after State.trace
      (exec (.wrmsg 0x2042 2 [0xAABBCCDD, 0x11223344, 0x00000055]) (machine [yes])) =
      some [.write 0x43 [0x12, 0x12, 0x12, 0x13, 0x8A, 0x42, 0x20, 0xDD, 0xCC, 0xBB, 0xAA, 0x44, 0x33, 0x22,
        0x11, 0xFF, 0x14, 0xFE, 0xA1] true, .delay 5] := by decide

/-- Row 2 of the table: header and data in the buffer, the rest of it unchanged, the CRC gone. -/
theorem test_rdframe_two_objects :
    after (fun t => (t.result, t.chip.rxFifo)) (exec (.rdframe (List.replicate 30 0xAA)) (inState .start
      [0xE0, 0x61, 0x21, 0x2C, 0x91, 0x01, 0x08, 0xC8, 0xD0, 0x02, 0x00, 0xC0, 0xC1, 0xC2, 0xC3] [yes, yes])) =
      some (.frame ([0x61, 0x21, 0x2C, 0x91, 0x01, 0x08, 0xC8, 0xD0, 0x02, 0x00] ++ List.replicate 20 0xAA),
        []) := by decide

/-- Row 4: a frame that does not start with the pattern leaves the body in the FIFO. -/
theorem test_rdframe_mismatch :
    after (fun t => (t.trace, t.chip.rxFifo)) (exec (.rdframe (List.replicate 30 0)) (inState .start
      [0x40, 0x61, 0x21, 0x96, 0x90, 0x01, 0x00, 0xC0, 0xC1, 0xC2, 0xC3] [yes])) =
      some ([.read 0x43 3 (some [0x40, 0x61, 0x21]), .delay 5],
        [0x96, 0x90, 0x01, 0x00, 0xC0, 0xC1, 0xC2, 0xC3]) := by decide

/-! ## Sampler (vectors of section 4) -/

/-- The machine with a state of the search. -/
def searching (last : Option (BitVec 6)) (step : Int) (widen lastComp : Bool) (script : List Draw) : State :=
  { machine script with vs := { last := last, step := step, widen := widen, lastComp := lastComp } }

/-- Call 1 of program P4: code 32. -/
theorem test_vbusstep_first :
    after (fun t => (t.vs, t.result, t.trace)) (exec .vbusstep (machine [yes])) =
      some ({ last := some 32, step := 32, widen := false, lastComp := true }, .vbus none,
        [.write 0x04 [0x60] true, .delay 5]) := by decide

/-- Call 8 of program P4: convergence at code 40, 17220 mV. -/
theorem test_vbusstep_converges :
    after (fun t => (t.vs, t.result)) (exec .vbusstep (searching (some 40) 1 false true [gives 0x00, yes])) =
      some ({ last := some 39, step := -1, widen := true, lastComp := false }, .vbus (some 17220)) := by decide

/-! ## Sequencer (programs P2, P3, P6) -/

theorem test_init_fails_reading : after State.result (exec .init (machine [{ no with readFault := true }])) =
    some (.fail .ioRead) := by decide

/-- `RESET` clears the sequencer and leaves the sampler. -/
theorem test_reset_keeps_sampler :
    after (fun t => (t.seq.nstate, t.seq.ccpin, t.vs.last))
      (exec .reset { searching (some 40) 1 true true [] with
        seq := { Sequencer.reset with nstate := .connected, ccpin := some .cc2 } }) =
      some (.start, none, some 40) := by decide

/-- Tick 5 of program P2: the list, the automatic Request, Connected. -/
theorem test_update_source_capabilities :
    after (fun t => (t.seq.nstate, t.seq.capcount.val, t.seq.reqcap, t.seq.msgid, t.trace[6]?))
      (exec .update (inState .waitSourceCapabilities
        [0xE0, 0x61, 0x21, 0x96, 0x90, 0x01, 0x00, 0xC8, 0xD0, 0x02, 0x00, 0xC0, 0xC1, 0xC2, 0xC3]
        [gives 0x00, yes, yes, yes, gives 0x20])) =
      some (.connected, 2, 1, 1, some (.write 0x43 [0x12, 0x12, 0x12, 0x13, 0x86, 0x42, 0x10, 0x96, 0x58, 0x02,
        0x11, 0xFF, 0x14, 0xFE, 0xA1] true)) := by decide

/-- Tick 6 of program P2: Accept. -/
theorem test_update_accept :
    after (fun t => (t.seq.nstate, t.seq.curcap, t.chip.rxFifo))
      (exec .update { inState .connected [] [{ gives 0x00 with
          arrive := [0xE0, 0x63, 0x03, 0xC0, 0xC1, 0xC2, 0xC3] }, yes, yes, gives 0x20] with
        seq := { Sequencer.reset with nstate := .connected, reqcap := 1 } }) =
      some (.connected, 1, []) := by decide

/-- Variant B of program P3: header `0x1242`, and the message id goes to 2. -/
theorem test_reqcap_commits :
    after (fun t => (t.seq.reqcap, t.seq.pwrstable, t.seq.msgid, t.trace))
      (exec (.reqcap 2 2000) { machine [yes] with
        seq := { Sequencer.reset with reqcap := 1, curcap := 1, pwrstable := true, msgid := 1 } }) =
      some (2, false, 2, [.write 0x43 [0x12, 0x12, 0x12, 0x13, 0x86, 0x42, 0x12, 0xC8, 0x20, 0x03, 0x21, 0xFF,
        0x14, 0xFE, 0xA1] true, .delay 5]) := by decide

/-- Variant C: the write fails, nothing is committed. -/
theorem test_reqcap_fails :
    after (fun t => (t.result, t.seq.reqcap, t.seq.msgid)) (exec (.reqcap 2 2000) { machine [no] with
        seq := { Sequencer.reset with reqcap := 1, msgid := 1 } }) = some (.fail .ioWrite, 1, 1) := by decide

/-- A state with the two capabilities of program P2 listed. -/
def stable : State :=
  { machine [] with seq := { Sequencer.reset with
      caplist := (Vector.replicate 8 0).set 0 0x00019096 |>.set 1 0x0002D0C8
      capcount := 2, curcap := 1, pwrstable := true, ccpin := some .cc1 } }

theorem test_getcaps : after State.result (exec .getcaps stable) =
    some (.caps 2 [.mk 0 false false false false false false 0 5000 1500,
      .mk 0 false false false false false false 0 9000 2000]) := by decide
theorem test_curcap : after State.result (exec .curcap stable) = some (.index 1) := by decide
theorem test_pwrstable : after State.result (exec .pwrstable stable) = some (.stable true) := by decide
theorem test_getccpin : after State.result (exec .getccpin stable) = some (.pin 1) := by decide

/-- Program P7's start: the second status read fails, the Accept's effect is kept. -/
theorem test_procmsg_status_read_fails :
    after (fun t => (t.result, t.seq.curcap, t.chip.rxFifo))
      (exec .procmsg { inState .connected
          [0xE0, 0x63, 0x03, 0xC0, 0xC1, 0xC2, 0xC3, 0xE0, 0x66, 0x05, 0xC0, 0xC1, 0xC2, 0xC3]
          [gives 0x00, yes, yes, no] with
        seq := { Sequencer.reset with nstate := .connected, reqcap := 1 } }) =
      some (.saw false, 1, [0xE0, 0x66, 0x05, 0xC0, 0xC1, 0xC2, 0xC3]) := by decide

/-! ## Wire formats -/

theorem test_header16_bytes : after State.result (exec (.header16 2 0 1 1 1 1) (machine [])) =
    some (.wire [0x61, 0x21] (.header { ndo := 2, id := 0, type := 1 })) := by decide
theorem test_capability32_bytes :
    after State.result (exec (.capability32 0 0 0 0 0 0 0 0 0 100 150) (machine [])) =
      some (.wire [0x96, 0x90, 0x01, 0x00]
        (.capability (.mk 0 false false false false false false 0 5000 1500))) := by decide
theorem test_request32_bytes : after State.result (exec (.request32 3 90 90) (machine [])) =
    some (.wire [0x5A, 0x68, 0x01, 0x31] .notRead) := by decide
theorem test_tx_packsym_byte : after State.result (exec (.txPacksym 30) (machine [])) =
    some (.wire [0x9E] .notRead) := by decide
theorem test_tx_frame_bytes : after State.result (exec (.txFrame 0x0443 []) (machine [])) =
    some (.wire [0x12, 0x12, 0x12, 0x13, 0x82, 0x43, 0x04, 0xFF, 0x14, 0xFE, 0xA1] .notRead) := by decide
theorem test_rx_sop_byte : after State.result (exec (.rxSop 31) (machine [])) =
    some (.wire [0xFF] (.sop true)) := by decide
theorem test_rx_frame_bytes : after State.result (exec (.rxFrame 0 0x0363 [] 0xC0 0xC1 0xC2 0xC3) (machine [])) =
    some (.wire [0xE0, 0x63, 0x03, 0xC0, 0xC1, 0xC2, 0xC3] (.payload [0x63, 0x03])) := by decide
theorem test_measure8_byte : after State.result (exec (.measure8 40) (machine [])) =
    some (.wire [0x68] .notRead) := by decide

/-! ## Witnesses: for each statement with hypotheses, a state and operands that meet all of them -/

/-- A state is legal, from what decides it. -/
theorem legal_of {s : State} (h1 : s.cfg.Ok) (h2 : s.seq.capcount.val = 0) (h3 : s.seq.ccpin ≠ none)
    (h4 : s.seq.tsettle < 2 ^ s.cfg.clockWidth ∧ s.seq.twait < 2 ^ s.cfg.clockWidth)
    (h5 : s.vs.step.natAbs ∈ [1, 2, 4, 8, 16, 32, 64])
    (h6 : ∀ code, s.vs.last = some code → code.toNat < s.cfg.vbusMaxCode ∧
      (0 < s.vs.step ↔ s.vs.lastComp = true) ∧ (0 < s.vs.step → 1 ≤ code.toNat) ∧
      (s.vs.step < 0 → code.toNat + 1 < s.cfg.vbusMaxCode))
    (h7 : s.chip.regs.Wf) : s.Legal :=
  ⟨h1, ⟨by omega, fun _ => h3, h4.1, h4.2, fun h => absurd h2 h⟩, ⟨h5, h6⟩, h7⟩

theorem test_params_ok : params.Ok := by decide

theorem test_witness_StepRunsDecodedCommand :
    let s := { machine [] with port := [0x45, 0x30] }
    s.loop = none ∧ s.wire = [] ∧ s.port = 0x45 :: [0x30] ∧
      decode (0x45 :: [0x30]) = .ok (.curcap, [0x30]) := ⟨rfl, rfl, rfl, rfl⟩

theorem test_witness_StepTakesLoopValueOrIdles :
    let looping := { machine [] with loop := some { saw := false, caller := .update } }
    let valued := { machine [] with wire := [{ format := .rxSop, bytes := [0xE0] }] }
    looping.loop = some { saw := false, caller := .update } ∧
    (valued.loop = none ∧ valued.wire = [{ format := .rxSop, bytes := [0xE0] }] ∧
      decodeFormat valued.cfg .rxSop [0xE0] = .ok (.rxSop 0)) ∧
    ((machine []).loop = none ∧ (machine []).wire = [] ∧ (machine []).port = []) :=
  ⟨rfl, ⟨rfl, rfl, rfl⟩, rfl, rfl, rfl⟩

theorem test_witness_UnknownCodeIsRefused :
    let s := { machine [] with port := [0x48] }
    s.loop = none ∧ s.wire = [] ∧ s.port = 0x48 :: [] ∧ ∀ o : Op, o.code ≠ 0x48 :=
  ⟨rfl, rfl, rfl, fun o => by cases o <;> decide⟩

/-- The least refused byte of each operand, and the greatest accepted byte before it (a role or a revision is
its value plus 1); the current 10240 is `00 28`. A state for each refusal by `step`. -/
theorem test_witness_PortRefusesWideOperands :
    (32 ≤ (32 : Byte).toNat) ∧ ((31 : Byte).toNat < 32 ∧ 8 ≤ (8 : Byte).toNat) ∧
    ((31 : Byte).toNat < 32 ∧ (7 : Byte).toNat < 8 ∧ 8 ≤ (8 : Byte).toNat) ∧ (7 ≤ (7 : Byte).toNat) ∧
    ((6 : Byte).toNat < 7 ∧ 10240 ≤ (0x00 : Byte).toNat + 256 * (0x28 : Byte).toNat) ∧
    ((2 : Byte).toNat < 3 ∧ 3 ≤ (3 : Byte).toNat ∧ 5 ≤ (5 : Byte).toNat) := by decide

theorem test_witness_PortRefusesWideOperands_step :
    let commanded := { machine [] with port := [0x10, 32] }
    let valued := { machine [] with wire := [{ format := .rxSop, bytes := [0xC0] }] }
    (commanded.loop = none ∧ commanded.wire = [] ∧ commanded.port = 0x10 :: [32] ∧
      decode (0x10 :: [32]) = .error .messageType) ∧
    (valued.loop = none ∧ valued.wire = [{ format := .rxSop, bytes := [0xC0] }] ∧
      ∃ why, decodeFormat valued.cfg .rxSop [0xC0] = .error why) :=
  ⟨⟨rfl, rfl, rfl, rfl⟩, rfl, rfl, _, rfl⟩

/-- The greatest role and revision bytes that are accepted: the roles 1 and revision 3. -/
theorem test_decode_widest_roles :
    parsed (decode [0x10, 31, 7, 7, 2, 2, 4]) = some (.packhdr 31 7 7 (some 1) (some 1) (some 3), []) := by
  decide

theorem test_witness_CallOutsideDomainIsRefused :
    WellFormed (.regrdn 0x40 0) = false ∧
      refusal (exec (.regrdn 0x40 0) (machine [])) = some .outOfDomain := by decide

theorem test_witness_EveryCallInDomainCompletes :
    let s := inState .enableTransceiver [] [yes, later 1]
    WellFormed .update = true ∧ s.seq.nstate = .enableTransceiver ∧ s.seq.ccpin ≠ none ∧
      after (fun t => t.seq.nstate) (exec .update s) = some .waitSourceCapabilities := by decide

/-- `PROCMSG` alone, and `UPDATE` with a loop, which return. -/
theorem test_witness_EveryCallInDomainCompletes_loop :
    WellFormed .procmsg = true ∧
    after (fun t => (t.loop, t.result)) (exec .procmsg (machine [no])) = some (none, .saw false) ∧
    (inState .connected [] [no]).loop = none ∧
    after (fun t => (t.loop, t.result)) (exec .update (inState .connected [] [no])) =
      some (none, .state .connected) := by decide

theorem test_witness_DecodeEncodeCommands :
    opOf (.packreq 7 10239) = some .packreq ∧ WellFormed (.packreq 7 10239) = true ∧
    opOf (.regwrn 0x43 [0x12]) = some .regwrn ∧ WellFormed (.regwrn 0x43 [0x12]) = true := by decide

theorem test_witness_DecodeEncodeFormats :
    params.Ok ∧ formatOf (.txFrame 0x7641 (List.replicate 7 0)) = some .txFrame ∧
    WellFormed (.txFrame 0x7641 (List.replicate 7 0)) = true ∧
    formatOf (.rxFrame 31 0x0363 [] 1 2 3 4) = some .rxFrame ∧
    WellFormed (.rxFrame 31 0x0363 [] 1 2 3 4) = true := by decide

theorem test_witness_StepKeepsLegal :
    let s := { inState .connected [] [] with port := [0x41] }
    s.Legal ∧ ∃ t, step s = .next t :=
  ⟨legal_of (by decide) rfl (by decide) (by decide) (by decide) (fun _ h => nomatch h) (by decide), _, rfl⟩

theorem test_witness_PackRequestPlacesFields : (7 : BitVec 3) ≠ 0 ∧ 10239 ≤ 10239 ∧
    (1 : BitVec 3) ≠ 0 ∧ 0 ≤ 10239 := by decide

theorem test_witness_CapabilityCurrentSurvivesRequest : (1 : BitVec 3) ≠ 0 := by decide

/-- A register and the FIFO; a success and a failure. -/
theorem test_witness_RegisterWriteOneByte :
    (0x04 : Byte) ≠ (machine [yes]).cfg.regFifo ∧ (0x43 : Byte) = (machine [yes]).cfg.regFifo ∧
    (machine [yes]).nextDraw.ok = true ∧ (machine [no]).nextDraw.ok = false := by decide

/-- One byte; at the FIFO; two bytes at a register. -/
theorem test_witness_RegisterWriteManyBytes :
    ([0x60] : List Byte) ≠ [] ∧ (0x43 : Byte) = (machine [yes]).cfg.regFifo ∧
    (0x04 : Byte) ≠ (machine [yes]).cfg.regFifo ∧ 2 ≤ ([0x60, 0x61] : List Byte).length := by decide

/-- `REGRD1` at the FIFO: a byte held, no byte held; at a register the FIFO keeps its bytes. -/
theorem test_witness_RegisterReadOneByte :
    let s := inState .start [0xE0, 0x63] [yes]
    let empty := inState .start [] [yes]
    (0x43 : Byte) = s.cfg.regFifo ∧ s.nextDraw.ok = true ∧ s.chip.rxFifo ++ s.nextDraw.arrive = 0xE0 :: [0x63] ∧
    empty.nextDraw.ok = true ∧ empty.chip.rxFifo ++ empty.nextDraw.arrive = [] ∧
    after (fun t => (t.result, t.chip.rxFifo)) (exec (.regrd1 0x43) s) = some (.byte 0xE0, [0x63]) ∧
    after (fun t => t.chip.rxFifo) (exec (.regrd1 0x41) s) = some [0xE0, 0x63] := by decide

/-- At a register and at the FIFO, the read succeeding and failing. -/
theorem test_witness_RegisterReads :
    1 ≤ 1 ∧ (0x41 : Byte) ≠ (machine [yes]).cfg.regFifo ∧ (0x43 : Byte) = (machine [yes]).cfg.regFifo ∧
    (machine [yes]).nextDraw.ok = true ∧ (machine [no]).nextDraw.ok = false := by decide

theorem test_witness_WriteMessageSendsFrame :
    (0 : BitVec 3).toNat ≤ ([] : List Word).length ∧
      (7 : BitVec 3).toNat ≤ (List.replicate 7 (0 : Word)).length := by decide

/-- The four outcomes of `RDFRAME`, each with a buffer of 30 bytes: what the record and the FIFO hold. A failed
read that took 2 bytes; a mismatch, `0xC0` next to the tag; the second read failing, and succeeding. -/
theorem test_witness_ReadFrameOutcomes :
    let buf : List Byte := List.replicate 30 0
    let queue : List Byte := [0xE0, 0x63, 0x03, 0xC0, 0xC1, 0xC2, 0xC3]
    let got : State → List Event × List Byte := fun t => (t.trace, t.chip.rxFifo)
    30 ≤ buf.length ∧
    after got (exec (.rdframe buf) (inState .start [0xE0, 0x63, 0x03] [{ no with moved := 2 }])) =
      some ([.read 0x43 3 none, .delay 5], [0x03]) ∧
    after got (exec (.rdframe buf) (inState .start (0xC0 :: queue.drop 1) [yes])) =
      some ([.read 0x43 3 (some [0xC0, 0x63, 0x03]), .delay 5], [0xC0, 0xC1, 0xC2, 0xC3]) ∧
    after got (exec (.rdframe buf) (inState .start queue [yes, { no with moved := 1 }])) =
      some ([.read 0x43 3 (some [0xE0, 0x63, 0x03]), .delay 5, .read 0x43 4 none, .delay 5],
        [0xC1, 0xC2, 0xC3]) ∧
    after got (exec (.rdframe buf) (inState .start (queue ++ [0x55]) [yes, yes])) =
      some ([.read 0x43 3 (some [0xE0, 0x63, 0x03]), .delay 5,
        .read 0x43 4 (some [0xC0, 0xC1, 0xC2, 0xC3]), .delay 5], [0x55]) := by decide

theorem test_witness_FrameLoopBack :
    let s := inState .start ([0xFF, 0x42, 0x10, 0x96, 0x58, 0x02, 0x11, 1, 2, 3, 4, 0x55]) [yes, yes]
    let payload := ((encode s.cfg (.txFrame 0x1042 [0x11025896])).drop 5).take (2 + 4 * 1)
    (0x1042 : Half).toNat / 4096 % 8 = ([0x11025896] : List Word).length ∧
    (0xFF : Byte) &&& s.cfg.rxSopMask = s.cfg.rxSopTag ∧ 30 ≤ (List.replicate 30 (0 : Byte)).length ∧
    s.env.script = yes :: yes :: [] ∧ yes.ok = true ∧
    s.chip.rxFifo = 0xFF :: (payload ++ [1, 2, 3, 4] ++ [0x55]) := by decide

/-- Narrowing and widening; the write succeeding and failing. -/
theorem test_witness_VbusFirstCall :
    (machine [yes]).cfg.Ok ∧ (machine [yes]).vs.last = none ∧ (machine [yes]).nextDraw.ok = true ∧
    (machine [no]).vs.last = none ∧ (machine [no]).nextDraw.ok = false ∧
    (searching none 8 true false [yes]).vs.last = none ∧
    (searching none 8 true false [yes]).vs.widen = true := by decide

/-- The read fails; both signs of convergence; no convergence; the write succeeding and failing. -/
theorem test_witness_VbusSampledCall :
    let unread := searching (some 40) 1 false true [no]
    let falling := searching (some 40) 1 false true [gives 0x00, yes]
    let rising := searching (some 0) (-1) true false [gives 0x20, yes]
    let moving := searching (some 63) 64 true true [gives 0x20, no]
    params.Ok ∧ unread.vs.last = some 40 ∧ (regRead unread.cfg.regStatus0 1 unread).1 = none ∧
    (falling.vs.last = some 40 ∧ (regRead falling.cfg.regStatus0 1 falling).1 = some [0x00] ∧
      falling.vs.step = 1 ∧ falling.vs.lastComp = true ∧
      decide ((0x00 : Byte) &&& falling.cfg.status0Comp ≠ 0) = false ∧
      (regRead falling.cfg.regStatus0 1 falling).2.nextDraw.ok = true) ∧
    (rising.vs.last = some 0 ∧ (regRead rising.cfg.regStatus0 1 rising).1 = some [0x20] ∧
      rising.vs.step = -1 ∧ rising.vs.lastComp = false ∧
      decide ((0x20 : Byte) &&& rising.cfg.status0Comp ≠ 0) = true) ∧
    (moving.vs.last = some 63 ∧ (regRead moving.cfg.regStatus0 1 moving).1 = some [0x20] ∧
      moving.vs.step = 64 ∧ (regRead moving.cfg.regStatus0 1 moving).2.nextDraw.ok = false) := by decide

theorem test_witness_VbusReportInRange :
    let s := { searching (some 40) 1 false true [gives 0x00, yes] with
      seq := { Sequencer.reset with ccpin := some .cc1 } }
    s.Legal ∧ ∃ t, exec .vbusstep s = .next t ∧ t.result = .vbus (some 17220) := by
  refine ⟨legal_of (by decide) rfl (by decide) (by decide) (by decide) ?_ (by decide), _, rfl, by decide⟩
  intro code h
  cases h
  decide

/-- What `State.SteadyCall` asks of a state, decided. -/
def steady (B : Nat) (s : State) : Bool :=
  match s.vs.last with
  | none => s.nextDraw.ok
  | some code =>
    match (regRead s.cfg.regStatus0 1 s).1 with
    | some [b] => decide (comparatorBit s.cfg [b] = decide (code.toNat < B)) &&
      (regRead s.cfg.regStatus0 1 s).2.nextDraw.ok
    | _ => false

/-- The state after a call of `VBUSSTEP`. -/
def sampled (s : State) : State := (updateVbus s).2.returns (.vbus (updateVbus s).1)

theorem steadyCall_of {B : Nat} {s : State} (h : steady B s = true) : State.SteadyCall B s (sampled s) := by
  refine ⟨rfl, ?_⟩
  unfold steady at h
  generalize s.vs.last = last at h ⊢
  rcases last with _ | code
  · exact h
  · dsimp only at h ⊢
    split at h
    · rename_i b hb
      rw [Bool.and_eq_true, decide_eq_true_eq] at h
      exact ⟨b, hb, h.1, h.2⟩
    · cases h

/-- `sampled`, `k` times. -/
def calls (s : State) : Nat → State
  | 0 => s
  | k + 1 => sampled (calls s k)

theorem test_witness_SamplerSteadyAlternation :
    let s := searching (some 40) 1 true true [gives 0x00, yes, gives 0x20, yes]
    s.cfg.Ok ∧ 1 ≤ 40 ∧ 40 < s.cfg.vbusMaxCode ∧ s.vs.last.map BitVec.toNat = some 40 ∧ s.vs.step = 1 ∧
      s.vs.lastComp = true ∧ State.SteadyCall 40 s (sampled s) ∧
      State.SteadyCall 40 (sampled s) (sampled (sampled s)) :=
  ⟨by decide, by decide, by decide, by decide, rfl, rfl, steadyCall_of (by decide), steadyCall_of (by decide)⟩

/-- The comparator's answers of program P4. -/
def p4 : State :=
  machine [yes, gives 0x20, yes, gives 0x00, yes, gives 0x00, yes, gives 0x20, yes, gives 0x20, yes,
    gives 0x20, yes, gives 0x00, yes]

theorem p4_steady : ∀ k : Fin 8, steady 40 (calls p4 k.val) = true := by decide

theorem test_witness_SamplerFindsBoundary :
    let s : Fin 9 → State := fun k => calls p4 k.val
    1 ≤ 40 ∧ 40 ≤ 63 ∧ (s 0).cfg.Ok ∧ (s 0).cfg.vbusMaxCode = 64 ∧ (s 0).cfg.vbusFullStep = 64 ∧
      (s 0).vs = VbusSearch.reset (s 0).cfg ∧
      ∀ k : Fin 8, State.SteadyCall 40 (s k.castSucc) (s k.succ) :=
  ⟨by decide, by decide, by decide, rfl, rfl, rfl, fun k => steadyCall_of (p4_steady k)⟩

/-- The outcomes of the chip action. -/
theorem test_witness_InitReportsChipOutcome :
    (machine [yes]).nextDraw.ok = true ∧ (machine [no]).nextDraw.ok = false := by decide

/-- State Start: the initialisation fails; the measurement fails; both succeed. -/
theorem test_witness_UpdateInStart :
    (machine []).seq.nstate = .start ∧ (machine [no]).nextDraw.ok = false ∧
    ((machine [yes, no]).nextDraw.ok = true ∧ (machine [yes, no]).takeDraw.nextDraw.ok = false) ∧
    ((machine [yes, yes]).nextDraw.ok = true ∧ (machine [yes, yes]).takeDraw.nextDraw.ok = true) := by decide

/-- State DetectCc with a saved level and a script. -/
def detecting (saved : Option Nat) (script : List Draw) : State :=
  { machine script with seq := { Sequencer.reset with nstate := .detectCc, ccsaved := saved } }

/-- Before the settle time (249 of 250 ms); at it: the level read fails; a different level is saved; none and
an equal one, the other pin's measurement failing and succeeding. -/
theorem test_witness_UpdateInDetectCc :
    let early := detecting none [later 249]
    let s := detecting (some 2) [later 250, { yes with level := 0 }]
    early.seq.nstate = .detectCc ∧ early.seq.tsettle < 2 ^ early.cfg.clockWidth ∧
    elapsedMs early.cfg 249 early.seq.tsettle = 249 ∧ 249 < early.cfg.tCcSettleMs ∧
    (detecting none [later 250, no]).takeDraw.nextDraw.ok = false ∧
    (s.seq.nstate = .detectCc ∧ s.cfg.tCcSettleMs ≤ (250 + 2 ^ s.cfg.clockWidth - s.seq.tsettle) %
      2 ^ s.cfg.clockWidth ∧ s.takeDraw.nextDraw.ok = true ∧ s.seq.ccsaved = some 2 ∧
      2 ≠ s.takeDraw.nextDraw.level) ∧
    after (fun t => t.seq.ccsaved) (exec .update (detecting none [later 250, yes, no])) = some none ∧
    after (fun t => t.seq.ccsaved) (exec .update (detecting none [later 250, yes, yes, later 1])) =
      some (some 0) ∧
    after (fun t => t.seq.ccmeas) (exec .update (detecting (some 0) [later 250, yes, yes, later 1])) =
      some .cc2 := by decide

theorem test_witness_TwoDetectTicksPickHigherPin :
    let high : Draw := { yes with level := 2 }
    let s := detecting none [later 250, high, yes, later 0, later 250, yes]
    s.seq.nstate = .detectCc ∧ s.seq.ccmeas = .cc1 ∧ s.seq.ccsaved = none ∧
    s.env.script = later 250 :: high :: yes :: later 0 :: later 250 :: yes :: [] ∧
    high.ok = true ∧ yes.ok = true ∧ high.level ≠ yes.level ∧
    s.cfg.tCcSettleMs ≤ elapsedMs s.cfg ((s.env.clock + (later 250).elapsed) % 2 ^ s.cfg.clockWidth)
      s.seq.tsettle ∧
    s.cfg.tCcSettleMs ≤ (later 250).elapsed ∧ (later 250).elapsed < 2 ^ s.cfg.clockWidth := by decide

theorem test_witness_UpdateInEnableTransceiver :
    let s := inState .enableTransceiver [] [yes]
    s.seq.nstate = .enableTransceiver ∧ s.seq.ccpin = some .cc1 ∧ s.nextDraw.ok = true ∧
    (inState .enableTransceiver [] [no]).nextDraw.ok = false := by decide

/-- The status read fails, or shows the FIFO empty; 310 ms (not yet) and 311 ms (timeout), program P6. -/
theorem test_witness_UpdateWaitTimesOut :
    let failing := inState .waitSourceCapabilities [] [no, later 310]
    let empty := inState .waitSourceCapabilities [] [gives 0x20, later 311]
    failing.seq.nstate = .waitSourceCapabilities ∧ failing.seq.twait < 2 ^ failing.cfg.clockWidth ∧
    (regRead failing.cfg.regStatus1 1 failing).1 = none ∧
    (regRead empty.cfg.regStatus1 1 empty).1 = some [0x20] ∧ (0x20 : Byte) &&& empty.cfg.status1RxEmpty ≠ 0 ∧
    after (fun t => t.seq.nstate) (exec .update failing) = some .waitSourceCapabilities ∧
    after (fun t => t.seq.nstate) (exec .update empty) = some .enableTransceiver := by decide

/-- Accept, Reject, PS-Ready and GoodCRC of the control codes, each in a frame of its own. -/
theorem test_witness_UpdateAppliesControlMessage :
    let s := fun lo => inState .connected [0xE0, lo, 0x03, 0xC0, 0xC1, 0xC2, 0xC3]
      [gives 0x00, yes, yes, gives 0x20]
    (s 0x63).cfg.Ok ∧ (s 0x63).seq.nstate = .connected ∧
    (s 0x63).env.script = gives 0x00 :: yes :: yes :: gives 0x20 :: [] ∧
    (s 0x63).chip.rxFifo = 0xE0 :: 0x63 :: 0x03 :: 0xC0 :: 0xC1 :: 0xC2 :: 0xC3 :: [] ∧
    (gives 0x00).ok = true ∧ yes.ok = true ∧ (gives 0x20).ok = true ∧ (gives 0x00).data = [0x00] ∧
    (0x00 : Byte) &&& params.status1RxEmpty = 0 ∧ (gives 0x20).data = [0x20] ∧
    (0x20 : Byte) &&& params.status1RxEmpty ≠ 0 ∧ (0xE0 : Byte) &&& params.rxSopMask = params.rxSopTag ∧
    (0x03 : Byte).toNat / 16 % 8 = 0 ∧ params.ctrlAccept.toNat = (0x63 : Byte).toNat % 32 ∧
    params.ctrlReject.toNat = (0x64 : Byte).toNat % 32 ∧ params.ctrlPsRdy.toNat = (0x66 : Byte).toNat % 32 ∧
    params.ctrlGoodCrc.toNat = (0x61 : Byte).toNat % 32 := by decide

/-- Program P2's tick 5, the Request's write succeeding and failing. -/
theorem test_witness_UpdateFirstSourceCapabilities :
    let objects : List Word := [0x00019096, 0x0002D0C8]
    let s := fun dw => inState .waitSourceCapabilities
      (0xE0 :: 0x61 :: 0x21 :: (objects.flatMap le32 ++ [0xC0, 0xC1, 0xC2, 0xC3] ++ []))
      [gives 0x00, yes, yes, dw, gives 0x20]
    (s yes).cfg.Ok ∧ (s yes).seq.nstate = .waitSourceCapabilities ∧ (s yes).seq.srccapseen = false ∧
    (s yes).env.script = gives 0x00 :: yes :: yes :: yes :: gives 0x20 :: [] ∧
    (s no).env.script = gives 0x00 :: yes :: yes :: no :: gives 0x20 :: [] ∧ no.ok = false ∧
    (gives 0x00).ok = true ∧ yes.ok = true ∧ (gives 0x20).ok = true ∧ (gives 0x00).data = [0x00] ∧
    (0x00 : Byte) &&& params.status1RxEmpty = 0 ∧ (gives 0x20).data = [0x20] ∧
    (0x20 : Byte) &&& params.status1RxEmpty ≠ 0 ∧ (0xE0 : Byte) &&& params.rxSopMask = params.rxSopTag ∧
    (s yes).chip.rxFifo =
      0xE0 :: 0x61 :: 0x21 :: (objects.flatMap le32 ++ [0xC0, 0xC1, 0xC2, 0xC3] ++ []) ∧
    (0x21 : Byte).toNat / 16 % 8 = objects.length ∧ (0x61 : Byte).toNat % 32 = params.dataSourceCap.toNat := by
  decide

theorem test_witness_ProcmsgLaterSourceCapabilities :
    let objects : List Word := List.replicate 7 0x00019096
    let s := { inState .connected
        (0xE0 :: 0x61 :: 0x71 :: (objects.flatMap le32 ++ [0xC0, 0xC1, 0xC2, 0xC3] ++ []))
        [gives 0x00, yes, yes, gives 0x20] with
      seq := { Sequencer.reset with nstate := .connected, srccapseen := true } }
    s.cfg.Ok ∧ s.loop = none ∧ s.seq.srccapseen = true ∧ objects ≠ [] ∧
    s.env.script = gives 0x00 :: yes :: yes :: gives 0x20 :: [] ∧
    (gives 0x00).ok = true ∧ yes.ok = true ∧ (gives 0x20).ok = true ∧ (gives 0x00).data = [0x00] ∧
    (0x00 : Byte) &&& params.status1RxEmpty = 0 ∧ (gives 0x20).data = [0x20] ∧
    (0x20 : Byte) &&& params.status1RxEmpty ≠ 0 ∧ (0xE0 : Byte) &&& params.rxSopMask = params.rxSopTag ∧
    s.chip.rxFifo =
      0xE0 :: 0x61 :: 0x71 :: (objects.flatMap le32 ++ [0xC0, 0xC1, 0xC2, 0xC3] ++ []) ∧
    (0x71 : Byte).toNat / 16 % 8 = objects.length ∧ (0x61 : Byte).toNat % 32 = s.cfg.dataSourceCap.toNat := by
  decide

theorem test_witness_RequestSendsAndCommits :
    (7 : BitVec 3) ≠ 0 ∧ 10239 ≤ 10239 ∧ (machine [yes]).nextDraw.ok = true ∧
    (machine [no]).nextDraw.ok = false := by decide

/-- A tick that changes the state; `INIT`, which does not; a message loop of its own; `RESET` and a tick from
Connected. -/
theorem test_witness_NstateFollowsTransferTable :
    let s := { inState .enableTransceiver [] [yes, later 1] with port := [0x42] }
    let connected := inState .connected [] [no]
    (∃ t, step s = .next t ∧ t.seq.nstate = .waitSourceCapabilities) ∧
    (∃ t, exec .init s = .next t) ∧ (∃ t, exec .procmsg s = .next t) ∧ s.loop = none ∧
    (∃ t, exec .reset connected = .next t ∧ t.seq.nstate = .start) ∧ connected.seq.nstate = .connected ∧
    ∃ t, exec .update connected = .next t ∧ t.seq.nstate = .connected :=
  ⟨⟨_, rfl, by decide⟩, ⟨_, rfl⟩, ⟨_, rfl⟩, rfl, ⟨_, rfl, rfl⟩, rfl, _, rfl, by decide⟩

/-- `RESET`; a Request that goes out; a call that does not touch the id. -/
theorem test_witness_MessageIdMovesByOne :
    let s := { machine [yes] with seq := { Sequencer.reset with msgid := 7 } }
    after (fun t => t.seq.msgid) (exec .reset s) = some 0 ∧
    after (fun t => (t.seq.msgid, t.result)) (exec (.reqcap 1 1500) s) = some (0, .ok) ∧
    after (fun t => t.seq.msgid) (exec .init s) = some 7 := by decide

theorem test_witness_OnlyVbusstepMovesSearch :
    (∃ t, exec .reset (machine []) = .next t) ∧ (∃ t, exec .vbusstep (machine [yes]) = .next t) :=
  ⟨⟨_, rfl⟩, ⟨_, rfl⟩⟩

theorem test_witness_StepTakesNothingBack :
    ∃ t, step { machine [yes] with port := [0x40] } = .next t ∧ t.trace = [.action .chipInit true] :=
  ⟨_, rfl, by decide⟩

theorem test_witness_EveryTransactionIsPaused :
    let s := { machine [yes] with port := [0x20, 0x04, 0x60], trace := [.write 0x04 [0x41] true, .delay 5] }
    Paused s.cfg.tXactDelayUs s.trace = true ∧ ∃ t, step s = .next t ∧ t.trace.length = 4 :=
  ⟨by decide, _, rfl, by decide⟩

theorem test_witness_CodecAndReadOutsArePure :
    (∃ t, exec .curcap (machine []) = .next t) ∧ opOf .curcap = some .curcap ∧
    (∃ t, exec (.measure8 40) (machine []) = .next t) ∧ (formatOf (.measure8 40)).isSome = true :=
  ⟨⟨_, rfl⟩, rfl, ⟨_, rfl⟩, rfl⟩

/-- A loop in progress whose next pass ends it, with what was seen before; `UPDATE` in Connected with an Accept
in the FIFO, whose second pass ends its loop; `PROCMSG` alone. -/
theorem test_witness_MessageLoopSplits :
    let s := { inState .waitSourceCapabilities [] [gives 0x20] with loop := some { saw := true, caller := .update } }
    let tick := inState .connected [0xE0, 0x63, 0x03, 0xC0, 0xC1, 0xC2, 0xC3] [gives 0x00, yes, yes, gives 0x20]
    (s.loop = some { saw := true, caller := .update } ∧ (∃ u, LoopRuns true s true u) ∧
      after (fun t => (t.loop, t.seq.nstate)) (step s) = some (none, .connected)) ∧
    (tick.loop = none ∧ tick.seq.nstate = .connected ∧ ∃ u, LoopRuns false tick false u) ∧
    ((machine [no]).loop = none ∧ ∃ u, LoopRuns false (machine [no]) false u) :=
  ⟨⟨rfl, ⟨_, loopRuns_of_messageLoop (n := 1) (Prod.ext (by decide) rfl)⟩, by decide⟩,
    ⟨rfl, rfl, _, loopRuns_of_messageLoop (n := 2) (Prod.ext (by decide) rfl)⟩,
    rfl, _, loopRuns_of_messageLoop (n := 1) (Prod.ext (by decide) rfl)⟩

/-- The frame at the head of the receive FIFO, with every read of it answered. -/
def receiving (n : NegState) (lo hi : Byte) (body : List Byte) : State :=
  inState n (0xE0 :: lo :: hi :: (body ++ [0xC0, 0xC1, 0xC2, 0xC3])) [gives 0x00, yes, yes, gives 0x20, later 311]

/-- A status read that fails, and one that shows the FIFO empty. -/
theorem test_witness_MessagePassOutcomes_empty :
    params.Ok ∧ (machine [no]).cfg = params ∧ (regRead params.regStatus1 1 (machine [no])).1 = none ∧
    (regRead params.regStatus1 1 (machine [gives 0x20])).1 = some [0x20] ∧
    (0x20 : Byte) &&& params.status1RxEmpty ≠ 0 := by decide

/-- The frame a pass finds, or why it finds none. -/
def frameOf (s : State) : Except Cause RxFrame := (readNextFrame (regRead s.cfg.regStatus1 1 s).2).1

/-- A status that shows a frame: a mismatch; Accept, Reject, PS-Ready, GoodCRC; a data message of type 2, and
Source Capabilities with one object. The tag `0xE0`, then the header's bytes. -/
theorem test_witness_MessagePassOutcomes_frames :
    let bad := inState .connected [0xC0, 0x63, 0x03] [gives 0x00, yes]
    let control := fun lo => receiving .connected lo 0x03 []
    let data := fun lo => receiving .connected lo 0x11 [0x96, 0x90, 0x01, 0x00]
    (regRead params.regStatus1 1 bad).1 = some [0x00] ∧ (0x00 : Byte) &&& params.status1RxEmpty = 0 ∧
    frameOf bad = .error .sopMismatch ∧
    frameOf (control 0x63) = .ok { header := 0x0363, data := [] } ∧
    (0x0363 : Half).toNat / 4096 % 8 = 0 ∧ (0x0363 : Half).extractLsb' 0 5 = params.ctrlAccept ∧
    (0x0364 : Half).extractLsb' 0 5 = params.ctrlReject ∧ (0x0366 : Half).extractLsb' 0 5 = params.ctrlPsRdy ∧
    (0x0361 : Half).extractLsb' 0 5 = params.ctrlGoodCrc ∧
    frameOf (data 0x61) = .ok { header := 0x1161, data := [0x96, 0x90, 0x01, 0x00] } ∧
    (0x1161 : Half).toNat / 4096 % 8 ≠ 0 ∧ (0x1161 : Half).extractLsb' 0 5 = params.dataSourceCap ∧
    (data 0x61).seq.srccapseen = false ∧ (0x1162 : Half).extractLsb' 0 5 ≠ params.dataSourceCap ∧
    frameOf { data 0x61 with seq := { Sequencer.reset with srccapseen := true } } = frameOf (data 0x61) :=
  ⟨by decide, by decide, rfl, rfl, by decide, by decide, by decide, by decide, by decide, rfl, by decide,
    by decide, by decide, by decide, rfl⟩

/-- Connected and WaitSourceCapabilities, with an Accept (no objects) and with a data message of type 2 (one
object); 311 ms pass. -/
theorem test_witness_UpdateAppliesOtherMessage :
    let accept := receiving .connected 0x63 0x03 []
    let other := receiving .waitSourceCapabilities 0x62 0x11 [0x96, 0x90, 0x01, 0x00]
    params.Ok ∧ accept.cfg = params ∧ other.cfg = params ∧
    accept.env.script = gives 0x00 :: yes :: yes :: gives 0x20 :: [later 311] ∧
    other.env.script = gives 0x00 :: yes :: yes :: gives 0x20 :: [later 311] ∧
    (gives 0x00).ok = true ∧ yes.ok = true ∧ (gives 0x20).ok = true ∧ (gives 0x00).data = [0x00] ∧
    (0x00 : Byte) &&& params.status1RxEmpty = 0 ∧ (gives 0x20).data = [0x20] ∧
    (0x20 : Byte) &&& params.status1RxEmpty ≠ 0 ∧ (0xE0 : Byte) &&& params.rxSopMask = params.rxSopTag ∧
    accept.chip.rxFifo = 0xE0 :: 0x63 :: 0x03 :: ([0xC0, 0xC1, 0xC2, 0xC3] ++ []) ∧
    [0xC0, 0xC1, 0xC2, 0xC3].length = 4 * ((0x03 : Byte).toNat / 16 % 8) + 4 ∧
    other.chip.rxFifo =
      0xE0 :: 0x62 :: 0x11 :: ([0x96, 0x90, 0x01, 0x00, 0xC0, 0xC1, 0xC2, 0xC3] ++ []) ∧
    [0x96, 0x90, 0x01, 0x00, 0xC0, 0xC1, 0xC2, 0xC3].length = 4 * ((0x11 : Byte).toNat / 16 % 8) + 4 ∧
    (0x62 : Byte).extractLsb' 0 5 ≠ params.dataSourceCap ∧ (0x03 : Byte).toNat / 16 % 8 = 0 ∧
    accept.seq.nstate = .connected ∧ other.seq.nstate = .waitSourceCapabilities ∧
    other.seq.twait < 2 ^ other.cfg.clockWidth ∧
    after (fun t => t.seq.nstate) (exec .update other) = some .enableTransceiver := by decide

/-- A start-of-frame mismatch in Connected; the frame's second read failing in WaitSourceCapabilities, 310 ms
in. -/
theorem test_witness_UpdateEndsAtUnreadFrame :
    let buf : List Byte := List.replicate 30 0
    let bad := inState .connected [0xC0, 0x63, 0x03, 0xC0] [gives 0x00, yes]
    let cut := inState .waitSourceCapabilities [0xE0, 0x63, 0x03, 0xC0] [gives 0x00, yes, no, later 310]
    30 ≤ buf.length ∧ (0x00 : Byte) &&& params.status1RxEmpty = 0 ∧
    ((regRead bad.cfg.regStatus1 1 bad).1 = some [0x00] ∧ bad.seq.nstate = .connected ∧
      ∃ u free, exec (.rdframe buf) (regRead bad.cfg.regStatus1 1 bad).2 = .next u ∧
        u.result = .noFrame .sopMismatch free) ∧
    ((regRead cut.cfg.regStatus1 1 cut).1 = some [0x00] ∧ cut.seq.nstate = .waitSourceCapabilities ∧
      cut.seq.twait < 2 ^ cut.cfg.clockWidth ∧
      ∃ u free, exec (.rdframe buf) (regRead cut.cfg.regStatus1 1 cut).2 = .next u ∧
        u.result = .noFrame .ioRead free) :=
  ⟨by decide, by decide, ⟨by decide, rfl, _, _, rfl, rfl⟩, by decide, rfl, by decide, _, _, rfl, rfl⟩

/-- At most 7 objects, and as many as the header says. -/
theorem test_witness_FrameFormatsLayOut :
    (List.replicate 7 (0 : Word)).length ≤ 7 ∧
    (0x7641 : Half).toNat / 4096 % 8 = (List.replicate 7 (0 : Word)).length := by decide

end Sys2Proof.Tests
end

section
/-!
PROOFS. The statements of `spec/20_memory.md`: refused calls (O5) and the accesses of `VBUSSTEP` to the chip's
registers, on its first call (O28) and on every later one (O29). The facts they rest on come first, in the order
of the model's definitions.
-/

namespace Sys2Proof

/-! ## Parameters -/

/-- The addresses are distinct (D14): a write to `REG_MEASURE` never lands in the FIFO. -/
theorem Params.Ok.regMeasure_ne_regFifo {c : Params} (h : c.Ok) : c.regMeasure ≠ c.regFifo := by
  obtain ⟨⟨-, -, haddr⟩, -⟩ := h
  simp only [List.nodup_cons, List.mem_cons, not_or] at haddr
  obtain ⟨⟨hmeasure, -⟩, -⟩ := haddr
  exact Ne.symm hmeasure

/-- The addresses are distinct (D14): the comparator's register is not the FIFO. -/
theorem Params.Ok.regStatus0_ne_regFifo {c : Params} (h : c.Ok) : c.regStatus0 ≠ c.regFifo := by
  obtain ⟨⟨-, -, haddr⟩, -⟩ := h
  simp only [List.nodup_cons, List.mem_cons, not_or] at haddr
  obtain ⟨⟨-, hstatus, -⟩, -⟩ := haddr
  exact Ne.symm hstatus

/-- There are at least two codes, and all fit in 6 bits (R161, log entry 21). -/
theorem Params.Ok.vbusMaxCode_range {c : Params} (h : c.Ok) : 2 ≤ c.vbusMaxCode ∧ c.vbusMaxCode ≤ 64 := by
  obtain ⟨-, -, -, -, hlow, hhigh, -⟩ := h
  exact ⟨hlow, hhigh⟩

end Sys2Proof

namespace Sys2Proof.Machine

section ChipAccess

variable (s : State)

/-! ## Calls outside their domain -/

/-- Outside its domain an operation is refused, whatever state it would have left (R99). -/
theorem inDomain_refused {p : Bool} (h : p = false) : inDomain p s = .refused .outOfDomain := by
  rw [inDomain, h]; rfl

/-! ## Reads at a register -/

/-- No read changes what is known of the chip's registers (R59, log entry 29). -/
theorem regRead_regs (addr : Byte) (n : Nat) : (regRead addr n s).2.chip.regs = s.chip.regs := by
  rw [regRead_chip, wasRead_regs]; rfl

/-- A read elsewhere than `REG_FIFO` leaves the FIFOs as the chip's own running does. -/
theorem regRead_register_fifos {addr : Byte} (h : addr ≠ s.cfg.regFifo) (n : Nat) :
    (regRead addr n s).2.chip.rxFifo = s.chip.rxFifo ++ s.nextDraw.arrive ∧
    (regRead addr n s).2.chip.txFifo = s.chip.txFifo.drop s.nextDraw.drain := by
  rw [regRead_chip, Chip.wasRead, if_neg h]
  exact ⟨rfl, rfl⟩

/-! ## The five steps of `VBUSSTEP` -/

/-- Step 1 spelled out (R164): unit step, and the comparator flipped against its sign. -/
theorem vbusConverges_iff (vs : VbusSearch) (c : Bool) :
    vbusConverges vs c = true ↔
      (vs.step = -1 ∧ vs.lastComp = false ∧ c = true) ∨ (vs.step = 1 ∧ vs.lastComp = true ∧ c = false) := by
  simp only [vbusConverges, Bool.and_eq_true, Bool.or_eq_true, Bool.not_eq_true', decide_eq_true_eq]
  constructor
  · rintro ⟨hunit, ⟨⟨hneg, hlast⟩, hc⟩ | ⟨⟨hpos, hlast⟩, hc⟩⟩
    · exact .inl ⟨by omega, hlast, hc⟩
    · exact .inr ⟨by omega, hlast, hc⟩
  · rintro (⟨hstep, hlast, hc⟩ | ⟨hstep, hlast, hc⟩)
    · exact ⟨by omega, .inl ⟨⟨by omega, hlast⟩, hc⟩⟩
    · exact ⟨by omega, .inr ⟨⟨by omega, hlast⟩, hc⟩⟩

/-- Convergence is at unit step (R164). -/
theorem natAbs_step_of_converges {vs : VbusSearch} {c : Bool} (h : vbusConverges vs c = true) :
    vs.step.natAbs = 1 := by
  rcases (vbusConverges_iff vs c).1 h with ⟨hstep, -⟩ | ⟨hstep, -⟩ <;> rw [hstep] <;> rfl

/-- The mode of a call that converges (R164). -/
theorem vbusWiden_of_converges {vs : VbusSearch} {c : Bool} (h : vbusConverges vs c = true) :
    vbusWiden vs c = true := by
  rw [vbusWiden, if_pos h]

/-- The mode of a call that does not converge (R165): it stays, but for a change of the comparator. -/
theorem vbusWiden_of_not_converges {vs : VbusSearch} {c : Bool} (h : ¬ vbusConverges vs c = true) :
    vbusWiden vs c = (vs.widen && (c == vs.lastComp)) := by
  rw [vbusWiden, if_neg h]
  by_cases hc : c = vs.lastComp <;> simp [hc]

/-- Step 3 of a call with its sample: the step's new magnitude. -/
def vbusSampledMagnitude (cfg : Params) (vs : VbusSearch) (c : Bool) : Nat :=
  vbusMagnitude cfg vs.step.natAbs (vbusWiden vs c) (vbusConverges vs c)

/-- The magnitude of a call that converges stays 1 (R164, R166). -/
theorem vbusSampledMagnitude_of_converges (cfg : Params) {vs : VbusSearch} {c : Bool}
    (h : vbusConverges vs c = true) : vbusSampledMagnitude cfg vs c = 1 := by
  rw [vbusSampledMagnitude, vbusWiden_of_converges h, h, natAbs_step_of_converges h]; rfl

/-- The magnitude of a call that does not converge doubles or halves, by its mode (R166). -/
theorem vbusSampledMagnitude_of_not_converges (cfg : Params) {vs : VbusSearch} {c : Bool}
    (h : ¬ vbusConverges vs c = true) :
    vbusSampledMagnitude cfg vs c =
      if vbusWiden vs c then min (2 * vs.step.natAbs) cfg.vbusFullStep else max (vs.step.natAbs / 2) 1 := by
  rw [vbusSampledMagnitude, Bool.eq_false_iff.2 h]; rfl

/-- Step 5 of a call with its sample: the code it programs. -/
def vbusSampledCode (cfg : Params) (vs : VbusSearch) (base : BitVec 6) (c : Bool) : BitVec 6 :=
  vbusNewCode cfg base.toNat (vbusSigned (vbusSampledMagnitude cfg vs c) c)

/-- The search state that the five steps give for a sampled bit (R162). -/
def vbusSampledNext (cfg : Params) (vs : VbusSearch) (base : BitVec 6) (c : Bool) : VbusSearch where
  last := some (vbusSampledCode cfg vs base c)
  step := vbusSigned (vbusSampledMagnitude cfg vs c) c
  widen := vbusWiden vs c
  lastComp := c

/-- The report of a call with its sample (R169), if its write succeeds. -/
def vbusSampledReport (cfg : Params) (vs : VbusSearch) (base : BitVec 6) (c : Bool) : Option Nat :=
  if vbusConverges vs c then some (vbusMillivolts cfg (vbusConvCode vs base.toNat)) else none

/-! ## One call of `VBUSSTEP` -/

/-- `VBUSSTEP` is the sampler's call, with its report as the result (R162). -/
theorem exec_vbusstep :
    exec .vbusstep s = .next ((updateVbus s).2.returns (.vbus (updateVbus s).1)) := rfl

/-- A code whose write succeeded: the new search state, the report, and the byte in `REG_MEASURE`. -/
theorem vbusProgram_ok (next : VbusSearch) (report : Option Nat) (hne : s.cfg.regMeasure ≠ s.cfg.regFifo)
    (hd : s.nextDraw.ok = true) :
    (vbusProgram next report s).1 = report ∧ (vbusProgram next report s).2.vs = next ∧
    (vbusProgram next report s).2.chip.regs.read s.cfg.regMeasure.toNat =
      some (measureByte s.cfg (next.last.getD 0)) := by
  obtain ⟨-, hmeasure⟩ := vbusProgram_regs s next report hne
  rw [vbusProgram_fst, vbusProgram_vs, hmeasure, hd]
  exact ⟨rfl, rfl, rfl⟩

/-- A code whose write failed (R170): no report, the search state as before, `REG_MEASURE` unknown. -/
theorem vbusProgram_failed (next : VbusSearch) (report : Option Nat) (hne : s.cfg.regMeasure ≠ s.cfg.regFifo)
    (hd : s.nextDraw.ok = false) :
    (vbusProgram next report s).1 = none ∧ (vbusProgram next report s).2.vs = s.vs ∧
    (vbusProgram next report s).2.chip.regs.read s.cfg.regMeasure.toNat = none := by
  obtain ⟨-, hmeasure⟩ := vbusProgram_regs s next report hne
  rw [vbusProgram_fst, vbusProgram_vs, hmeasure, hd]
  exact ⟨rfl, rfl, rfl⟩

/-- A property that the comparator read and the programming of a code keep is kept by a call. -/
theorem updateVbus_keeps {P : State → Prop} (hread : ∀ addr n s, P s → P (regRead addr n s).2)
    (hprogram : ∀ next report s, P s → P (vbusProgram next report s).2) (h : P s) : P (updateVbus s).2 := by
  cases hlast : s.vs.last with
  | none => rw [updateVbus_first s hlast]; exact hprogram _ _ _ h
  | some code =>
    cases hr : (regRead s.cfg.regStatus0 1 s).1 with
    | none => rw [updateVbus_unread s hlast hr]; exact hread _ _ _ h
    | some bytes => rw [updateVbus_sampled s hlast hr]; exact hprogram _ _ _ (hread _ _ _ h)

/-- A call touches the search state, the chip, the environment and the record only. -/
theorem updateVbus_frame :
    (updateVbus s).2.cfg = s.cfg ∧ (updateVbus s).2.seq = s.seq ∧ (updateVbus s).2.port = s.port ∧
    (updateVbus s).2.wire = s.wire ∧ (updateVbus s).2.loop = s.loop :=
  updateVbus_keeps s
    (P := fun t => t.cfg = s.cfg ∧ t.seq = s.seq ∧ t.port = s.port ∧ t.wire = s.wire ∧ t.loop = s.loop)
    (fun _ _ _ h => h) (fun _ _ _ h => by simpa using h) ⟨rfl, rfl, rfl, rfl, rfl⟩

/-- A call changes no register but `REG_MEASURE` (log entry 30). -/
theorem updateVbus_other_regs (hok : s.cfg.Ok) {a : Nat} (ha : a ≠ s.cfg.regMeasure.toNat) :
    (updateVbus s).2.chip.regs.read a = s.chip.regs.read a := by
  have hkeep := updateVbus_keeps s
    (P := fun t => t.cfg = s.cfg ∧ t.chip.regs.read a = s.chip.regs.read a)
    (fun addr n t ⟨hc, hm⟩ => ⟨hc, by rw [regRead_regs, hm]⟩)
    (fun next report t ⟨hc, hm⟩ => ⟨by rw [vbusProgram_cfg, hc], by
      rw [← hc] at hok ha
      rw [(vbusProgram_regs t next report hok.regMeasure_ne_regFifo).1 a ha, hm]⟩)
    ⟨rfl, rfl⟩
  exact hkeep.2

/-- The search state that the first call programs (R163): as if the last code were 0 and the comparator true. -/
def vbusFirstNext (cfg : Params) (vs : VbusSearch) : VbusSearch := vbusAdvance cfg vs 0 true vs.widen false

/-- The first call programs its state, with no report (R163). -/
theorem updateVbus_programs_first (hlast : s.vs.last = none) :
    updateVbus s = vbusProgram (vbusFirstNext s.cfg s.vs) none s :=
  updateVbus_first s hlast

/-- The first call's code (R163): the magnitude, counted from code 0 and clamped at the top. -/
theorem vbusNewCode_first {cfg : Params} (hok : cfg.Ok) (mag : Nat) :
    (vbusNewCode cfg 0 mag).toNat = min mag (cfg.vbusMaxCode - 1) := by
  obtain ⟨hlow, hhigh⟩ := hok.vbusMaxCode_range
  have hcode := vbusNewCode_toNat cfg (by omega) hhigh 0 mag
  omega

/-- A call with its sample programs what the five steps give (R162). -/
theorem updateVbus_programs_sampled {base : BitVec 6} {b : Byte} (hlast : s.vs.last = some base)
    (hr : (regRead s.cfg.regStatus0 1 s).1 = some [b]) :
    updateVbus s =
      vbusProgram (vbusSampledNext s.cfg s.vs base (comparatorBit s.cfg [b]))
        (vbusSampledReport s.cfg s.vs base (comparatorBit s.cfg [b])) (regRead s.cfg.regStatus0 1 s).2 :=
  updateVbus_sampled s hlast hr

end ChipAccess

/-! ## The statements -/

/-- Settles O5: the eight operations that have a domain test it first; the others have no ill-formed call. -/
theorem callOutsideDomainIsRefused : Obligations.CallOutsideDomainIsRefused := by
  intro i s h
  cases i with
  | packreq index currentMa => exact inDomain_refused _ h
  | reqcap index currentMa => exact inDomain_refused _ h
  | regwrn addr bytes => exact inDomain_refused _ h
  | regrdn addr n => exact inDomain_refused _ h
  | wrmsg header ndo objects => exact inDomain_refused _ h
  | rdframe buf => exact inDomain_refused _ h
  | txFrame header objects => exact inDomain_refused _ h
  | rxFrame x header objects c0 c1 c2 c3 => exact inDomain_refused _ h
  | _ => cases h

/-- Settles O28: the first call is the programming of the code that lies the new magnitude above 0. -/
theorem vbusFirstCall : Obligations.VbusFirstCall := by
  intro s hok hlast d mag mag'
  have hne := hok.regMeasure_ne_regFifo
  obtain ⟨hother, hmeasure⟩ := vbusProgram_regs s (vbusFirstNext s.cfg s.vs) none hne
  obtain ⟨hrx, htx⟩ := vbusProgram_fifos s (vbusFirstNext s.cfg s.vs) none hne
  refine ⟨_, vbusNewCode s.cfg 0 mag', exec_vbusstep s, ?_⟩
  rw [updateVbus_programs_first s hlast]
  refine ⟨?_, vbusNewCode_first hok mag', vbusProgram_trace .., vbusProgram_cfg .., vbusProgram_seq ..,
    vbusProgram_port .., vbusProgram_wire .., vbusProgram_loop .., hother, hmeasure, hrx, htx,
    fun hd => ?_, fun hd => ?_⟩
  · rw [returns_result, vbusProgram_fst, ite_self]
  · obtain ⟨-, hvs, -⟩ := vbusProgram_ok s (vbusFirstNext s.cfg s.vs) none hne hd
    exact hvs
  · obtain ⟨-, hvs, -⟩ := vbusProgram_failed s (vbusFirstNext s.cfg s.vs) none hne hd
    exact hvs

/-- Settles O29: a call whose comparator read fails ends there; else it is the programming of the code that the
five steps give for the sampled bit. -/
theorem vbusSampledCall : Obligations.VbusSampledCall := by
  intro s base hok hlast d1 r pause
  obtain ⟨hcfg, hseq, hport, hwire, hloop⟩ := updateVbus_frame s
  obtain ⟨hrx1, htx1⟩ := regRead_register_fifos s hok.regStatus0_ne_regFifo 1
  refine ⟨_, exec_vbusstep s, hcfg, hseq, hport, hwire, hloop,
    fun a => updateVbus_other_regs s hok, fun hr => ?unread, fun b hr => ?sampled⟩
  case unread =>
    rw [updateVbus_unread s hlast hr]
    refine ⟨rfl, rfl, ?_, hrx1, htx1⟩
    rw [returns_trace, regRead_trace, show (regRead s.cfg.regStatus0 1 s).1 = none from hr]
  case sampled =>
    intro c conv d2 ok
    have hconv : vbusConverges s.vs c = true ↔ conv := vbusConverges_iff s.vs c
    have hne : r.2.cfg.regMeasure ≠ r.2.cfg.regFifo := hok.regMeasure_ne_regFifo
    obtain ⟨hlow, hhigh⟩ := hok.vbusMaxCode_range
    obtain ⟨hrx2, htx2⟩ := vbusProgram_fifos r.2 (vbusSampledNext s.cfg s.vs base c)
      (vbusSampledReport s.cfg s.vs base c) hne
    rw [show updateVbus s = vbusProgram (vbusSampledNext s.cfg s.vs base c)
      (vbusSampledReport s.cfg s.vs base c) r.2 from updateVbus_programs_sampled s hlast hr]
    refine ⟨vbusSampledCode s.cfg s.vs base c, vbusSampledMagnitude s.cfg s.vs c, vbusWiden s.vs c,
      fun h => ?converged, fun h => ?moving, vbusNewCode_toNat s.cfg (by omega) hhigh _ _, ?trace,
      hrx2.trans (by rw [hrx1]), htx2.trans (by rw [htx1]), fun hd => ?written, fun hd => ?unwritten⟩
    case converged =>
      exact ⟨vbusWiden_of_converges (hconv.2 h), vbusSampledMagnitude_of_converges s.cfg (hconv.2 h)⟩
    case moving =>
      rw [← hconv] at h
      exact ⟨vbusWiden_of_not_converges h, vbusSampledMagnitude_of_not_converges s.cfg h⟩
    case trace =>
      rw [returns_trace, vbusProgram_trace, regRead_trace,
        show (regRead s.cfg.regStatus0 1 s).1 = some [b] from hr, List.append_assoc]
      rfl
    case written =>
      obtain ⟨hreport, hvs, hmeasure⟩ := vbusProgram_ok r.2 (vbusSampledNext s.cfg s.vs base c)
        (vbusSampledReport s.cfg s.vs base c) hne hd
      refine ⟨hvs, hmeasure, fun h => ?_, fun h => ?_⟩
      · rw [returns_result, hreport, vbusSampledReport, if_pos (hconv.2 h)]; rfl
      · rw [returns_result, hreport, vbusSampledReport, if_neg (mt hconv.1 h)]
    case unwritten =>
      obtain ⟨hreport, hvs, hmeasure⟩ := vbusProgram_failed r.2 (vbusSampledNext s.cfg s.vs base c)
        (vbusSampledReport s.cfg s.vs base c) hne hd
      exact ⟨hvs, by rw [returns_result, hreport], hmeasure⟩

end Sys2Proof.Machine
end

section
/-!
PROOFS. The statements of `spec/40_codec.md` about fields: `PACKHDR` (O13), `UNPACKHDR` (O14) and `UNPACKCAP` (O16).
The facts about the words and the codec's functions that they rest on come first, in the order of the model's
definitions.
-/

namespace Sys2Proof

/-! ## Fields of a word, as numbers -/

/-- Fields side by side: the left one counts in units of the right one's range. -/
theorem toNat_append_eq_add {m n : Nat} (x : BitVec m) (y : BitVec n) :
    (x ++ y).toNat = x.toNat * 2 ^ n + y.toNat := by
  rw [BitVec.toNat_append, ← Nat.shiftLeft_add_eq_or_of_lt y.isLt, Nat.shiftLeft_eq]

/-- A slice is a quotient, reduced to the slice's range. -/
theorem toNat_extractLsb'_eq_div_mod {n : Nat} (v : BitVec n) (start len : Nat) :
    (v.extractLsb' start len).toNat = v.toNat / 2 ^ start % 2 ^ len := by
  rw [BitVec.extractLsb'_toNat, Nat.shiftRight_eq_div_pow]

/-! ## The header word -/

/-- The header's layout (R80): the six fields with no gap and no overlap, and bit 15 clear above them. -/
theorem headerWord_eq_append (ndo id : BitVec 3) (pr : BitVec 1) (rev : BitVec 2) (dr : BitVec 1) (type : BitVec 5) :
    headerWord ndo id pr rev dr type =
      (ndo ++ id ++ pr ++ rev ++ dr ++ type).setWidth 16 := by
  apply BitVec.eq_of_getLsbD_eq
  intro i hi
  simp only [headerWord, BitVec.getLsbD_or, BitVec.getLsbD_shiftLeft, BitVec.getLsbD_setWidth, BitVec.getLsbD_append]
  interval_cases i <;> simp

/-- The header word as a number (R121): each field at its offset. -/
theorem headerWord_toNat (ndo id : BitVec 3) (pr : BitVec 1) (rev : BitVec 2) (dr : BitVec 1) (type : BitVec 5) :
    (headerWord ndo id pr rev dr type).toNat = ndo.toNat * 4096 + id.toNat * 512 + pr.toNat * 256 +
      rev.toNat * 64 + dr.toNat * 32 + type.toNat := by
  rw [headerWord_eq_append, BitVec.toNat_setWidth_of_le (by decide)]
  simp only [toNat_append_eq_add]
  omega

/-- The count is bits 14:12 (R122). -/
theorem headerFields_ndo_toNat (v : Half) : (headerFields v).ndo.toNat = v.toNat / 4096 % 8 :=
  toNat_extractLsb'_eq_div_mod v 12 3

/-- The id is bits 11:9 (R122). -/
theorem headerFields_id_toNat (v : Half) : (headerFields v).id.toNat = v.toNat / 512 % 8 :=
  toNat_extractLsb'_eq_div_mod v 9 3

/-- The type is bits 4:0 (R122). -/
theorem headerFields_type_toNat (v : Half) : (headerFields v).type.toNat = v.toNat % 32 :=
  BitVec.extractLsb'_toNat 0 5 v

end Sys2Proof

namespace Sys2Proof.Machine

/-! ## The capability word -/

/-- The tag is the two highest bits (R123). -/
theorem unpackCapability_tag_toNat (w : Word) : (unpackCapability w).tag.toNat = w.toNat / 2 ^ 30 := by
  have hslice : (unpackCapability w).tag.toNat = w.toNat / 2 ^ 30 % 2 ^ 2 := toNat_extractLsb'_eq_div_mod w 30 2
  have hw := w.isLt
  omega

/-- The peak current is bits 21:20; bits 23:22 are dropped (R123, D9). -/
theorem unpackCapability_peakCurrent_toNat (w : Word) :
    (unpackCapability w).peakCurrent.toNat = w.toNat / 2 ^ 20 % 4 :=
  toNat_extractLsb'_eq_div_mod w 20 2

/-- The voltage is bits 19:10, in units of 50 mV (R85). -/
theorem unpackCapability_voltageMv (w : Word) : (unpackCapability w).voltageMv = w.toNat / 1024 % 1024 * 50 :=
  congrArg (· * 50) (toNat_extractLsb'_eq_div_mod w 10 10)

/-- The current is bits 9:0, in units of 10 mA (R85). -/
theorem unpackCapability_maxCurrentMa (w : Word) : (unpackCapability w).maxCurrentMa = w.toNat % 1024 * 10 :=
  congrArg (· * 10) (BitVec.extractLsb'_toNat 0 10 w)

/-! ## The codec's operations -/

section Operations

variable (s : State)

/-- `PACKHDR` returns the header word, with defaults for the operands left out (R121, R105). -/
theorem exec_packhdr (type : BitVec 5) (ndo id : BitVec 3) (pr dr : Option (BitVec 1)) (rev : Option (BitVec 2)) :
    exec (.packhdr type ndo id pr dr rev) s = .next { s with
      result := .half (headerWord ndo id (pr.getD s.cfg.roleSink) (rev.getD s.cfg.specRev20)
        (dr.getD s.cfg.roleUfp) type) } := rfl

/-- `UNPACKHDR` returns the header's fields (R122). -/
theorem exec_unpackhdr (v : Half) :
    exec (.unpackhdr v) s = .next { s with result := .headerFields (headerFields v) } := rfl

/-- `UNPACKCAP` returns the capability's record (R123). -/
theorem exec_unpackcap (w : Word) :
    exec (.unpackcap w) s = .next { s with result := .capability (unpackCapability w) } := rfl

end Operations

/-! ## The statements -/

/-- Settles O13: the value returned is the header word, whose fields stand side by side. -/
theorem packHeaderPlacesFields : Obligations.PackHeaderPlacesFields := by
  intro type ndo id pr dr rev s
  exact ⟨_, exec_packhdr s type ndo id pr dr rev, headerWord_toNat ..⟩

/-- Settles O14: each field is a slice of the value, whatever its other bits. -/
theorem unpackHeaderReadsFields : Obligations.UnpackHeaderReadsFields := by
  intro v s
  exact ⟨_, exec_unpackhdr s v, headerFields_ndo_toNat v, headerFields_id_toNat v, headerFields_type_toNat v⟩

/-- Settles O16: the flags are bits of the word and the other fields slices of it; the bounds are those of a
10-bit slice, scaled. -/
theorem unpackCapabilityReadsFields : Obligations.UnpackCapabilityReadsFields := by
  intro w s
  have hvoltage := unpackCapability_voltageMv w
  have hcurrent := unpackCapability_maxCurrentMa w
  exact ⟨_, exec_unpackcap s w, unpackCapability_tag_toNat w, rfl, rfl, rfl, rfl, rfl, rfl,
    unpackCapability_peakCurrent_toNat w, hvoltage, hcurrent, by omega, by omega⟩

end Sys2Proof.Machine
end

section
/-!
PROOFS. The statement of `spec/41_transport.md` about sending a frame: `WRMSG` (O25). The facts about the frame's
bytes, about a write to `REG_FIFO` and about write operations that it rests on come first, in the order of the
model's definitions.
-/

namespace Sys2Proof

/-! ## The transmit frame -/

/-- A count below 32 loses nothing in the packed symbol's five bits (R90). -/
theorem packsymByte_ofNat (c : Params) {count : Nat} (h : count < 32) :
    packsymByte c (BitVec.ofNat 5 count) = c.tokPacksym ||| BitVec.ofNat 8 count := by
  have hcount : (BitVec.ofNat 5 count).setWidth 8 = BitVec.ofNat 8 count := by
    apply BitVec.eq_of_toNat_eq
    simp only [BitVec.toNat_setWidth, BitVec.toNat_ofNat]
    omega
  rw [packsymByte, hcount]

/-- The tokens before the payload (R88), for a frame that holds at most seven objects. -/
theorem txHead_eq (c : Params) {n : Nat} (h : n ≤ 7) :
    txHead c n =
      [c.tokSync1, c.tokSync1, c.tokSync1, c.tokSync2, c.tokPacksym ||| BitVec.ofNat 8 (2 + 4 * n)] := by
  rw [txHead, packsymByte_ofNat c (by omega)]

end Sys2Proof

namespace Sys2Proof.Machine

section WriteOperations

variable (s : State)

/-! ## Calls in their domain -/

/-- Inside its domain an operation has its effect (R99). -/
theorem inDomain_next {p : Bool} (h : p = true) : inDomain p s = .next s := by
  rw [inDomain, if_pos h]

/-! ## Writes at the FIFO -/

/-- No write takes anything from the receive FIFO (log entry 30). -/
theorem regWrite_rxFifo (addr : Byte) (bytes : List Byte) :
    (regWrite addr bytes s).2.chip.rxFifo = s.chip.rxFifo ++ s.nextDraw.arrive := by
  rw [regWrite_chip, written_rxFifo]; rfl

/-- A write to `REG_FIFO` changes no register. -/
theorem regWrite_fifo_regs (bytes : List Byte) :
    (regWrite s.cfg.regFifo bytes s).2.chip.regs = s.chip.regs := by
  rw [regWrite_chip, written_fifo_regs]; rfl

/-- A write to `REG_FIFO` appends its bytes, on failure a free number of them (R59, R219; log entry 8). -/
theorem regWrite_fifo_txFifo (bytes : List Byte) :
    (regWrite s.cfg.regFifo bytes s).2.chip.txFifo = s.chip.txFifo.drop s.nextDraw.drain ++
      (if s.nextDraw.ok then bytes else bytes.take s.nextDraw.moved) := by
  simp [Chip.written]

/-- A write leaves the block, its ports and its parameters as they were. -/
theorem regWrite_sameBlock (addr : Byte) (bytes : List Byte) : s.SameBlock (regWrite addr bytes s).2 :=
  ⟨rfl, rfl, rfl, rfl, rfl, rfl⟩

/-! ## Write operations -/

/-- A write operation returns success, or failure with cause `IoWrite`, and does nothing else (R140, R219). -/
theorem returnsWrite_eq (r : Bool × State) :
    State.returnsWrite r = r.2.returns (if r.1 then .ok else .fail .ioWrite) := by
  obtain ⟨ok, t⟩ := r
  cases ok <;> rfl

/-- `WRMSG` with its objects present (R144): one write to `REG_FIFO` of the frame, and its outcome. -/
theorem exec_wrmsg (header : Half) {ndo : BitVec 3} {objects : List Word} (h : ndo.toNat ≤ objects.length) :
    exec (.wrmsg header ndo objects) s = .next
      ((regWrite s.cfg.regFifo (txFrameBytes s.cfg header (objects.take ndo.toNat)) s).2.returns
        (if s.nextDraw.ok then .ok else .fail .ioWrite)) := by
  change execWrmsg header ndo objects s = _
  rw [execWrmsg, inDomain_next _ (decide_eq_true h), returnsWrite_eq, writeMessage_eq, regWrite_fst]

end WriteOperations

/-! ## The statement -/

/-- Settles O25: `WRMSG` is one write to `REG_FIFO`, and the bytes it writes are the frame of the spec, whose
packed symbol has room for the count of seven objects. -/
theorem writeMessageSendsFrame : Obligations.WriteMessageSendsFrame := by
  intro header ndo objects s h c d frame
  have hcount : (objects.take ndo.toNat).length = ndo.toNat := List.length_take_of_le h
  have hframe : txFrameBytes c header (objects.take ndo.toNat) = frame := by
    rw [txFrameBytes, hcount, txHead_eq c (by omega)]
    rfl
  have hexec := exec_wrmsg s header h
  rw [hframe] at hexec
  refine ⟨?length, _, hexec, regWrite_sameBlock s c.regFifo frame, rfl, regWrite_trace s c.regFifo frame,
    fun hd => ?sent, regWrite_rxFifo s c.regFifo frame, fun a => ?registers⟩
  case length =>
    rw [← hframe, txFrameBytes_length, hcount]
  case sent =>
    rw [returns_chip, regWrite_fifo_txFifo, if_pos hd]
  case registers =>
    rw [returns_chip, regWrite_fifo_regs]

end Sys2Proof.Machine
end

section
/-!
PROOFS. The statements of `spec/43_negotiation.md` about `INIT` (O33), the read-outs (O44) and the ticks of `UPDATE`:
EnableTransceiver (O38), the message loop with no message (O39), with a frame it cannot read (O58), and with one
message that is not Source Capabilities (O57, O40). The facts they rest on come first, in the order of the model's
definitions.
-/

namespace Sys2Proof

/-! ## Parameters -/

/-- The addresses are distinct (D14): the receive status is not the FIFO. -/
theorem Params.Ok.regStatus1_ne_regFifo {c : Params} (h : c.Ok) : c.regStatus1 ≠ c.regFifo := by
  obtain ⟨⟨-, -, haddr⟩, -⟩ := h
  simp only [List.nodup_cons, List.mem_cons, not_or] at haddr
  obtain ⟨⟨-, -, hstatus, -⟩, -⟩ := haddr
  exact Ne.symm hstatus

/-- The control codes are distinct (D6): a Reject is no Accept, and PS-Ready is neither. -/
theorem Params.Ok.ctrl_ne {c : Params} (h : c.Ok) :
    c.ctrlReject ≠ c.ctrlAccept ∧ c.ctrlPsRdy ≠ c.ctrlAccept ∧ c.ctrlPsRdy ≠ c.ctrlReject := by
  obtain ⟨⟨hctrl, -⟩, -⟩ := h
  simp only [List.nodup_cons, List.mem_cons, not_or] at hctrl
  obtain ⟨-, ⟨hreject, hready, -⟩, ⟨hready', -⟩, -⟩ := hctrl
  exact ⟨Ne.symm hreject, Ne.symm hready, Ne.symm hready'⟩

/-! ## The header of a received frame -/

/-- The type is the low five bits of the first header byte (R80). -/
theorem fromLe16_type_eq (lo hi : Byte) : (headerFields (fromLe16 lo hi)).type = lo.extractLsb' 0 5 := by
  apply BitVec.eq_of_toNat_eq
  rw [fromLe16_type, BitVec.extractLsb'_toNat]
  rfl

/-- A control message is told by the second header byte (R82, D7). -/
theorem fromLe16_ndo_eq_zero_iff (lo hi : Byte) :
    (headerFields (fromLe16 lo hi)).ndo = 0 ↔ hi.toNat / 16 % 8 = 0 := by
  rw [← fromLe16_ndo lo hi, ← BitVec.toNat_inj]
  rfl

end Sys2Proof

namespace Sys2Proof.Machine

section NegotiationOperations

variable (s : State)

/-! ## Answers, clock and flags -/

/-- The next answer is the script's first, or the environment's. -/
theorem nextDraw_eq_headD : s.nextDraw = s.env.script.headD (Config.environment s.env.draws) := by
  rw [State.nextDraw]
  cases s.env.script <;> rfl

/-- Elapsed time since a clock value of the clock's width (R225). -/
theorem elapsedMs_of_lt {c : Params} {since : Nat} (now : Nat) (h : since < 2 ^ c.clockWidth) :
    elapsedMs c now since = (now + 2 ^ c.clockWidth - since) % 2 ^ c.clockWidth := by
  rw [elapsedMs, Nat.mod_eq_of_lt h]

/-- The empty bit of a status byte (R96). -/
theorem rxEmptyBit_singleton (c : Params) (b : Byte) :
    rxEmptyBit c [b] = decide (b &&& c.status1RxEmpty ≠ 0) := rfl

/-! ## `RDFRAME` -/

/-- Receiving a frame does not read the clock. -/
theorem readNextFrame_clock : (readNextFrame s).2.env.clock = s.env.clock :=
  readNextFrame_keeps s (P := fun t => t.env.clock = s.env.clock) (fun _ _ _ h => h) rfl

/-- An `RDFRAME` that returned a failure is a frame that could not be read (R145, R213). -/
theorem exec_rdframe_noFrame {buf free : List Byte} {cause : Cause} {u : State}
    (h : exec (.rdframe buf) s = .next u) (hu : u.result = .noFrame cause free) :
    (readNextFrame s).1 = .error cause ∧ u = (readNextFrame s).2.returns (.noFrame cause free) := by
  change execRdframe buf s = .next u at h
  unfold execRdframe inDomain at h
  split at h
  · rcases hq : readNextFrame s with ⟨cause' | f, s1⟩ <;> rw [hq] at h <;> cases h
    · cases hu
      exact ⟨rfl, rfl⟩
    · cases hu
  · cases h

/-! ## One pass of the message loop -/

/-- What a message that is not Source Capabilities does to the sequencer (R195 to R198): a control message has
the effect of its type, a data message none. -/
def Sequencer.onOtherMessage (c : Params) (h : HeaderFields) (q : Sequencer) : Sequencer :=
  if h.ndo = 0 then q.onControl c h.type else q

/-- The state of the sequencer and the time it was entered at are not a message's to change. -/
theorem onOtherMessage_frame (c : Params) (h : HeaderFields) (q : Sequencer) :
    (q.onOtherMessage c h).nstate = q.nstate ∧ (q.onOtherMessage c h).twait = q.twait := by
  obtain ⟨r, k, p, e⟩ := onControl_frame c h.type q
  unfold Sequencer.onOtherMessage
  split
  · rw [e]; exact ⟨rfl, rfl⟩
  · exact ⟨rfl, rfl⟩

/-- A message that is not Source Capabilities touches the sequencer only (R190). -/
theorem dispatchMessage_other {f : RxFrame}
    (h : (headerFields f.header).ndo = 0 ∨ (headerFields f.header).type ≠ s.cfg.dataSourceCap) :
    dispatchMessage f s =
      (false, { s with seq := s.seq.onOtherMessage s.cfg (headerFields f.header) }) := by
  unfold dispatchMessage Sequencer.onOtherMessage
  by_cases hn : (headerFields f.header).ndo = 0
  · simp only [if_pos hn]
  · simp only [if_neg hn, if_neg (h.resolve_left hn)]

/-- A pass that finds such a message handles it, and the loop goes on (R190). -/
theorem messagePass_other {bytes : List Byte} {f : RxFrame}
    (hr : (regRead s.cfg.regStatus1 1 s).1 = some bytes) (he : rxEmptyBit s.cfg bytes = false)
    (hf : (readNextFrame (regRead s.cfg.regStatus1 1 s).2).1 = .ok f)
    (h : (headerFields f.header).ndo = 0 ∨ (headerFields f.header).type ≠ s.cfg.dataSourceCap) :
    messagePass s = (some false, { (readNextFrame (regRead s.cfg.regStatus1 1 s).2).2 with
      seq := s.seq.onOtherMessage s.cfg (headerFields f.header) }) := by
  rw [messagePass_message s hr he hf, dispatchMessage_other _ (by simpa using h)]
  simp

/-- A pass on a whole frame of such a message, every read answered: the frame leaves the FIFO, three answers are
taken. -/
theorem messagePass_takes_other {d1 d2 d3 : Draw} {script : List Draw} {b sop lo hi : Byte} {body rest : List Byte}
    (hok : s.cfg.Ok) (hscript : s.env.script = d1 :: d2 :: d3 :: script)
    (h1 : d1.ok = true) (h2 : d2.ok = true) (h3 : d3.ok = true)
    (hd : d1.data = [b]) (hb : b &&& s.cfg.status1RxEmpty = 0)
    (hfifo : s.chip.rxFifo = sop :: lo :: hi :: (body ++ rest))
    (hbody : body.length = 4 * (headerFields (fromLe16 lo hi)).ndo.toNat + 4)
    (hsop : sop &&& s.cfg.rxSopMask = s.cfg.rxSopTag)
    (hother : (headerFields (fromLe16 lo hi)).ndo = 0 ∨
      (headerFields (fromLe16 lo hi)).type ≠ s.cfg.dataSourceCap) :
    ∃ v, messagePass s = (some false, v) ∧ v.cfg = s.cfg ∧ v.vs = s.vs ∧
      v.seq = s.seq.onOtherMessage s.cfg (headerFields (fromLe16 lo hi)) ∧
      v.chip.rxFifo = rest ++ d1.arrive ++ d2.arrive ++ d3.arrive ∧
      v.env = { s.env with script := script, draws := s.env.draws + 3 } := by
  obtain ⟨hr, hq, he⟩ := regRead_register_ok s hok.regStatus1_ne_regFifo hscript h1 hd
  have hq' : (regRead s.cfg.regStatus1 1 s).2.chip.rxFifo = sop :: lo :: hi :: (body ++ (rest ++ d1.arrive)) := by
    rw [hq, hfifo]
    simp
  obtain ⟨hf, hframe, hleft, -⟩ :=
    readNextFrame_ok _ he h2 h3 hq' (decide_eq_true hsop) hbody
  refine ⟨_, messagePass_other s hr (decide_eq_false (not_not.2 hb)) hf hother,
    readNextFrame_cfg _, readNextFrame_vs _, rfl, hleft, ?_⟩
  rw [hframe]
  simp [hscript]

/-- A pass whose status read, answered, shows the FIFO empty: that read is all it does. -/
theorem messagePass_finds_empty {d : Draw} {script : List Draw} {b : Byte}
    (hok : s.cfg.Ok) (hscript : s.env.script = d :: script) (h : d.ok = true) (hd : d.data = [b])
    (hb : b &&& s.cfg.status1RxEmpty ≠ 0) :
    ∃ u, messagePass s = (none, u) ∧ u.cfg = s.cfg ∧ u.vs = s.vs ∧ u.seq = s.seq ∧
      u.chip.rxFifo = s.chip.rxFifo ++ d.arrive ∧
      u.env = { s.env with script := script, draws := s.env.draws + 1 } := by
  obtain ⟨hr, hq, -⟩ := regRead_register_ok s hok.regStatus1_ne_regFifo hscript h hd
  refine ⟨_, messagePass_empty s hr (decide_eq_true hb), rfl, rfl, rfl, hq, ?_⟩
  simp [hscript]

/-! ## `UPDATE` and its message loop -/

/-- A pass that ends the loop at once. -/
theorem messageLoop_of_ends {s u : State} (n : Nat) (saw : Bool) (h : messagePass s = (none, u)) :
    messageLoop (n + 1) saw s = (.ended saw, u) := by
  unfold messageLoop
  rw [h]

/-- A pass that handles a message, then one that ends the loop. -/
theorem messageLoop_of_goesOn_ends {s v u : State} {seen : Bool} (n : Nat) (saw : Bool)
    (h1 : messagePass s = (some seen, v)) (h2 : messagePass v = (none, u)) :
    messageLoop (n + 2) saw s = (.ended (saw || seen), u) := by
  unfold messageLoop
  rw [h1]
  exact messageLoop_of_ends n _ h2

/-- In the two states with a message loop, an `UPDATE` whose loop ends returns at its end (R192, R193). -/
theorem exec_update_of_ended {s u : State} {saw : Bool}
    (hs : s.seq.nstate = .connected ∨ s.seq.nstate = .waitSourceCapabilities)
    (h : messageLoop (s.env.script.length + 1) false s = (.ended saw, u)) :
    exec .update s = .next (loopReturns .update saw u) := by
  change execUpdate s = _
  unfold execUpdate
  rcases hs with hs | hs <;> rw [hs] <;> simp only [runLoop, h]

/-- The end of the loop in Connected (R193). -/
theorem loopReturns_connected {u : State} (saw : Bool) (hu : u.seq.nstate = .connected) :
    loopReturns .update saw u = { u with loop := none, result := .state .connected } := by
  unfold loopReturns
  simp only [hu, returnsNstate, State.returns]

/-- Where the exit test of WaitSourceCapabilities, at the clock value `now`, sends the sequencer when no Source
Capabilities were seen (R192). -/
def Sequencer.waited (c : Params) (now : Nat) (q : Sequencer) : Sequencer :=
  { q with nstate :=
      if c.tSrccapTimeoutMs < (now + 2 ^ c.clockWidth - q.twait) % 2 ^ c.clockWidth then .enableTransceiver
      else .waitSourceCapabilities }

/-- The exit test with no Source Capabilities seen (R192): one reading of the clock, and the timeout. -/
theorem afterWait_unseen (hs : s.seq.nstate = .waitSourceCapabilities) (ht : s.seq.twait < 2 ^ s.cfg.clockWidth) :
    afterWait false s = { (nowMs s).2 with seq := s.seq.waited s.cfg (nowMs s).1 } := by
  simp only [afterWait, Sequencer.waited, Bool.false_eq_true, if_false, nowMs_cfg, nowMs_seq, elapsedMs_of_lt _ ht]
  split
  · rfl
  · rw [← hs]; rfl

/-- The end of the loop in WaitSourceCapabilities when no Source Capabilities were seen (R192): one reading of the
clock, and the exit test on its value. -/
theorem loopReturns_waiting {u : State} (hu : u.seq.nstate = .waitSourceCapabilities)
    (ht : u.seq.twait < 2 ^ u.cfg.clockWidth) :
    let t := loopReturns .update false u
    t.cfg = u.cfg ∧ t.vs = u.vs ∧ t.loop = none ∧ t.seq = u.seq.waited u.cfg (nowMs u).1 ∧
    t.result = .state t.seq.nstate ∧ t.trace = u.trace ++ [.now (nowMs u).1] ∧
    t.chip.rxFifo = u.chip.rxFifo ++ u.nextDraw.arrive := by
  have hend : loopReturns .update false u = returnsNstate (afterWait false { u with loop := none }) := by
    unfold loopReturns
    simp only [hu]
  rw [hend, afterWait_unseen { u with loop := none } hu ht]
  exact ⟨nowMs_cfg u, nowMs_vs u, rfl, rfl, rfl, nowMs_trace u, rfl⟩

/-! ## `INIT` and the ticks without a message loop -/

/-- An abstract action leaves the block, its ports and its parameters as they were (R33). -/
theorem chipAction_sameBlock (a : ChipAction) : s.SameBlock (chipAction a s).2 :=
  ⟨chipAction_cfg s a, chipAction_seq s a, chipAction_vs s a, chipAction_port s a, chipAction_wire s a,
    chipAction_loop s a⟩

/-- `INIT` is one `ChipInit`, and its outcome (R185). -/
theorem exec_init :
    exec .init s = .next ((chipAction .chipInit s).2.returns
      (if s.nextDraw.ok then .ok else .fail (if s.nextDraw.readFault then .ioRead else .ioWrite))) := by
  change execInit s = _
  unfold execInit
  cases hd : s.nextDraw.ok with
  | false =>
    have hfailed : chipAction .chipInit s =
        (some (if s.nextDraw.readFault then .ioRead else .ioWrite), (chipAction .chipInit s).2) :=
      Prod.ext (by rw [chipAction_fst, hd]; rfl) rfl
    rw [hfailed]
    rfl
  | true =>
    rw [chipAction_ok s _ hd]
    rfl

/-- A tick in EnableTransceiver whose `TransceiverEnable` fails does nothing more (R191). -/
theorem tickEnable_failed (pin : CcPin) (h : s.nextDraw.ok = false) :
    tickEnable pin s = (chipAction (.transceiverEnable pin) s).2 := by
  rw [tickEnable_eq, h]
  rfl

/-- A tick in EnableTransceiver whose `TransceiverEnable` succeeds takes the clock value and goes on (R191). -/
theorem tickEnable_ok (pin : CcPin) (h : s.nextDraw.ok = true) :
    tickEnable pin s = { (nowMs (chipAction (.transceiverEnable pin) s).2).2 with seq := { s.seq with
      twait := (nowMs (chipAction (.transceiverEnable pin) s).2).1, nstate := .waitSourceCapabilities } } := by
  rw [tickEnable_eq, h]
  rfl

/-- A tick in EnableTransceiver touches the sequencer, the chip, the environment and the record only. -/
theorem tickEnable_frame (pin : CcPin) :
    (tickEnable pin s).cfg = s.cfg ∧ (tickEnable pin s).vs = s.vs ∧ (tickEnable pin s).port = s.port ∧
    (tickEnable pin s).wire = s.wire ∧ (tickEnable pin s).loop = s.loop := by
  rw [tickEnable_eq]
  dsimp only
  split <;> simp

/-- `UPDATE` in EnableTransceiver with its pin is that state's tick (R187, R191). -/
theorem exec_update_enable {pin : CcPin} (hs : s.seq.nstate = .enableTransceiver) (hp : s.seq.ccpin = some pin) :
    exec .update s = .next (returnsNstate (tickEnable pin s)) := by
  change execUpdate s = _
  unfold execUpdate
  simp only [hs, hp]

end NegotiationOperations

/-! ## The statements -/

/-- Settles O33: `INIT` returns the outcome of its one abstract action, which leaves the block alone. -/
theorem initReportsChipOutcome : Obligations.InitReportsChipOutcome := by
  intro s d
  refine ⟨_, exec_init s, chipAction_sameBlock s .chipInit, chipAction_trace s .chipInit,
    fun hd => ?succeeded, fun hd => ?failed⟩
  case succeeded =>
    rw [returns_result, if_pos hd]
  case failed =>
    rw [returns_result, show s.nextDraw.ok = false from hd]
    cases s.nextDraw.readFault with
    | false => exact .inr rfl
    | true => exact .inl rfl

/-- Settles O44: each read-out sets the result; the pin's number is that of the pin chosen. -/
theorem readOutsReturnState : Obligations.ReadOutsReturnState := by
  intro s
  refine ⟨rfl, rfl, rfl, pinNumber s.seq.ccpin, rfl, fun h => ?_, fun h => ?_, fun h => ?_⟩ <;> rw [h] <;> rfl

/-- Settles O38: the tick is `TransceiverEnable` and, when it succeeds, one reading of the clock. -/
theorem updateInEnableTransceiver : Obligations.UpdateInEnableTransceiver := by
  intro s pin hs hp d1 now
  obtain ⟨hcfg, hvs, hport, hwire, hloop⟩ := tickEnable_frame s pin
  refine ⟨_, exec_update_enable s hs hp, hcfg, hvs, hport, hwire, hloop, rfl, fun hd => ?failed,
    fun hd => ?succeeded⟩
  case failed =>
    rw [tickEnable_failed s pin hd]
    refine ⟨rfl, ?_⟩
    change (chipAction (.transceiverEnable pin) s).2.trace = _
    rw [chipAction_trace, show s.nextDraw.ok = false from hd]
  case succeeded =>
    have hnow : (nowMs (chipAction (.transceiverEnable pin) s).2).1 = now := nowMs_fst _
    rw [tickEnable_ok s pin hd, hnow]
    refine ⟨rfl, ?_⟩
    change (nowMs (chipAction (.transceiverEnable pin) s).2).2.trace = _
    rw [nowMs_trace, hnow, chipAction_trace, show s.nextDraw.ok = true from hd, List.append_assoc]
    rfl

/-- Settles O39: the first pass ends the loop with its status read, and the exit test follows. -/
theorem updateWaitTimesOut : Obligations.UpdateWaitTimesOut := by
  intro s hs ht r now elapsed hnone
  have hpass : messagePass s = (none, r.2) := by
    rcases hnone with hr | ⟨b, hr, hb⟩
    · exact messagePass_unanswered s hr
    · exact messagePass_empty s hr (decide_eq_true hb)
  have hnow : (nowMs r.2).1 = now := nowMs_fst r.2
  have htrace : r.2.trace = s.trace ++ [.read s.cfg.regStatus1 1 r.1, .delay s.cfg.tXactDelayUs] :=
    regRead_trace s s.cfg.regStatus1 1
  obtain ⟨tcfg, tvs, tloop, tseq, tresult, ttrace, -⟩ := loopReturns_waiting (u := r.2) hs ht
  rw [hnow] at tseq ttrace
  rw [htrace, List.append_assoc] at ttrace
  refine ⟨_, exec_update_of_ended (.inr hs) (messageLoop_of_ends _ false hpass), tcfg, tvs, tloop, ttrace,
    fun h => ?expired, fun h => ?waiting⟩
  case expired =>
    have hseq : s.seq.waited s.cfg now = { s.seq with nstate := .enableTransceiver } := by
      rw [Sequencer.waited, if_pos h]
    exact ⟨tseq.trans hseq, by rw [tresult, tseq.trans hseq]⟩
  case waiting =>
    have hseq : s.seq.waited s.cfg now = s.seq := by
      rw [Sequencer.waited, if_neg (Nat.not_lt.2 h), ← hs]
    exact ⟨tseq.trans hseq, by rw [tresult, tseq.trans hseq, hs]⟩

/-- Settles O58: the first pass ends the loop with the chip as the failed `RDFRAME` left it. -/
theorem updateEndsAtUnreadFrame : Obligations.UpdateEndsAtUnreadFrame := by
  intro s u b buf free cause c r hr hb _ hexec hu now elapsed
  obtain ⟨herror, rfl⟩ := exec_rdframe_noFrame r.2 hexec hu
  have hpass := messagePass_noFrame s hr (decide_eq_false (not_not.2 hb)) herror
  have hloop := messageLoop_of_ends s.env.script.length false hpass
  have hseq : (readNextFrame r.2).2.seq = s.seq := readNextFrame_seq r.2
  have hcfg : (readNextFrame r.2).2.cfg = s.cfg := readNextFrame_cfg r.2
  refine ⟨fun hs => ?connected, fun hs ht => ?waiting⟩
  case connected =>
    rw [exec_update_of_ended (.inl hs) hloop, loopReturns_connected false (hseq.symm ▸ hs)]
    rfl
  case waiting =>
    have hnow : (nowMs (readNextFrame r.2).2).1 = now := by
      rw [nowMs_fst, hcfg, readNextFrame_clock]
      rfl
    obtain ⟨tcfg, tvs, tloop, tseq, tresult, ttrace, tfifo⟩ :=
      loopReturns_waiting (u := (readNextFrame r.2).2) (hseq.symm ▸ hs) (by rw [hseq, hcfg]; exact ht)
    rw [hnow] at tseq ttrace
    rw [hseq, hcfg] at tseq
    exact ⟨_, exec_update_of_ended (.inr hs) hloop, tcfg.trans hcfg, tvs.trans (readNextFrame_vs r.2), tloop, tseq,
      tresult, ttrace, tfifo⟩

/-- Settles O57: the first pass handles the message, the second finds the FIFO empty and ends the loop. -/
theorem updateAppliesOtherMessage : Obligations.UpdateAppliesOtherMessage := by
  intro s d1 d2 d3 d4 script b1 b4 sop lo hi body queue c ndo type hok hscript h1 h2 h3 h4 hd1 hb1 hd4 hb4
    hfifo hbody hsop hother q applied d5 now elapsed left
  have hzero := fromLe16_ndo_eq_zero_iff lo hi
  have htype := fromLe16_type_eq lo hi
  have happlied : s.seq.onOtherMessage s.cfg (headerFields (fromLe16 lo hi)) = applied := by
    simp only [Sequencer.onOtherMessage, Sequencer.onControl, hzero, htype, applied, ite_not, ndo, type, q, c]
  obtain ⟨hnstate, htwait⟩ := onOtherMessage_frame s.cfg (headerFields (fromLe16 lo hi)) s.seq
  obtain ⟨v, hpass1, hvcfg, hvvs, hvseq, hvfifo, hvenv⟩ :=
    messagePass_takes_other s hok hscript h1 h2 h3 hd1 hb1 hfifo (by rw [fromLe16_ndo]; exact hbody) hsop
      (hother.imp hzero.2 (by rw [htype]; exact id))
  obtain ⟨u, hpass2, hucfg, huvs, huseq, hufifo, huenv⟩ := messagePass_finds_empty v (hvcfg ▸ hok)
    (by rw [hvenv]) h4 hd4 (by rw [hvcfg]; exact hb4)
  rw [hvcfg] at hucfg
  rw [hvvs] at huvs
  rw [hvseq, happlied] at huseq
  rw [hvfifo] at hufifo
  rw [hvenv] at huenv
  rw [happlied] at hnstate htwait
  have hloop : messageLoop (s.env.script.length + 1) false s = (.ended false, u) := by
    rw [hscript]
    exact messageLoop_of_goesOn_ends _ false hpass1 hpass2
  refine ⟨fun hs => ?connected, fun hs ht => ?waiting⟩
  case connected =>
    have hend := exec_update_of_ended (.inl hs) hloop
    rw [loopReturns_connected false (by rw [huseq, hnstate]; exact hs)] at hend
    exact ⟨_, hend, hucfg, huvs, rfl, huseq, rfl, hufifo⟩
  case waiting =>
    have hdraw : u.nextDraw = d5 := by rw [nextDraw_eq_headD, huenv]
    have hnow : (nowMs u).1 = now := by rw [nowMs_fst, hdraw, hucfg, huenv]
    have hwaited : u.seq.waited u.cfg (nowMs u).1 = { applied with nstate :=
        if c.tSrccapTimeoutMs < elapsed then .enableTransceiver else .waitSourceCapabilities } := by
      rw [hnow, huseq, hucfg, Sequencer.waited, htwait]
    obtain ⟨tcfg, tvs, tloop, tseq, tresult, -, tfifo⟩ := loopReturns_waiting (u := u)
      (by rw [huseq, hnstate]; exact hs) (by rw [huseq, htwait, hucfg]; exact ht)
    rw [hufifo, hdraw] at tfifo
    exact ⟨_, exec_update_of_ended (.inr hs) hloop, tcfg.trans hucfg, tvs.trans huvs, tloop, tseq.trans hwaited,
      tresult, tfifo⟩

/-- Settles O40: the case of O57 with no objects in Connected; the codes are distinct, so each type has one
effect. -/
theorem updateAppliesControlMessage : Obligations.UpdateAppliesControlMessage := by
  intro s d1 d2 d3 d4 script b1 b4 sop lo hi c0 c1 c2 c3 queue type hok hs hscript h1 h2 h3 h4 hd1 hb1 hd4 hb4
    hfifo hsop hndo htype
  obtain ⟨hreject, hready, hready'⟩ := hok.ctrl_ne
  have hlo : lo.extractLsb' 0 5 = type := by
    apply BitVec.eq_of_toNat_eq
    rw [htype, BitVec.extractLsb'_toNat]
    rfl
  obtain ⟨hconnected, -⟩ := updateAppliesOtherMessage s d1 d2 d3 d4 script b1 b4 sop lo hi [c0, c1, c2, c3] queue
    hok hscript h1 h2 h3 h4 hd1 hb1 hd4 hb4 hfifo (by rw [hndo]; rfl) hsop (.inl hndo)
  obtain ⟨t, hexec, hcfg, hvs, hloop, hseq, hresult, hleft⟩ := hconnected hs
  rw [hlo, if_neg (not_not.2 hndo)] at hseq
  refine ⟨t, hexec, hcfg, hvs, hloop, hresult, fun h => ?accept, fun h => ?reject, fun h => ?ready,
    fun ha hr hp => ?other, hleft⟩
  case accept => rw [hseq, if_pos h]
  case reject => rw [hseq, h, if_neg hreject, if_pos rfl]
  case ready => rw [hseq, h, if_neg hready, if_neg hready', if_pos rfl]
  case other => rw [hseq, if_neg ha, if_neg hr, if_neg hp]

end Sys2Proof.Machine
end

section
/-!
PROOFS. The statement of `spec/60_exceptions.md` about receiving a frame: what `RDFRAME` returns, issues and leaves in
the FIFO for each pair of answers (O26). The facts about a header's bytes, about a read of `REG_FIFO` and about
`RDFRAME` that it rests on come first, in the order of the model's definitions.
-/

namespace Sys2Proof

/-! ## Byte order -/

/-- A half read from two bytes lays out as those bytes (R124, R125). -/
theorem le16_fromLe16 (b0 b1 : Byte) : le16 (fromLe16 b0 b1) = [b0, b1] := by
  unfold le16 fromLe16
  simp only [List.cons.injEq, and_true]
  constructor <;> (apply BitVec.eq_of_getLsbD_eq; intro i hi; interval_cases i <;> simp)

end Sys2Proof

namespace Sys2Proof.Machine

section FrameOutcomes

variable (s : State)

/-! ## Reads of `REG_FIFO` -/

/-- A read that delivered bytes was answered; at the FIFO they are its next bytes, as far as it holds them, and are
gone from it (R34, R53). -/
theorem regRead_fifo_answered {n : Nat} {bytes : List Byte} (h : (regRead s.cfg.regFifo n s).1 = some bytes) :
    s.nextDraw.ok = true ∧
    bytes.take (s.chip.rxFifo ++ s.nextDraw.arrive).length = (s.chip.rxFifo ++ s.nextDraw.arrive).take n ∧
    (regRead s.cfg.regFifo n s).2.chip.rxFifo = (s.chip.rxFifo ++ s.nextDraw.arrive).drop n := by
  have hok : s.nextDraw.ok = true := by
    by_contra hfail
    rw [regRead_failed s (Bool.eq_false_of_not_eq_true hfail)] at h
    cases h
  obtain ⟨delivered, hread, -, hfront⟩ := regRead_fifo_delivers s n hok
  cases h.symm.trans hread
  exact ⟨hok, hfront, by rw [regRead_fifo_left, if_pos hok]⟩

/-- A read that delivered nothing had failed; at the FIFO a free number of bytes is gone, at most the length asked
(R219; log entry 7). -/
theorem regRead_fifo_unanswered {n : Nat} (h : (regRead s.cfg.regFifo n s).1 = none) :
    s.nextDraw.ok = false ∧
    ∃ k, k ≤ n ∧
      (regRead s.cfg.regFifo n s).2.chip.rxFifo = (s.chip.rxFifo ++ s.nextDraw.arrive).drop k := by
  have hfail : s.nextDraw.ok = false := by
    by_contra hok
    rw [regRead_fst, if_pos (Bool.eq_true_of_not_eq_false hok)] at h
    cases h
  refine ⟨hfail, min s.nextDraw.moved n, Nat.min_le_right .., ?_⟩
  rw [regRead_fifo_left, hfail]
  rfl

/-! ## `RDFRAME` -/

/-- The buffer after a failure keeps its length (D16). -/
theorem freeBuffer_length (buf : List Byte) : (freeBuffer s buf).length = buf.length := by
  simp [freeBuffer]

/-- The buffer after a frame (R145): the header's two bytes, the data, and the rest as it was. -/
theorem fillBuffer_fromLe16 (buf data : List Byte) (lo hi : Byte) :
    fillBuffer buf { header := fromLe16 lo hi, data := data } =
      lo :: hi :: (data ++ buf.drop (2 + data.length)) := by
  simp [fillBuffer, le16_fromLe16]

/-- `RDFRAME` when no frame could be read returns the cause and a buffer of any content (R145, D16). -/
theorem exec_rdframe_of_error {s u : State} {buf : List Byte} {cause : Cause} (hbuf : Config.rxBufMin ≤ buf.length)
    (h : readNextFrame s = (.error cause, u)) :
    exec (.rdframe buf) s = .next (u.returns (.noFrame cause (freeBuffer u buf))) := by
  change execRdframe buf s = _
  rw [execRdframe, inDomain_next _ (decide_eq_true hbuf), h]

/-- `RDFRAME` when a frame was read returns it in the caller's buffer (R145). -/
theorem exec_rdframe_of_ok {s u : State} {buf : List Byte} {f : RxFrame} (hbuf : Config.rxBufMin ≤ buf.length)
    (h : readNextFrame s = (.ok f, u)) :
    exec (.rdframe buf) s = .next (u.returns (.frame (fillBuffer buf f))) := by
  change execRdframe buf s = _
  rw [execRdframe, inDomain_next _ (decide_eq_true hbuf), h]

/-- Receiving a frame leaves the block, its ports, its parameters and every register as they were, whatever is
returned (R59, R145). -/
theorem readNextFrame_frame {s u : State} {answer : Except Cause RxFrame} (h : readNextFrame s = (answer, u))
    (r : Result) :
    s.SameBlock (u.returns r) ∧ ∀ a, (u.returns r).chip.regs.read a = s.chip.regs.read a := by
  obtain rfl : (readNextFrame s).2 = u := congrArg Prod.snd h
  exact ⟨⟨readNextFrame_cfg s, readNextFrame_seq s, readNextFrame_vs s, readNextFrame_port s, readNextFrame_wire s,
    readNextFrame_loop s⟩, fun a => by rw [returns_chip, readNextFrame_regs]⟩

/-- What the two reads of a frame record, one behind the other, each with its pause (R54, R145). -/
theorem regRead_regRead_trace (addr addr' : Byte) (m n : Nat) :
    (regRead addr' n (regRead addr m s).2).2.trace = s.trace ++
      [.read addr m (regRead addr m s).1, .delay s.cfg.tXactDelayUs,
        .read addr' n (regRead addr' n (regRead addr m s).2).1, .delay s.cfg.tXactDelayUs] := by
  rw [regRead_trace, regRead_trace, regRead_cfg, List.append_assoc]
  rfl

end FrameOutcomes

/-! ## The statement -/

/-- Settles O26: receiving a frame ends in one of four ways, and each way says how the host answered, whether the
start-of-frame test passed, and what the reads took. -/
theorem readFrameOutcomes : Obligations.ReadFrameOutcomes := by
  intro buf s hbuf c pause d1 d2 queue
  rcases readNextFrame_cases s with ⟨hfirst, e⟩ | ⟨bytes, hfirst, hsop, e⟩ | ⟨bytes, hfirst, hsop, hrest⟩
  case inl =>
    obtain ⟨hfail, hgone⟩ := regRead_fifo_unanswered s hfirst
    have htrace := regRead_trace s s.cfg.regFifo 3
    rw [hfirst] at htrace
    obtain ⟨hblock, hregs⟩ := readNextFrame_frame e (.noFrame .ioRead (freeBuffer _ buf))
    exact ⟨_, exec_rdframe_of_error hbuf e, hblock, hregs,
      fun _ => ⟨⟨_, rfl, freeBuffer_length ..⟩, htrace, hgone⟩, fun hyes => absurd hyes (ne_true_of_eq_false hfail)⟩
  all_goals
    obtain ⟨b0, b1, b2, rfl⟩ := List.length_eq_three.1 (regRead_length s hfirst)
    obtain ⟨hok, hfront, hqueue⟩ := regRead_fifo_answered s hfirst
  case inr.inl =>
    have hmismatch : b0 &&& c.rxSopMask ≠ c.rxSopTag := of_decide_eq_false hsop
    have htrace := regRead_trace s s.cfg.regFifo 3
    rw [hfirst] at htrace
    obtain ⟨hblock, hregs⟩ := readNextFrame_frame e (.noFrame .sopMismatch (freeBuffer _ buf))
    exact ⟨_, exec_rdframe_of_error hbuf e, hblock, hregs, fun hno => absurd hno (ne_false_of_eq_true hok),
      fun _ => ⟨b0, b1, b2, hfront, fun _ => ⟨⟨_, rfl, freeBuffer_length ..⟩, htrace, hqueue⟩,
        fun hmatch => absurd hmatch hmismatch, fun hmatch => absurd hmatch hmismatch⟩⟩
  case inr.inr =>
    have hmatch : b0 &&& c.rxSopMask = c.rxSopTag := of_decide_eq_true hsop
    simp only [List.getD_cons_succ, List.getD_cons_zero, fromLe16_ndo] at hrest
    have htrace := regRead_regRead_trace s c.regFifo c.regFifo 3 (4 * (b2.toNat / 16 % 8) + 4)
    rw [hfirst] at htrace
    rcases hrest with ⟨hsecond, e⟩ | ⟨data, hsecond, e⟩
    case inl =>
      obtain ⟨hfail, hgone⟩ := regRead_fifo_unanswered (regRead s.cfg.regFifo 3 s).2 hsecond
      rw [hsecond] at htrace
      rw [hqueue] at hgone
      obtain ⟨hblock, hregs⟩ := readNextFrame_frame e (.noFrame .ioRead (freeBuffer _ buf))
      exact ⟨_, exec_rdframe_of_error hbuf e, hblock, hregs, fun hno => absurd hno (ne_false_of_eq_true hok),
        fun _ => ⟨b0, b1, b2, hfront, fun hne => absurd hmatch hne,
          fun _ _ => ⟨⟨_, rfl, freeBuffer_length ..⟩, htrace, hgone⟩,
          fun _ hyes => absurd hyes (ne_true_of_eq_false hfail)⟩⟩
    case inr =>
      obtain ⟨hyes, hbody, hleft⟩ := regRead_fifo_answered (regRead s.cfg.regFifo 3 s).2 hsecond
      rw [hsecond] at htrace
      rw [hqueue] at hbody hleft
      have hlength : data.length = 4 * (b2.toNat / 16 % 8) + 4 := regRead_length _ hsecond
      have hexec := exec_rdframe_of_ok hbuf e
      rw [fillBuffer_fromLe16, List.length_take_of_le (by omega)] at hexec
      obtain ⟨hblock, hregs⟩ := readNextFrame_frame e (.frame _)
      exact ⟨_, hexec, hblock, hregs, fun hno => absurd hno (ne_false_of_eq_true hok),
        fun _ => ⟨b0, b1, b2, hfront, fun hne => absurd hmatch hne, fun _ hno => absurd hno (ne_false_of_eq_true hyes),
          fun _ _ => ⟨data, hlength, hbody, rfl, htrace, hleft⟩⟩⟩

end Sys2Proof.Machine
end

section
/-!
PROOFS. The statement of `spec/60_exceptions.md` about one pass of the message loop, from every state (O56). The facts
about the Request's words, about a control message's effect and about Source Capabilities that it rests on come first,
in the order of the model's definitions.
-/

namespace Sys2Proof

/-! ## The Request word -/

/-- The Request's layout (R86): flag bit 24 set, bits 31, 27:25 and 23:20 clear. -/
theorem requestWord_eq_append (i : BitVec 3) (o m : BitVec 10) :
    requestWord i o m = (i ++ 1#4 ++ 0#4 ++ o ++ m).setWidth 32 := by
  apply BitVec.eq_of_getLsbD_eq
  intro j hj
  simp only [requestWord, BitVec.getLsbD_or, BitVec.getLsbD_shiftLeft, BitVec.getLsbD_setWidth, BitVec.getLsbD_append]
  interval_cases j <;> simp

/-- The Request word as a number (R86): each field at its offset, and the flag. -/
theorem requestWord_toNat (i : BitVec 3) (o m : BitVec 10) :
    (requestWord i o m).toNat = i.toNat * 2 ^ 28 + 2 ^ 24 + o.toNat * 1024 + m.toNat := by
  rw [requestWord_eq_append, BitVec.toNat_setWidth_of_le (by decide)]
  simp only [toNat_append_eq_add, BitVec.toNat_ofNat]
  omega

end Sys2Proof

namespace Sys2Proof.Machine

section MessagePass

/-! ## A Request at an advertised current -/

/-- A current in whole units of 10 mA goes into the Request as that many units (R87). -/
theorem requestRaw_mul_ten {raw : Nat} (h : raw < 1024) : (requestRaw (raw * 10)).toNat = raw := by
  simp only [requestRaw, Config.maPerCurRaw, BitVec.toNat_ofNat]
  omega

/-- The Request for a capability at the current it advertises holds the capability's raw current, twice (R86,
R199). -/
theorem packRequest_advertised_toNat (index : BitVec 3) (capability : Word) :
    (packRequest index (unpackCapability capability).maxCurrentMa).toNat =
      index.toNat * 2 ^ 28 + 2 ^ 24 + capability.toNat % 1024 * 1024 + capability.toNat % 1024 := by
  rw [packRequest, requestWord_toNat, unpackCapability_maxCurrentMa, requestRaw_mul_ten (Nat.mod_lt _ (by decide))]

variable (s : State)

/-- The header of a Request as a number (R80, R199): one object, the message id not yet advanced. -/
theorem requestHeader_toNat :
    (requestHeader s).toNat = 4096 + s.seq.msgid.toNat * 512 + s.cfg.roleSink.toNat * 256 +
      s.cfg.specRev20.toNat * 64 + s.cfg.roleUfp.toNat * 32 + s.cfg.dataRequest.toNat :=
  headerWord_toNat 1 s.seq.msgid s.cfg.roleSink s.cfg.specRev20 s.cfg.roleUfp s.cfg.dataRequest

/-! ## Control messages (R195 to R198) -/

/-- The effect of each type of control message, the codes being distinct (D6). -/
theorem onControl_effects {c : Params} (hok : c.Ok) (type : BitVec 5) (q : Sequencer) :
    (type = c.ctrlAccept → q.onControl c type = { q with curcap := q.reqcap }) ∧
    (type = c.ctrlReject → q.onControl c type = { q with reqcap := q.curcap }) ∧
    (type = c.ctrlPsRdy → q.onControl c type = { q with pwrstable := true }) ∧
    (type ≠ c.ctrlAccept → type ≠ c.ctrlReject → type ≠ c.ctrlPsRdy → q.onControl c type = q) := by
  obtain ⟨hreject, hready, hready'⟩ := hok.ctrl_ne
  unfold Sequencer.onControl
  refine ⟨fun h => if_pos h, fun h => ?_, fun h => ?_, fun ha hr hp => ?_⟩
  · rw [h, if_neg hreject, if_pos rfl]
  · rw [h, if_neg hready, if_neg hready', if_pos rfl]
  · rw [if_neg ha, if_neg hr, if_neg hp]

/-! ## Source Capabilities (R194) -/

/-- Source Capabilities are handed to their handler (R190). -/
theorem dispatchMessage_sourceCapabilities {f : RxFrame} (hndo : (headerFields f.header).ndo ≠ 0)
    (htype : (headerFields f.header).type = s.cfg.dataSourceCap) :
    dispatchMessage f s =
      (true, onSourceCapabilities (headerFields f.header).ndo (wordsOf f.data) s) := by
  unfold dispatchMessage
  simp only [if_neg hndo, if_pos htype]

/-- The sequencer `q` with the list and count that `t` holds, and the marker set: all that Source Capabilities change,
but for the automatic Request (R194). -/
def Sequencer.storedAs (q t : Sequencer) : Sequencer :=
  { q with caplist := t.caplist, capcount := t.capcount, srccapseen := true }

/-- First or later, Source Capabilities are stored; the parameters, the sampler and the loop's mark are not
theirs to change (R194). -/
theorem onSourceCapabilities_stores (ndo : BitVec 3) (objects : List Word) :
    let t := onSourceCapabilities ndo objects s
    t.cfg = s.cfg ∧ t.vs = s.vs ∧ t.loop = s.loop ∧
    t.seq.caplist = storeCaps s.seq.caplist objects ∧ t.seq.capcount = (s.seq.storing ndo objects).capcount := by
  intro t
  rcases onSourceCapabilities_cases s ndo objects with ⟨-, e⟩ | ⟨-, e⟩
  · rw [show t = _ from e]
    exact ⟨rfl, rfl, rfl, rfl, rfl⟩
  · rw [show t = _ from e, requestCapability_cfg, requestCapability_vs, requestCapability_loop, requestCapability_seq]
    refine ⟨rfl, rfl, rfl, ?_⟩
    split <;> exact ⟨rfl, rfl⟩

/-- Later Source Capabilities are stored and nothing else happens: no transaction, and the marker stands (R194). -/
theorem onSourceCapabilities_later (h : s.seq.srccapseen = true) (ndo : BitVec 3) (objects : List Word) :
    let t := onSourceCapabilities ndo objects s
    t.trace = s.trace ∧ t.chip = s.chip ∧ t.seq = s.seq.storedAs t.seq := by
  intro t
  rcases onSourceCapabilities_cases s ndo objects with ⟨-, e⟩ | ⟨h', -⟩
  · rw [show t = _ from e]
    exact ⟨rfl, rfl, by rw [Sequencer.storedAs, ← h]; rfl⟩
  · rw [h] at h'
    cases h'

/-- The first Source Capabilities set the marker and send one Request for capability 1 at the current it advertises,
which counts only when its write succeeded (R194, R199, R260). -/
theorem onSourceCapabilities_first (h : s.seq.srccapseen = false) (ndo : BitVec 3) (objects : List Word) :
    let t := onSourceCapabilities ndo objects s
    t.trace = s.trace ++ [.write s.cfg.regFifo (txFrameBytes s.cfg (requestHeader s)
        [packRequest 1 (unpackCapability t.seq.caplist[0]).maxCurrentMa]) s.nextDraw.ok,
      .delay s.cfg.tXactDelayUs] ∧
    t.seq = if s.nextDraw.ok then (s.seq.storedAs t.seq).requested 1 else s.seq.storedAs t.seq := by
  intro t
  obtain ⟨-, -, -, hlist, hcount⟩ := onSourceCapabilities_stores s ndo objects
  have hstored : s.seq.storedAs t.seq = (firstListStored s ndo objects).seq := by
    rw [Sequencer.storedAs, hlist, hcount]
    rfl
  rw [hstored, hlist]
  rcases onSourceCapabilities_cases s ndo objects with ⟨h', -⟩ | ⟨-, e⟩
  · rw [h] at h'
    cases h'
  · rw [show t = _ from e]
    exact ⟨requestCapability_trace .., requestCapability_seq ..⟩

end MessagePass

/-! ## The statement -/

/-- Settles O56: the status read and the frame's read end the pass or hand one message to its handler; each kind of
message has the effect its handler's lemma states. -/
theorem messagePassOutcomes : Obligations.MessagePassOutcomes := by
  intro s hok c r q
  refine ⟨messagePass_unanswered s, fun b hb hempty => messagePass_empty s hb (decide_eq_true hempty),
    fun b hb hfull => ?_⟩
  have hstatus : rxEmptyBit c [b] = false := decide_eq_false (not_not.2 hfull)
  refine ⟨fun cause hf => messagePass_noFrame s hb hstatus hf, fun f hf => ?_⟩
  intro ndo type
  have hndo : (headerFields f.header).ndo.toNat = ndo := headerFields_ndo_toNat f.header
  have hzero : (headerFields f.header).ndo = 0 ↔ ndo = 0 := by rw [← hndo, ← BitVec.toNat_inj]; rfl
  have hother := messagePass_other s hb hstatus hf
  have hcfg : q.2.cfg = c := readNextFrame_cfg r.2
  have hseq : q.2.seq = s.seq := readNextFrame_seq r.2
  have hsame : { q.2 with seq := s.seq } = q.2 := by rw [← hseq]
  refine ⟨fun hn => ?control, fun hn ht => ?data, fun hn ht => ?capabilities⟩
  case control =>
    have hpass : messagePass s = (some false, { q.2 with seq := s.seq.onControl c type }) := by
      rw [hother (.inl (hzero.2 hn)), Sequencer.onOtherMessage, if_pos (hzero.2 hn)]
      rfl
    obtain ⟨haccept, hreject, hready, hnone⟩ := onControl_effects hok type s.seq
    exact ⟨fun h => by rw [hpass, haccept h], fun h => by rw [hpass, hreject h], fun h => by rw [hpass, hready h],
      fun ha hr hp => by rw [hpass, hnone ha hr hp, hsame]⟩
  case data =>
    rw [hother (.inr ht), Sequencer.onOtherMessage, if_neg (hzero.not.2 hn), hsame]
  case capabilities =>
    have hpass := messagePass_message s hb hstatus hf
    rw [dispatchMessage_sourceCapabilities q.2 (hzero.not.2 hn) (by rw [hcfg]; exact ht)] at hpass
    obtain ⟨hlength, hbytes⟩ := wordsOf_bytes (readNextFrame_data_length r.2 hf)
    obtain ⟨htcfg, htvs, htloop, hlist, hcount⟩ :=
      onSourceCapabilities_stores q.2 (headerFields f.header).ndo (wordsOf f.data)
    have hdata : ((storeCaps q.2.seq.caplist (wordsOf f.data)).toList.take ndo).flatMap le32 = f.data := by
      rw [← hndo, ← hlength, storeCaps_take _ (by omega), hbytes]
    refine ⟨_, hpass, htcfg.trans hcfg, htvs.trans (readNextFrame_vs r.2), htloop.trans (readNextFrame_loop r.2),
      (congrArg Fin.val hcount).trans hndo, by rw [hlist]; exact hdata, fun hseen => ?later, fun hseen => ?first⟩
    case later =>
      rw [← hseq] at hseen ⊢
      exact onSourceCapabilities_later q.2 hseen _ _
    case first =>
      rw [← hseq] at hseen ⊢
      obtain ⟨htrace, htseq⟩ := onSourceCapabilities_first q.2 hseen (headerFields f.header).ndo (wordsOf f.data)
      have hheader := requestHeader_toNat q.2
      rw [hcfg] at htrace hheader
      exact ⟨requestHeader q.2, _, hheader, packRequest_advertised_toNat 1 _, htrace, htseq⟩

end Sys2Proof.Machine
end

section
/-!
PROOFS. The statements of `spec/30_encoding.md`: decode and encode agree on the command port (O8) and for the wire
formats (O9); what is taken (O1, O2), what is refused (O3, O4), words written out (O7), and the layouts of the
formats (O52 to O55). The facts they rest on come first, in the order of the model's definitions.
-/

namespace Sys2Proof

/-! ## Byte order -/

/-- A half's two bytes add up to it (R124). -/
theorem le16_toNat (v : Half) : (v.extractLsb' 0 8).toNat + 256 * (v.extractLsb' 8 8).toNat = v.toNat := by
  rw [← fromLe16_toNat, fromLe16_le16]

/-- Four bytes side by side (R127). -/
theorem fromLe32_eq_append (b0 b1 b2 b3 : Byte) : fromLe32 b0 b1 b2 b3 = b3 ++ b2 ++ b1 ++ b0 := by
  unfold fromLe32
  apply BitVec.eq_of_getLsbD_eq
  intro i hi
  simp only [BitVec.getLsbD_or, BitVec.getLsbD_shiftLeft, BitVec.getLsbD_setWidth, BitVec.getLsbD_append]
  interval_cases i <;> simp

/-- Four bytes as a number, least significant first (R127). -/
theorem fromLe32_toNat (b0 b1 b2 b3 : Byte) :
    (fromLe32 b0 b1 b2 b3).toNat = b0.toNat + 256 * b1.toNat + 65536 * b2.toNat + 16777216 * b3.toNat := by
  rw [fromLe32_eq_append]
  simp only [toNat_append_eq_add]
  omega

/-- A word's four bytes add up to it (R126). -/
theorem le32_toNat (v : Word) :
    (v.extractLsb' 0 8).toNat + 256 * (v.extractLsb' 8 8).toNat + 65536 * (v.extractLsb' 16 8).toNat +
      16777216 * (v.extractLsb' 24 8).toNat = v.toNat := by
  rw [← fromLe32_toNat, fromLe32_le32]

/-! ## The command port -/

/-- A piece of the decoder that succeeds hands its value and the bytes after it on. -/
theorem thenParse_ok {α β : Type} (a : α) (t : List Byte) (k : α → List Byte → Parsed β) :
    thenParse (.ok (a, t)) k = k a t := rfl

/-- The code map of R102 is one to one: a code selects its operation, and the operands follow. -/
theorem decode_code (op : Op) (t : List Byte) : decode (op.code :: t) = decodeOperands op t := by
  cases op <;> rfl

/-- A piece of the decoder that refuses ends the decoding. -/
theorem thenParse_error {α β : Type} (e : Rejection) (k : α → List Byte → Parsed β) :
    thenParse (.error e) k = .error e := rfl

/-- Only the codes of the map select an operation (R102, R103). -/
theorem code_of_opOfCode {b : Byte} {op : Op} (h : opOfCode b = some op) : op.code = b := by
  unfold opOfCode at h
  split at h
  case h_24 => cases h
  all_goals
    cases h
    exact BitVec.eq_of_toNat_eq (Eq.symm ‹_›)

/-- A byte that no operation has for its code is refused by name (R103). -/
theorem decode_unknown {op : Byte} (h : ∀ o : Op, o.code ≠ op) (t : List Byte) :
    decode (op :: t) = .error (.unknownOpcode op) := by
  have hnone : opOfCode op = none := Option.eq_none_iff_forall_ne_some.2 fun o ho => h o (code_of_opOfCode ho)
  simp only [decode, hnone]

/-- A byte too large for its field is refused, not masked (D3). -/
theorem takeField_refuses {w : Nat} {b : Byte} (h : 2 ^ w ≤ b.toNat) (why : Rejection) (t : List Byte) :
    takeField w why (b :: t) = .error why := if_neg (not_lt.2 h)

/-- A byte that fits its field is taken. -/
theorem takeField_accepts {w : Nat} {b : Byte} (h : b.toNat < 2 ^ w) (why : Rejection) (t : List Byte) :
    takeField w why (b :: t) = .ok (b.setWidth w, t) := if_pos h

/-- A byte beyond the values of an operand that can be left out is refused (D3, R105). -/
theorem takeOptField_refuses {w : Nat} {b : Byte} (h : 2 ^ w < b.toNat) (why : Rejection) (t : List Byte) :
    takeOptField w why (b :: t) = .error why := by
  have hzero : b ≠ 0 := by
    rintro rfl
    exact Nat.not_lt_zero _ h
  rw [takeOptField, if_neg hzero, if_neg (not_le.2 h)]

/-- A byte for an operand that can be left out is taken: left out, or a value (R105). -/
theorem takeOptField_accepts {w : Nat} {b : Byte} (h : b.toNat ≤ 2 ^ w) (why : Rejection) (t : List Byte) :
    ∃ x, takeOptField w why (b :: t) = .ok (x, t) := by
  by_cases hzero : b = 0
  · exact ⟨_, if_pos hzero⟩
  · exact ⟨_, by rw [takeOptField, if_neg hzero, if_pos h]⟩

/-- A byte taken for a field of a byte's width is that byte. -/
theorem takeField_byte (b : Byte) (why : Rejection) (t : List Byte) : takeField 8 why (b :: t) = .ok (b, t) := by
  simpa using takeField_setWidth (le_refl 8) b why t

/-- An index byte of 7 or more is refused (D3): it stands for an index above 7. -/
theorem takeRequest_refuses_index {b : Byte} (h : 7 ≤ b.toNat) (t : List Byte) :
    takeRequest (b :: t) = .error .capabilityIndex := by
  rw [takeRequest, takeField_byte, thenParse_ok, if_pos h]

/-- A current beyond the domain is refused (D3). -/
theorem takeRequest_refuses_current {b x y : Byte} (hb : b.toNat < 7) (h : 10240 ≤ x.toNat + 256 * y.toNat)
    (t : List Byte) : takeRequest (b :: x :: y :: t) = .error .currentMa := by
  rw [takeRequest, takeField_byte, thenParse_ok, if_neg (not_le.2 hb), takeHalf, thenParse_ok, fromLe16_toNat]
  exact if_pos h

/-- As many bytes as asked for, whatever the number is called. -/
theorem takeBytes_of_length {n : Nat} {bs : List Byte} (h : n = bs.length) (rest : List Byte) :
    takeBytes n (bs ++ rest) = .ok (bs, rest) := by
  rw [h, takeBytes_append]

/-- As many words as asked for, whatever the number is called. -/
theorem takeWords_of_length {n : Nat} {ws : List Word} (h : n = ws.length) (rest : List Byte) :
    takeWords n (ws.flatMap le32 ++ rest) = .ok (ws, rest) := by
  rw [h, takeWords_flatMap]

/-- The domain of a Request, as its two bounds (R87). -/
theorem requestInDomain_iff (index : BitVec 3) (currentMa : Nat) :
    requestInDomain index currentMa = true ↔ index ≠ 0 ∧ currentMa ≤ 10239 := by
  simp only [requestInDomain, Bool.and_eq_true, decide_eq_true_eq]
  rfl

/-! ## Header and objects -/

/-- The six fields read back from the header word (R80). -/
theorem headerWord_slices (n i : BitVec 3) (p : BitVec 1) (r : BitVec 2) (d : BitVec 1) (t : BitVec 5) :
    let v := headerWord n i p r d t
    v.extractLsb' 12 3 = n ∧ v.extractLsb' 9 3 = i ∧ v.extractLsb' 8 1 = p ∧ v.extractLsb' 6 2 = r ∧
    v.extractLsb' 5 1 = d ∧ v.extractLsb' 0 5 = t := by
  intro v
  have hv : v.toNat = _ := headerWord_toNat n i p r d t
  refine ⟨?_, ?_, ?_, ?_, ?_, ?_⟩ <;>
    (apply BitVec.eq_of_toNat_eq; rw [toNat_extractLsb'_eq_div_mod, hv]; omega)

/-- The capability word as a number (R83): each field at its offset. -/
theorem capabilityWord_toNat (y : BitVec 2) (a b c e f g : BitVec 1) (x k : BitVec 2) (v m : BitVec 10) :
    (capabilityWord y a b c e f g x k v m).toNat =
      y.toNat * 2 ^ 30 + a.toNat * 2 ^ 29 + b.toNat * 2 ^ 28 + c.toNat * 2 ^ 27 + e.toNat * 2 ^ 26 +
        f.toNat * 2 ^ 25 + g.toNat * 2 ^ 24 + x.toNat * 2 ^ 22 + k.toNat * 2 ^ 20 + v.toNat * 2 ^ 10 +
        m.toNat := by
  simp only [capabilityWord, toNat_append_eq_add]
  omega

/-- The eleven fields read back from the capability word (R83). -/
theorem capabilityWord_slices (y : BitVec 2) (a b c e f g : BitVec 1) (x k : BitVec 2) (v m : BitVec 10) :
    let w := capabilityWord y a b c e f g x k v m
    w.extractLsb' 30 2 = y ∧ w.extractLsb' 29 1 = a ∧ w.extractLsb' 28 1 = b ∧ w.extractLsb' 27 1 = c ∧
    w.extractLsb' 26 1 = e ∧ w.extractLsb' 25 1 = f ∧ w.extractLsb' 24 1 = g ∧ w.extractLsb' 22 2 = x ∧
    w.extractLsb' 20 2 = k ∧ w.extractLsb' 10 10 = v ∧ w.extractLsb' 0 10 = m := by
  intro w
  have hw : w.toNat = _ := capabilityWord_toNat y a b c e f g x k v m
  refine ⟨?_, ?_, ?_, ?_, ?_, ?_, ?_, ?_, ?_, ?_, ?_⟩ <;>
    (apply BitVec.eq_of_toNat_eq; rw [toNat_extractLsb'_eq_div_mod, hw]; omega)

/-- The fields read back from the Request word, and its fixed bits (R86). -/
theorem requestWord_slices (i : BitVec 3) (o m : BitVec 10) :
    let w := requestWord i o m
    w.extractLsb' 31 1 = 0 ∧ w.extractLsb' 20 8 = 0x10 ∧
    w.extractLsb' 28 3 = i ∧ w.extractLsb' 10 10 = o ∧ w.extractLsb' 0 10 = m := by
  intro w
  have hw : w.toNat = _ := requestWord_toNat i o m
  refine ⟨?_, ?_, ?_, ?_, ?_⟩ <;>
    (apply BitVec.eq_of_toNat_eq; rw [toNat_extractLsb'_eq_div_mod, hw])
  · change _ = 0
    omega
  · change _ = 16
    omega
  all_goals omega

/-- What the block reads from a header word is its count, id and type (R122). -/
theorem headerFields_headerWord (n i : BitVec 3) (p : BitVec 1) (r : BitVec 2) (d : BitVec 1) (t : BitVec 5) :
    headerFields (headerWord n i p r d t) = { ndo := n, id := i, type := t } := by
  obtain ⟨hn, hi, -, -, -, ht⟩ := headerWord_slices n i p r d t
  rw [headerFields, hn, hi, ht]

/-- A slice of one bit is that bit. -/
theorem getLsbD_of_slice {n k : Nat} {w : BitVec n} {x : BitVec 1} (h : w.extractLsb' k 1 = x) :
    w.getLsbD k = x.getLsbD 0 := by
  rw [← h, BitVec.getLsbD_extractLsb']
  simp

/-- What the block reads from a capability word is its fields, scaled, the ignored bits dropped (R123, R85). -/
theorem unpackCapability_capabilityWord (y : BitVec 2) (a b c e f g : BitVec 1) (x k : BitVec 2) (v m : BitVec 10) :
    Machine.unpackCapability (capabilityWord y a b c e f g x k v m) =
      Unpacked.mk y (a.getLsbD 0) (b.getLsbD 0) (c.getLsbD 0) (e.getLsbD 0) (f.getLsbD 0) (g.getLsbD 0) k
        (v.toNat * 50) (m.toNat * 10) := by
  obtain ⟨hy, ha, hb, hc, he, hf, hg, -, hk, hv, hm⟩ := capabilityWord_slices y a b c e f g x k v m
  rw [Machine.unpackCapability, hy, getLsbD_of_slice ha, getLsbD_of_slice hb, getLsbD_of_slice hc,
    getLsbD_of_slice he, getLsbD_of_slice hf, getLsbD_of_slice hg, hk, hv, hm]
  rfl

/-! ## Bytes with a tag -/

/-- A byte whose low `w` bits are clear. -/
def LowClear (w : Nat) (tag : Byte) : Prop := ∀ k, k < w → tag.getLsbD k = false

/-- The mask of the low bits, as the side conditions on the parameters write it, tests exactly those. -/
theorem lowClear_of_and_eq_zero {w : Nat} (hw : w ≤ 8) {tag : Byte}
    (h : tag &&& (BitVec.allOnes w).setWidth 8 = 0) : LowClear w tag := by
  intro k hk
  have hbit := congrArg (·.getLsbD k) h
  have hk8 : k < 8 := by omega
  simpa [hk, hk8] using hbit

/-- Tag and value share no bit, so neither disturbs the other. -/
theorem LowClear.and_setWidth {w : Nat} {tag : Byte} (h : LowClear w tag) (x : BitVec w) :
    tag &&& x.setWidth 8 = 0 := by
  apply BitVec.eq_of_getLsbD_eq
  intro k _
  by_cases hk : k < w
  · simp [h k hk]
  · simp [BitVec.getLsbD_of_ge x k (by omega)]

/-- A tag over a value, as a number (R90, R92, R95). -/
theorem LowClear.or_toNat {w : Nat} {tag : Byte} (hw : w ≤ 8) (h : LowClear w tag) (x : BitVec w) :
    (tag ||| x.setWidth 8).toNat = tag.toNat + x.toNat := by
  rw [← BitVec.add_eq_or_of_and_eq_zero _ _ (h.and_setWidth x), BitVec.toNat_add_of_and_eq_zero (h.and_setWidth x),
    BitVec.toNat_setWidth_of_le hw]

/-- The value comes back from under its tag. -/
theorem LowClear.or_setWidth {w : Nat} {tag : Byte} (hw : w ≤ 8) (h : LowClear w tag) (x : BitVec w) :
    (tag ||| x.setWidth 8).setWidth w = x := by
  apply BitVec.eq_of_getLsbD_eq
  intro k hk
  have hk8 : k < 8 := by omega
  simp only [BitVec.getLsbD_setWidth, BitVec.getLsbD_or, hk, hk8, h k hk, decide_true, Bool.true_and, Bool.false_or]

/-- The tag comes back from over its value. -/
theorem LowClear.or_and_mask {w : Nat} {tag : Byte} (h : LowClear w tag) (x : BitVec w) :
    (tag ||| x.setWidth 8) &&& ~~~(BitVec.allOnes w).setWidth 8 = tag := by
  apply BitVec.eq_of_getLsbD_eq
  intro k hk8
  by_cases hk : k < w
  · simp [hk, h k hk]
  · simp [hk, hk8, BitVec.getLsbD_of_ge x k (by omega)]

/-- The packed symbol's tag is in the high three bits (D12). -/
theorem Params.Ok.tokPacksym_lowClear {c : Params} (h : c.Ok) : LowClear 5 c.tokPacksym := by
  obtain ⟨⟨-, htag, -⟩, -⟩ := h
  exact lowClear_of_and_eq_zero (by decide) htag

/-- The start-of-frame tag is in the high three bits (R92). -/
theorem Params.Ok.rxSopTag_lowClear {c : Params} (h : c.Ok) : LowClear 5 c.rxSopTag := by
  obtain ⟨-, -, htag, -⟩ := h
  exact lowClear_of_and_eq_zero (by decide) htag

/-- The measurement flag is above the code (R95). -/
theorem Params.Ok.measureVbus_lowClear {c : Params} (h : c.Ok) : LowClear 6 c.measureVbus := by
  obtain ⟨-, -, -, htag, -⟩ := h
  exact lowClear_of_and_eq_zero (by decide) htag

/-- A start-of-frame byte passes the test, whatever its low bits (R92). -/
theorem sopMatches_sopByte {c : Params} (h : c.Ok) (x : BitVec 5) : sopMatches c (sopByte c x) = true := by
  have hmask : c.rxSopMask = 0xE0 := by
    obtain ⟨-, hmask, -⟩ := h
    exact hmask
  rw [sopMatches, hmask]
  exact decide_eq_true (h.rxSopTag_lowClear.or_and_mask x)

/-! ## Frames -/

/-- The payload stands behind the five tokens of the transmit frame (R88). -/
theorem txFrameBytes_payload (c : Params) (header : Half) (objects : List Word) :
    ((txFrameBytes c header objects).drop 5).take (2 + 4 * objects.length) = payloadBytes header objects := by
  rw [txFrameBytes, List.append_assoc, List.drop_left' (show (txHead c objects.length).length = 5 from rfl),
    List.take_left' (Machine.payloadBytes_length header objects)]

/-- The transmit frame of at most seven objects reads back (R88, R93). -/
theorem decodeTxFrame_txFrameBytes (c : Params) (header : Half) {objects : List Word}
    (h : objects.length ≤ Config.maxNdo) :
    decodeTxFrame c (txFrameBytes c header objects) = some (.txFrame header objects) := by
  have hn : ((txFrameBytes c header objects).length - 11) / 4 = objects.length := by
    rw [Machine.txFrameBytes_length]
    omega
  unfold decodeTxFrame
  simp only [hn, txFrameBytes_payload]
  simp only [payloadBytes, le16, List.cons_append, List.nil_append, fromLe16_le16, wordsOf_flatMap_le32,
    length_flatMap_le32]
  exact if_pos ⟨h, rfl, trivial⟩

/-- The receive frame with as many objects as its header counts reads back (R91, R94). -/
theorem decodeRxFrame_rxFrameBytes {c : Params} (hok : c.Ok) (x : BitVec 5) {header : Half} {objects : List Word}
    (c0 c1 c2 c3 : Byte) (h : objects.length = (headerFields header).ndo.toNat) :
    decodeRxFrame c (rxFrameBytes c x header objects [c0, c1, c2, c3]) =
      some (.rxFrame x header objects c0 c1 c2 c3) := by
  have hlength : (objects.flatMap le32).length = 4 * (headerFields header).ndo.toNat := by
    rw [length_flatMap_le32, h]
  unfold decodeRxFrame
  simp only [rxFrameBytes, payloadBytes, le16, List.cons_append, List.nil_append, fromLe16_le16,
    List.drop_left' hlength, List.take_left' hlength, wordsOf_flatMap_le32, sopMatches_sopByte hok, if_true]
  rw [sopByte, hok.rxSopTag_lowClear.or_setWidth (by decide)]

/-! ## The statements -/

/-- Settles O8: the code selects the operation, and each piece of the decoder finds the operand that the encoder
wrote for it. -/
theorem decodeEncodeCommands : Obligations.DecodeEncodeCommands := by
  intro c i op rest hop hwf
  cases i with
  | packhdr type ndo id pr dr rev =>
    cases hop
    simp only [encode, List.cons_append, List.nil_append, decode_code, decodeOperands, thenParse_ok,
      takeField_setWidth (show 5 ≤ 8 by decide), takeField_setWidth (show 3 ≤ 8 by decide),
      takeOptField_put (show 1 ≤ 7 by decide), takeOptField_put (show 2 ≤ 7 by decide)]
  | unpackhdr v | pack16le v =>
    cases hop
    simp only [encode, List.cons_append, decode_code, decodeOperands, takeHalf_le16, thenParse_ok]
  | unpackcap w | pack32le w =>
    cases hop
    simp only [encode, List.cons_append, decode_code, decodeOperands, takeWord_le32, thenParse_ok]
  | packreq index ma | reqcap index ma =>
    cases hop
    obtain ⟨hindex, hma⟩ := (requestInDomain_iff index ma).1 hwf
    simp only [encode, List.cons_append, decode_code, decodeOperands, takeRequest_put hindex hma, thenParse_ok]
  | regwrn addr bytes =>
    cases hop
    have hn : 1 ≤ bytes.length := of_decide_eq_true hwf
    simp only [encode, List.cons_append, List.append_assoc, decode_code, decodeOperands, takeField_byte, takeCount_put,
      takeBytes_of_length (Nat.sub_add_cancel hn), thenParse_ok]
  | regrdn addr n =>
    cases hop
    have hn : 1 ≤ n := of_decide_eq_true hwf
    simp only [encode, List.cons_append, decode_code, decodeOperands, takeField_byte, takeCount_put, thenParse_ok,
      Nat.sub_add_cancel hn]
  | wrmsg header ndo objects =>
    cases hop
    have hn : ndo.toNat ≤ objects.length := of_decide_eq_true hwf
    simp only [encode, List.cons_append, List.append_assoc, decode_code, decodeOperands, takeHalf_le16, takeCount_put,
      takeField_setWidth (show 3 ≤ 8 by decide), takeWords_of_length (Nat.add_sub_cancel' hn), thenParse_ok]
  | rdframe buf =>
    cases hop
    have hn : Config.rxBufMin ≤ buf.length := of_decide_eq_true hwf
    simp only [encode, List.cons_append, List.append_assoc, decode_code, decodeOperands, takeCount_put,
      takeBytes_of_length (Nat.add_sub_cancel' hn), thenParse_ok]
  | _ => cases hop <;> rfl

/-- Settles O9: the fields of each format stand apart from each other and from the format's fixed bits, so each
reads back. -/
theorem decodeEncodeFormats : Obligations.DecodeEncodeFormats := by
  intro c i f hok hf hwf
  cases i with
  | header16 n i p r d t =>
    cases hf
    obtain ⟨hn, hi, hp, hr, hd, ht⟩ := headerWord_slices n i p r d t
    simp only [encode, le16, decodeFormat, fromLe16_le16, hn, hi, hp, hr, hd, ht]
  | capability32 y a b c' e f g x k v m =>
    cases hf
    obtain ⟨hy, ha, hb, hc, he, hf, hg, hx, hk, hv, hm⟩ := capabilityWord_slices y a b c' e f g x k v m
    simp only [encode, le32, decodeFormat, fromLe32_le32, hy, ha, hb, hc, he, hf, hg, hx, hk, hv, hm]
  | request32 i o m =>
    cases hf
    obtain ⟨htop, hfixed, hi, ho, hm⟩ := requestWord_slices i o m
    simp only [encode, le32, decodeFormat, fromLe32_le32, htop, hfixed, hi, ho, hm, and_self, if_true]
  | txPacksym count =>
    cases hf
    have htag : packsymByte c count &&& 0xE0 = c.tokPacksym := hok.tokPacksym_lowClear.or_and_mask count
    have hcount : (packsymByte c count).setWidth 5 = count := hok.tokPacksym_lowClear.or_setWidth (by decide) count
    simp only [encode, decodeFormat, htag, hcount, if_true]
  | rxSop x =>
    cases hf
    have hx : (sopByte c x).setWidth 5 = x := hok.rxSopTag_lowClear.or_setWidth (by decide) x
    simp only [encode, decodeFormat, sopMatches_sopByte hok, hx, if_true]
  | measure8 code =>
    cases hf
    have hflag : measureByte c code &&& 0xC0 = c.measureVbus := hok.measureVbus_lowClear.or_and_mask code
    have hcode : (measureByte c code).setWidth 6 = code := hok.measureVbus_lowClear.or_setWidth (by decide) code
    simp only [encode, decodeFormat, hflag, hcode, if_true]
  | txFrame header objects =>
    cases hf
    simp only [encode, decodeFormat, decodeTxFrame_txFrameBytes c header (of_decide_eq_true hwf)]
  | rxFrame x header objects c0 c1 c2 c3 =>
    cases hf
    simp only [encode, decodeFormat, decodeRxFrame_rxFrameBytes hok x c0 c1 c2 c3 (of_decide_eq_true hwf)]
  | _ => cases hf

/-- Settles O7: each word is read byte by byte. -/
theorem decodeReadsSpecWords : Obligations.DecodeReadsSpecWords := by
  refine ⟨?_, ?_, ?_, ?_, ?_, ?_, ?_⟩ <;> rfl

end Sys2Proof

namespace Sys2Proof.Machine

section Taking

variable {s : State}

/-! ## What a step takes -/

/-- A loop in progress goes on before anything else (D1, R250). -/
theorem step_of_loop {l : Loop} (h : s.loop = some l) : step s = exec .procmsg s := by
  simp only [step, State.takeNext, h]

/-- Then a presented wire value that decodes runs (log entry 3). -/
theorem step_of_wire {item : WireItem} {rest : List WireItem} {i : Instr} (hloop : s.loop = none)
    (hwire : s.wire = item :: rest) (h : decodeFormat s.cfg item.format item.bytes = .ok i) :
    step s = exec i { s with wire := rest } := by
  simp only [step, State.takeNext, hloop, hwire, h]

/-- A wire value that does not decode is refused. -/
theorem step_of_bad_wire {item : WireItem} {rest : List WireItem} {why : Rejection} (hloop : s.loop = none)
    (hwire : s.wire = item :: rest) (h : decodeFormat s.cfg item.format item.bytes = .error why) :
    step s = .refused (.undecodable why) := by
  simp only [step, State.takeNext, hloop, hwire, h]

/-- Then the command at the head of the port runs (R101, D1). -/
theorem step_of_port {b : Byte} {t rest : List Byte} {i : Instr} (hloop : s.loop = none) (hwire : s.wire = [])
    (hport : s.port = b :: t) (h : decode (b :: t) = .ok (i, rest)) : step s = exec i { s with port := rest } := by
  simp only [step, State.takeNext, hloop, hwire, hport, h]

/-- Bytes on the port that are no operation are refused (R103). -/
theorem step_of_bad_port {b : Byte} {t : List Byte} {why : Rejection} (hloop : s.loop = none) (hwire : s.wire = [])
    (hport : s.port = b :: t) (h : decode (b :: t) = .error why) : step s = .refused (.undecodable why) := by
  simp only [step, State.takeNext, hloop, hwire, hport, h]

/-- With nothing presented the block waits (R13, log entry 2). -/
theorem step_of_nothing (hloop : s.loop = none) (hwire : s.wire = []) (hport : s.port = []) : step s = .next s := by
  simp only [step, State.takeNext, hloop, hwire, hport]

end Taking

/-! ## The statements about steps and layouts -/

/-- Settles O1: the command is what the step takes. -/
theorem stepRunsDecodedCommand : Obligations.StepRunsDecodedCommand :=
  fun _ _ _ _ _ hloop hwire hport h => step_of_port hloop hwire hport h

/-- Settles O2: the loop, the wire value, or nothing, is what the step takes. -/
theorem stepTakesLoopValueOrIdles : Obligations.StepTakesLoopValueOrIdles :=
  fun _ => ⟨fun _ h => step_of_loop h, fun _ _ _ hloop hwire h => step_of_wire hloop hwire h, step_of_nothing⟩

/-- Settles O3: the code map holds no such byte. -/
theorem unknownCodeIsRefused : Obligations.UnknownCodeIsRefused :=
  fun _ _ t hloop hwire hport h => step_of_bad_port hloop hwire hport (decode_unknown h t)

/-- Settles O4: the step refuses what the decoder refuses, and each field's test comes before the next field. -/
theorem portRefusesWideOperands : Obligations.PortRefusesWideOperands := by
  refine ⟨fun _ _ _ _ hloop hwire hport h => step_of_bad_port hloop hwire hport h,
    fun _ _ _ _ hloop hwire h => step_of_bad_wire hloop hwire h, fun b x y p d r t => ?_⟩
  have packhdr : ∀ l, decode (0x10 :: l) = decodeOperands .packhdr l := decode_code .packhdr
  have packreq : ∀ l, decode (0x17 :: l) = decodeOperands .packreq l := decode_code .packreq
  have reqcap : ∀ l, decode (0x43 :: l) = decodeOperands .reqcap l := decode_code .reqcap
  have wrmsg : ∀ l, decode (0x24 :: l) = decodeOperands .wrmsg l := decode_code .wrmsg
  refine ⟨fun hb => ?type, fun hb hx => ?ndo, fun hb hx hy => ?id, fun hb hx hy =>
    ⟨fun hp => ?power, fun hp hd => ?data, fun hp hd hr => ?revision⟩, fun hb => ?index, fun hb hma => ?current, fun hb => ?objects⟩
  case type => simp only [packhdr, decodeOperands, takeField_refuses (w := 5) hb, thenParse_error]
  case ndo =>
    simp only [packhdr, decodeOperands, takeField_accepts (w := 5) hb, takeField_refuses (w := 3) hx, thenParse_ok,
      thenParse_error]
  case id =>
    simp only [packhdr, decodeOperands, takeField_accepts (w := 5) hb, takeField_accepts (w := 3) hx,
      takeField_refuses (w := 3) hy, thenParse_ok, thenParse_error]
  case power =>
    simp only [packhdr, decodeOperands, takeField_accepts (w := 5) hb, takeField_accepts (w := 3) hx,
      takeField_accepts (w := 3) hy, takeOptField_refuses (w := 1) hp, thenParse_ok, thenParse_error]
  case data =>
    obtain ⟨pr, hpr⟩ := takeOptField_accepts (w := 1) (Nat.le_of_lt_succ hp) .powerRole (d :: t)
    simp only [packhdr, decodeOperands, takeField_accepts (w := 5) hb, takeField_accepts (w := 3) hx,
      takeField_accepts (w := 3) hy, hpr, takeOptField_refuses (w := 1) hd, thenParse_ok, thenParse_error]
  case revision =>
    obtain ⟨pr, hpr⟩ := takeOptField_accepts (w := 1) (Nat.le_of_lt_succ hp) .powerRole (d :: r :: t)
    obtain ⟨dr, hdr⟩ := takeOptField_accepts (w := 1) (Nat.le_of_lt_succ hd) .dataRole (r :: t)
    simp only [packhdr, decodeOperands, takeField_accepts (w := 5) hb, takeField_accepts (w := 3) hx,
      takeField_accepts (w := 3) hy, hpr, hdr, takeOptField_refuses (w := 2) hr, thenParse_ok, thenParse_error]
  case index =>
    simp only [packreq, reqcap, decodeOperands, takeRequest_refuses_index hb, thenParse_error, and_self]
  case current =>
    simp only [packreq, reqcap, decodeOperands, takeRequest_refuses_current hb hma, thenParse_error, and_self]
  case objects =>
    simp only [wrmsg, decodeOperands, takeHalf, takeField_refuses (w := 3) hb, thenParse_ok, thenParse_error]

/-- Settles O52: the two bytes of the header word, which reads back as its fields. -/
theorem headerFormatLaysOut : Obligations.HeaderFormatLaysOut := by
  intro n i p r d t s
  refine ⟨_, _, ?_, (le16_toNat _).trans (headerWord_toNat n i p r d t)⟩
  rw [← headerFields_headerWord n i p r d t]
  rfl

/-- Settles O53: the four bytes of the object's word; a capability reads back as its fields. -/
theorem objectFormatsLayOut : Obligations.ObjectFormatsLayOut := by
  refine ⟨fun y a b c e f g x k v m s => ?_, fun i o m s => ?_⟩
  · refine ⟨_, _, _, _, ?_, (le32_toNat _).trans (capabilityWord_toNat y a b c e f g x k v m)⟩
    rw [← unpackCapability_capabilityWord]
    rfl
  · exact ⟨_, _, _, _, rfl, (le32_toNat _).trans (requestWord_toNat i o m)⟩

/-- Settles O54: the tag's low bits are clear, so it and the value add up; the start-of-frame byte passes its test. -/
theorem byteFormatsLayOut : Obligations.ByteFormatsLayOut := by
  intro n x code s hok
  refine ⟨_, _, _, rfl, ?_, rfl, hok.tokPacksym_lowClear.or_toNat (by decide) n,
    hok.rxSopTag_lowClear.or_toNat (by decide) x, hok.measureVbus_lowClear.or_toNat (by decide) code⟩
  rw [← sopMatches_sopByte hok x]
  rfl

/-- Settles O55: within their domains the two frames are laid out token by token. -/
theorem frameFormatsLayOut : Obligations.FrameFormatsLayOut := by
  intro header objects x c0 c1 c2 c3 s payload
  refine ⟨fun h => ?transmit, fun h => ?receive⟩
  case transmit =>
    change execTxFrame header objects s = _
    rw [execTxFrame, inDomain_next _ (decide_eq_true (show objects.length ≤ Config.maxNdo from h)), txFrameBytes,
      txHead_eq s.cfg h]
    rfl
  case receive =>
    change execRxFrame x header objects c0 c1 c2 c3 s = _
    rw [execRxFrame, inDomain_next _ (decide_eq_true ((headerFields_ndo_toNat header).trans h).symm)]
    rfl

end Sys2Proof.Machine
end

section
/-!
PROOFS. The statements of `spec/40_codec.md` about round trips: the header both ways (O15), little-endian bytes (O17,
O18), the Request (O19), and a capability's current put into one (O20).
-/

namespace Sys2Proof

/-! ## The header -/

/-- A header with bit 15 clear is its six fields (R80). -/
theorem headerWord_of_slices {v : Half} (h : v.getLsbD 15 = false) :
    headerWord (v.extractLsb' 12 3) (v.extractLsb' 9 3) (v.extractLsb' 8 1) (v.extractLsb' 6 2) (v.extractLsb' 5 1)
      (v.extractLsb' 0 5) = v := by
  have hv := v.isLt
  have htop : v.toNat / 2 ^ 15 % 2 ≠ 1 := by
    rw [BitVec.getLsbD, Nat.testBit_eq_decide_div_mod_eq] at h
    exact of_decide_eq_false h
  apply BitVec.eq_of_toNat_eq
  rw [headerWord_toNat]
  simp only [toNat_extractLsb'_eq_div_mod]
  omega

/-- No header that is laid out has bit 15 set (R80, R97). -/
theorem headerWord_bit15 (ndo id : BitVec 3) (pr : BitVec 1) (rev : BitVec 2) (dr : BitVec 1) (type : BitVec 5) :
    (headerWord ndo id pr rev dr type).getLsbD 15 = false := by
  rw [headerWord_eq_append]
  simp

/-- A header is laid out again from what is read of it and default roles and revision exactly when bit 15 is clear
and those are what it holds (R129). -/
theorem headerWord_headerFields_iff (v : Half) (pr : BitVec 1) (rev : BitVec 2) (dr : BitVec 1) :
    headerWord (headerFields v).ndo (headerFields v).id pr rev dr (headerFields v).type = v ↔
      v.getLsbD 15 = false ∧ v.extractLsb' 8 1 = pr ∧ v.extractLsb' 6 2 = rev ∧ v.extractLsb' 5 1 = dr := by
  constructor
  · intro h
    obtain ⟨-, -, hpr, hrev, hdr, -⟩ :=
      headerWord_slices (headerFields v).ndo (headerFields v).id pr rev dr (headerFields v).type
    have hbit := headerWord_bit15 (headerFields v).ndo (headerFields v).id pr rev dr (headerFields v).type
    rw [h] at hpr hrev hdr hbit
    exact ⟨hbit, hpr, hrev, hdr⟩
  · rintro ⟨hbit, rfl, rfl, rfl⟩
    exact headerWord_of_slices hbit

end Sys2Proof

namespace Sys2Proof.Machine

/-! ## The Request -/

/-- The domain of a Request, as its two bounds (R87). -/
theorem requestDomain_iff (index : BitVec 3) (ma : Nat) :
    requestDomain index ma = true ↔ index ≠ 0 ∧ ma ≤ 10239 :=
  requestInDomain_iff index ma

/-- The Request word in its domain (R86, R87): the current is truncated to tens of mA, and fits its field. -/
theorem packRequest_toNat (index : BitVec 3) {ma : Nat} (h : ma ≤ 10239) :
    (packRequest index ma).toNat = index.toNat * 2 ^ 28 + 2 ^ 24 + ma / 10 * 1024 + ma / 10 := by
  have hraw : (requestRaw ma).toNat = ma / 10 := by
    simp only [requestRaw, Config.maPerCurRaw, BitVec.toNat_ofNat]
    omega
  rw [packRequest, requestWord_toNat, hraw]

/-- `PACKREQ` in its domain returns the Request word (R128). -/
theorem exec_packreq {index : BitVec 3} {ma : Nat} (hindex : index ≠ 0) (hma : ma ≤ 10239) (s : State) :
    exec (.packreq index ma) s = .next { s with result := .word (packRequest index ma) } := by
  change execPackreq index ma s = _
  rw [execPackreq, inDomain_next _ ((requestDomain_iff index ma).2 ⟨hindex, hma⟩)]
  rfl

/-! ## The statements -/

/-- Settles O15: the fields of the header word are read back, and laid out again they are the word when the rest of it
is the default. -/
theorem headerRoundTrip : Obligations.HeaderRoundTrip := by
  refine ⟨fun type ndo id pr dr rev s => ⟨_, exec_packhdr s type ndo id pr dr rev, ?_⟩,
    fun v s => ⟨_, exec_unpackhdr s v, ?_⟩⟩
  · rw [exec_unpackhdr, headerFields_headerWord]
  · rw [exec_packhdr, ← headerWord_headerFields_iff]
    constructor
    · intro h
      exact Result.half.inj (congrArg State.result (Host.Outcome.next.inj h))
    · intro h
      exact congrArg (fun w => Host.Outcome.next { s with result := .half w }) h

/-- Settles O17: the two bytes are slices of the value, and add up to it. -/
theorem halfBytesLittleEndian : Obligations.HalfBytesLittleEndian := by
  refine ⟨fun v s => ⟨v.extractLsb' 0 8, v.extractLsb' 8 8, rfl, ?_, ?_, ?_⟩,
    fun b0 b1 s => ⟨_, rfl, fromLe16_toNat b0 b1⟩⟩
  · exact BitVec.extractLsb'_toNat 0 8 v
  · have hv := v.isLt
    rw [toNat_extractLsb'_eq_div_mod]
    omega
  · exact congrArg (fun w => Host.Outcome.next { s with result := .half w }) (fromLe16_le16 v)

/-- Settles O18: the four bytes are slices of the value, and add up to it. -/
theorem wordBytesLittleEndian : Obligations.WordBytesLittleEndian := by
  refine ⟨fun v s => ⟨v.extractLsb' 0 8, v.extractLsb' 8 8, v.extractLsb' 16 8, v.extractLsb' 24 8, rfl, ?_, ?_, ?_, ?_,
    ?_⟩, fun b0 b1 b2 b3 s => ⟨_, rfl, fromLe32_toNat b0 b1 b2 b3⟩⟩
  · exact BitVec.extractLsb'_toNat 0 8 v
  · exact toNat_extractLsb'_eq_div_mod v 8 8
  · exact toNat_extractLsb'_eq_div_mod v 16 8
  · have hv := v.isLt
    rw [toNat_extractLsb'_eq_div_mod]
    omega
  · exact congrArg (fun w => Host.Outcome.next { s with result := .word w }) (fromLe32_le32 v)

/-- Settles O19: in its domain the operation returns the Request word. -/
theorem packRequestPlacesFields : Obligations.PackRequestPlacesFields :=
  fun index _ s hindex hma => ⟨_, exec_packreq hindex hma s, packRequest_toNat index hma⟩

/-- Settles O20: the scaled current of a 10-bit field is in the domain, and is divided back to the field. -/
theorem capabilityCurrentSurvivesRequest : Obligations.CapabilityCurrentSurvivesRequest := by
  intro w index s hindex
  have hcurrent := unpackCapability_maxCurrentMa w
  have hword := packRequest_advertised_toNat index w
  have hraw : w.toNat % 1024 < 1024 := Nat.mod_lt _ (by decide)
  refine ⟨_, _, exec_unpackcap s w, exec_packreq hindex (by omega) s, ?_⟩
  rw [hword]
  generalize w.toNat % 1024 = raw at hraw
  have hhigh : (index.toNat * 2 ^ 28 + 2 ^ 24 + raw * 1024 + raw) / 1024 = index.toNat * 2 ^ 18 + 2 ^ 14 + raw := by
    omega
  exact ⟨by omega, by rw [hhigh]; omega⟩

end Sys2Proof.Machine
end

section
/-!
PROOFS. The statements of `spec/41_transport.md` about the register primitives (O21 to O24) and the round trip of a
frame through a loop-back (O27). What each primitive returns and leaves comes first.
-/

namespace Sys2Proof.Machine

section RegisterPrimitives

variable (s : State)

/-! ## Writes at a register -/

/-- One byte written at a register is held by it; after a failed write the register has no known value (log
entry 6). -/
theorem regWrite_register_regs {addr : Byte} (h : addr ≠ s.cfg.regFifo) (b : Byte) :
    (regWrite addr [b] s).2.chip.regs =
      if s.nextDraw.ok then s.chip.regs.write addr.toNat b else s.chip.regs.forget addr.toNat := by
  rw [regWrite_chip, Chip.written, if_neg h]
  rfl

/-- Several bytes written at a register leave no register known (log entry 6). -/
theorem regWrite_register_forgets {addr : Byte} (h : addr ≠ s.cfg.regFifo) {bytes : List Byte}
    (hn : 2 ≤ bytes.length) : (regWrite addr bytes s).2.chip.regs = [] := by
  match bytes, hn with
  | _ :: _ :: _, _ => simp [Chip.written, h]

/-- A write at a register puts nothing into the transmit FIFO (log entry 30). -/
theorem regWrite_register_txFifo {addr : Byte} (h : addr ≠ s.cfg.regFifo) (bytes : List Byte) :
    (regWrite addr bytes s).2.chip.txFifo = s.chip.txFifo.drop s.nextDraw.drain := by
  rw [regWrite_chip, written_register_txFifo _ h]
  rfl

/-! ## The four operations -/

/-- `REGWR1` is one write, and the host's outcome (R140). -/
theorem exec_regwr1 (addr b : Byte) :
    exec (.regwr1 addr b) s = .next
      ((regWrite addr [b] s).2.returns (if s.nextDraw.ok then .ok else .fail .ioWrite)) := by
  change execRegwr1 addr b s = _
  rw [execRegwr1, returnsWrite_eq, regWrite_fst]

/-- `REGWRN` of at least one byte is one write, and the host's outcome (R141). -/
theorem exec_regwrn (addr : Byte) {bytes : List Byte} (h : 1 ≤ bytes.length) :
    exec (.regwrn addr bytes) s = .next
      ((regWrite addr bytes s).2.returns (if s.nextDraw.ok then .ok else .fail .ioWrite)) := by
  change execRegwrn addr bytes s = _
  rw [execRegwrn, inDomain_next _ (decide_eq_true h), returnsWrite_eq, regWrite_fst]

/-- `REGRD1` is one read, and its byte or the failure (R142). -/
theorem exec_regrd1 (addr : Byte) :
    exec (.regrd1 addr) s = .next ((regRead addr 1 s).2.returns
      ((regRead addr 1 s).1.elim (.fail .ioRead) fun bytes => .byte (bytes.headD 0))) := by
  change execRegrd1 addr s = _
  unfold execRegrd1
  rcases regRead addr 1 s with ⟨_ | bytes, t⟩ <;> rfl

/-- `REGRDN` of at least one byte is one read, and its bytes or the failure (R143). -/
theorem exec_regrdn (addr : Byte) {n : Nat} (h : 1 ≤ n) :
    exec (.regrdn addr n) s = .next ((regRead addr n s).2.returns
      ((regRead addr n s).1.elim (.fail .ioRead) .bytes)) := by
  change execRegrdn addr n s = _
  rw [execRegrdn, inDomain_next _ (decide_eq_true h)]
  rcases regRead addr n s with ⟨_ | bytes, t⟩ <;> rfl

/-- A read leaves the block, its ports and its parameters as they were. -/
theorem regRead_sameBlock (addr : Byte) (n : Nat) : s.SameBlock (regRead addr n s).2 :=
  ⟨rfl, rfl, rfl, rfl, rfl, rfl⟩

/-- A read that the host answers delivers as many bytes as asked for (R53). -/
theorem regRead_answered {addr : Byte} {n : Nat} (h : s.nextDraw.ok = true) :
    ∃ bytes, (regRead addr n s).1 = some bytes ∧ bytes.length = n :=
  ⟨_, by rw [regRead_fst, if_pos h], readAnswer_length ..⟩

end RegisterPrimitives

/-! ## The statements -/

/-- Settles O21: one write; at a register the byte is held there, at `REG_FIFO` it is sent. -/
theorem registerWriteOneByte : Obligations.RegisterWriteOneByte := by
  intro addr b s d
  refine ⟨_, exec_regwr1 s addr b, regWrite_sameBlock s addr [b], rfl, regWrite_trace s addr [b],
    regWrite_rxFifo s addr [b], fun hreg => ?register, ?fifo⟩
  case register =>
    rw [returns_chip, regWrite_register_regs s hreg]
    refine ⟨?_, fun a ha => ?_, regWrite_register_txFifo s hreg [b]⟩
    · split
      · exact Mem.read_write_same ..
      · exact Mem.read_forget_same ..
    · split
      · exact Mem.read_write_other _ ha b
      · exact Mem.read_forget_other _ ha
  case fifo =>
    rintro rfl
    exact ⟨fun a => by rw [returns_chip, regWrite_fifo_regs], regWrite_fifo_txFifo s [b]⟩

/-- Settles O22: one write of the whole sequence. -/
theorem registerWriteManyBytes : Obligations.RegisterWriteManyBytes := by
  intro addr bytes s hne d
  have hn : 1 ≤ bytes.length := List.length_pos_iff.2 hne
  refine ⟨_, exec_regwrn s addr hn, regWrite_sameBlock s addr bytes, rfl, regWrite_trace s addr bytes,
    regWrite_rxFifo s addr bytes, ?single, ?fifo, fun hreg => ⟨regWrite_register_txFifo s hreg bytes, fun h2 a => ?_⟩⟩
  case single =>
    rintro b rfl
    rw [exec_regwrn s addr hn, exec_regwr1]
  case fifo =>
    rintro rfl
    exact ⟨fun a => by rw [returns_chip, regWrite_fifo_regs], regWrite_fifo_txFifo s bytes⟩
  · rw [returns_chip, regWrite_register_forgets s hreg h2]
    rfl

/-- Settles O23: one read; the byte it delivers at `REG_FIFO` is the FIFO's next, as far as it holds one. -/
theorem registerReadOneByte : Obligations.RegisterReadOneByte := by
  intro addr s d
  refine ⟨_, exec_regrd1 s addr, regRead_sameBlock s addr 1, fun a => by rw [returns_chip, regRead_regs],
    fun hreg => (regRead_register_fifos s hreg 1).1, fun hd => ?answered, fun hd => ?failed⟩
  case answered =>
    obtain ⟨bytes, hread, hlength⟩ := regRead_answered s (addr := addr) (n := 1) hd
    obtain ⟨b, rfl⟩ := List.length_eq_one_iff.1 hlength
    refine ⟨b, by rw [hread]; rfl, by rw [returns_trace, regRead_trace, hread], ?_⟩
    rintro rfl
    obtain ⟨-, hfront, hleft⟩ := regRead_fifo_answered s hread
    rw [returns_chip, hleft]
    refine ⟨fun b' rest hqueue => ?_, fun hqueue => by rw [hqueue]; rfl⟩
    rw [hqueue] at hfront ⊢
    exact ⟨by simpa using hfront, rfl⟩
  case failed =>
    have hread := regRead_failed s (addr := addr) (n := 1) hd
    refine ⟨by rw [hread]; rfl, by rw [returns_trace, regRead_trace, hread], ?_⟩
    rintro rfl
    exact (regRead_fifo_unanswered s hread).2

/-- Settles O24: one read of `n` bytes. -/
theorem registerReadManyBytes : Obligations.RegisterReadManyBytes := by
  intro addr n s hn d
  refine ⟨_, exec_regrdn s addr hn, regRead_sameBlock s addr n, fun a => by rw [returns_chip, regRead_regs],
    fun hreg => (regRead_register_fifos s hreg n).1, fun hd => ?answered, fun hd => ?failed⟩
  case answered =>
    obtain ⟨bytes, hread, hlength⟩ := regRead_answered s (addr := addr) (n := n) hd
    refine ⟨bytes, by rw [hread]; rfl, hlength, by rw [returns_trace, regRead_trace, hread], ?_⟩
    rintro rfl
    exact (regRead_fifo_answered s hread).2
  case failed =>
    have hread := regRead_failed s (addr := addr) (n := n) hd
    refine ⟨by rw [hread]; rfl, by rw [returns_trace, regRead_trace, hread], ?_⟩
    rintro rfl
    exact (regRead_fifo_unanswered s hread).2

/-- Settles O27: the payload of the transmit frame is header and objects, which `RDFRAME` takes in its two reads and
puts into the buffer as they came. -/
theorem frameLoopBack : Obligations.FrameLoopBack := by
  intro s header objects sop c0 c1 c2 c3 rest buf d1 d2 script hcount hsop hbuf hscript h1 h2 payload hfifo
  have hpayload : payload = payloadBytes header objects := txFrameBytes_payload s.cfg header objects
  have hndo : (headerFields header).ndo.toNat = objects.length := (headerFields_ndo_toNat header).trans hcount
  have hdata : (objects.flatMap le32).length = 4 * objects.length := length_flatMap_le32 objects
  obtain ⟨hframe, -, hleft, -⟩ := readNextFrame_ok s (lo := header.extractLsb' 0 8) (hi := header.extractLsb' 8 8)
    (body := objects.flatMap le32 ++ [c0, c1, c2, c3]) (rest := rest) hscript h1 h2
    (by rw [hfifo, hpayload]; simp [payloadBytes, le16]) (decide_eq_true hsop)
    (by rw [fromLe16_le16, hndo, List.length_append, hdata]; rfl)
  rw [fromLe16_le16, hndo, List.take_left' hdata] at hframe
  refine ⟨_, exec_rdframe_of_ok hbuf (Prod.ext hframe rfl), ?_, hleft⟩
  rw [returns_result, hpayload, fillBuffer, hdata]
  rfl

end Sys2Proof.Machine
end

section
/-!
PROOFS. The statements of `spec/42_vbus_sampler.md`: the range of a report (O30), the alternation at a steady voltage
(O31), and the search for it from power-on (O32). That a call keeps the search state legal is shown on the way.
-/

namespace Sys2Proof

/-- The full step is a power of two up to 64 (R27, log entry 21). -/
theorem Params.Ok.vbusFullStep_mem {c : Params} (h : c.Ok) : c.vbusFullStep ∈ [1, 2, 4, 8, 16, 32, 64] := by
  obtain ⟨-, -, -, -, -, -, hfull⟩ := h
  exact hfull

end Sys2Proof

namespace Sys2Proof.Machine

section Sampler

/-! ## The search state stays legal (R167, R171) -/

/-- The signed step has the magnitude it was made of. -/
theorem natAbs_vbusSigned (mag : Nat) (c : Bool) : (vbusSigned mag c).natAbs = mag := by
  cases c
  · exact Int.natAbs_neg _
  · rfl

/-- The step points up exactly when the comparator was true (R167). -/
theorem vbusSigned_pos_iff {mag : Nat} (h : 1 ≤ mag) (c : Bool) : 0 < vbusSigned mag c ↔ c = true := by
  cases c <;> simp only [vbusSigned, Bool.false_eq_true, if_true, if_false, iff_false, iff_true] <;> omega

/-- Doubling up to the full step, halving down to 1 and staying keep the magnitude a power of two up to 64 (R166). -/
theorem vbusMagnitude_mem {cfg : Params} (hok : cfg.Ok) {mag : Nat} (hmag : mag ∈ [1, 2, 4, 8, 16, 32, 64])
    (widen conv : Bool) : vbusMagnitude cfg mag widen conv ∈ [1, 2, 4, 8, 16, 32, 64] := by
  have hfull := hok.vbusFullStep_mem
  simp only [List.mem_cons, List.not_mem_nil, or_false] at hmag hfull ⊢
  cases widen with
  | false => simp only [vbusMagnitude, Bool.false_eq_true, if_false]; omega
  | true =>
    cases conv with
    | false => simp only [vbusMagnitude, Bool.false_eq_true, if_true, if_false]; omega
    | true => simpa only [vbusMagnitude, if_true] using hmag

/-- The five steps lead from a magnitude and a code in range to a legal search state, whatever was sampled. -/
theorem vbusAdvance_legal {cfg : Params} (hok : cfg.Ok) {vs : VbusSearch} {base : Nat}
    (hmag : vs.step.natAbs ∈ [1, 2, 4, 8, 16, 32, 64]) (hbase : base < cfg.vbusMaxCode) (c widen conv : Bool) :
    (vbusAdvance cfg vs base c widen conv).Legal cfg := by
  have hmem := vbusMagnitude_mem hok hmag widen conv
  have hpos : 1 ≤ vbusMagnitude cfg vs.step.natAbs widen conv := by
    simp only [List.mem_cons, List.not_mem_nil, or_false] at hmem
    omega
  have hsign := vbusSigned_pos_iff hpos c
  obtain ⟨hlow, hhigh⟩ := hok.vbusMaxCode_range
  refine ⟨by rw [vbusAdvance, natAbs_vbusSigned]; exact hmem, fun code hcode => ?_⟩
  have hclamp := vbusNewCode_toNat cfg (by omega) hhigh base
    (vbusSigned (vbusMagnitude cfg vs.step.natAbs widen conv) c)
  cases hcode
  dsimp only [vbusAdvance]
  exact ⟨by omega, hsign, fun h => by omega, fun h => by omega⟩

variable (s : State)

/-- The code a call counts from: the last one programmed, or 0 on the first call (R163). -/
def vbusBase (vs : VbusSearch) : Nat := vs.last.elim 0 BitVec.toNat

/-- A legal search state counts from a code in range. -/
theorem vbusBase_lt {cfg : Params} (hok : cfg.Ok) {vs : VbusSearch} (h : vs.Legal cfg) :
    vbusBase vs < cfg.vbusMaxCode := by
  obtain ⟨hlow, -⟩ := hok.vbusMaxCode_range
  obtain ⟨-, hcode⟩ := h
  unfold vbusBase
  cases hlast : vs.last with
  | none => exact Nat.lt_of_lt_of_le (by decide) hlow
  | some code => exact (hcode code hlast).1

/-- A call leaves the search state as it was, or advances it by the five steps. -/
theorem updateVbus_vs_cases :
    (updateVbus s).2.vs = s.vs ∨
    ∃ c widen conv, (updateVbus s).2.vs = vbusAdvance s.cfg s.vs (vbusBase s.vs) c widen conv := by
  have hprogram : ∀ (u : State) (next : VbusSearch) (report : Option Nat), u.vs = s.vs →
      (vbusProgram next report u).2.vs = s.vs ∨ (vbusProgram next report u).2.vs = next := by
    intro u next report hu
    rw [vbusProgram_vs]
    split
    · exact .inr rfl
    · exact .inl hu
  cases hlast : s.vs.last with
  | none =>
    rw [updateVbus_first s hlast, show vbusBase s.vs = 0 by rw [vbusBase, hlast]; rfl]
    exact (hprogram s _ _ rfl).imp_right fun h => ⟨_, _, _, h⟩
  | some code =>
    cases hr : (regRead s.cfg.regStatus0 1 s).1 with
    | none => rw [updateVbus_unread s hlast hr]; exact .inl rfl
    | some bytes =>
      rw [updateVbus_sampled s hlast hr, show vbusBase s.vs = code.toNat by rw [vbusBase, hlast]; rfl]
      exact (hprogram (regRead s.cfg.regStatus0 1 s).2 _ _ rfl).imp_right fun h => ⟨_, _, _, h⟩

/-- A call keeps the search state legal. -/
theorem updateVbus_legal (hok : s.cfg.Ok) (h : s.vs.Legal s.cfg) : (updateVbus s).2.vs.Legal s.cfg := by
  rcases updateVbus_vs_cases s with e | ⟨c, widen, conv, e⟩ <;> rw [e]
  · exact h
  · exact vbusAdvance_legal hok h.1 (vbusBase_lt hok h) c widen conv

/-! ## Reports -/

/-- The code reported on convergence, from a legal state: the lowest at which the comparator was seen false, never 0
and never beyond the top (R169). -/
theorem vbusConvCode_range {cfg : Params} {vs : VbusSearch} {base : BitVec 6} {c : Bool} (h : vs.Legal cfg)
    (hlast : vs.last = some base) (hconv : vbusConverges vs c = true) :
    1 ≤ vbusConvCode vs base.toNat ∧ vbusConvCode vs base.toNat < cfg.vbusMaxCode := by
  obtain ⟨-, hcode⟩ := h
  obtain ⟨htop, -, hup, hdown⟩ := hcode base hlast
  have hunit := natAbs_step_of_converges hconv
  unfold vbusConvCode
  split
  · exact ⟨hup ‹_›, htop⟩
  · exact ⟨by omega, hdown (by omega)⟩

/-- A call that reports a value was a later one that converged (R163, R164, R169). -/
theorem updateVbus_reported {mv : Nat} (h : (updateVbus s).1 = some mv) :
    ∃ base c, s.vs.last = some base ∧ vbusConverges s.vs c = true ∧
      mv = vbusMillivolts s.cfg (vbusConvCode s.vs base.toNat) := by
  cases hlast : s.vs.last with
  | none =>
    rw [updateVbus_first s hlast, vbusProgram_fst, ite_self] at h
    cases h
  | some base =>
    cases hr : (regRead s.cfg.regStatus0 1 s).1 with
    | none =>
      rw [updateVbus_unread s hlast hr] at h
      cases h
    | some bytes =>
      rw [updateVbus_sampled s hlast hr] at h
      simp only [vbusProgram_fst] at h
      split at h
      · split at h
        · cases h
          exact ⟨base, _, rfl, ‹_›, rfl⟩
        · cases h
      · cases h

/-! ## Calls against a steady voltage -/

/-- What the search state becomes on a call against a steady boundary. -/
def steadyNext (cfg : Params) (B : Nat) (vs : VbusSearch) : VbusSearch :=
  match vs.last with
  | none => vbusFirstNext cfg vs
  | some base => vbusSampledNext cfg vs base (decide (base.toNat < B))

/-- The code such a call finds, when it converges. -/
def steadyFound (B : Nat) (vs : VbusSearch) : Option Nat :=
  match vs.last with
  | none => none
  | some base => if vbusConverges vs (decide (base.toNat < B)) then some (vbusConvCode vs base.toNat) else none

/-- A call against a steady boundary moves the search by `steadyNext` and reports the code of `steadyFound`. -/
theorem steadyCall_effect {B : Nat} {s t : State} (h : State.SteadyCall B s t) :
    t.cfg = s.cfg ∧ t.vs = steadyNext s.cfg B s.vs ∧
    t.result = .vbus ((steadyFound B s.vs).map (vbusMillivolts s.cfg)) := by
  obtain ⟨hexec, hcall⟩ := h
  rw [exec_vbusstep] at hexec
  obtain rfl := Host.Outcome.next.inj hexec
  obtain ⟨hcfg, -⟩ := updateVbus_frame s
  refine ⟨hcfg, ?_⟩
  unfold steadyNext steadyFound
  cases hlast : s.vs.last with
  | none =>
    have hd : s.nextDraw.ok = true := by simpa only [hlast] using hcall
    rw [updateVbus_programs_first s hlast]
    simp only [returns_vs, returns_result, vbusProgram_vs, vbusProgram_fst, if_pos hd, Option.map_none, and_self]
  | some base =>
    obtain ⟨b, hread, hcomp, hd⟩ : ∃ b, (regRead s.cfg.regStatus0 1 s).1 = some [b] ∧
        comparatorBit s.cfg [b] = decide (base.toNat < B) ∧
        (regRead s.cfg.regStatus0 1 s).2.nextDraw.ok = true := by simpa only [hlast] using hcall
    rw [updateVbus_programs_sampled s hlast hread, hcomp]
    simp only [returns_vs, returns_result, vbusProgram_vs, vbusProgram_fst, if_pos hd, vbusSampledReport, true_and]
    split <;> rfl

/-- At unit step a call that finds the comparator flipped converges: it finds a code, and programs the next one on the
other side (R164 to R169). -/
theorem steadyNext_of_converges (cfg : Params) {B : Nat} {vs : VbusSearch} {base : BitVec 6} {c : Bool}
    (hlast : vs.last = some base) (hc : decide (base.toNat < B) = c) (h : vbusConverges vs c = true) :
    steadyNext cfg B vs = { last := some (vbusNewCode cfg base.toNat (vbusSigned 1 c)), step := vbusSigned 1 c,
                            widen := true, lastComp := c } ∧
    steadyFound B vs = some (vbusConvCode vs base.toNat) := by
  simp only [steadyNext, steadyFound, hlast, hc, h, if_true, and_true]
  rw [vbusSampledNext, vbusSampledCode, vbusSampledMagnitude_of_converges cfg h, vbusWiden_of_converges h]

/-- The search depends on two parameters only: the number of codes and the full step. -/
theorem steadyNext_congr {cfg cfg' : Params} (hmax : cfg.vbusMaxCode = cfg'.vbusMaxCode)
    (hfull : cfg.vbusFullStep = cfg'.vbusFullStep) (B : Nat) (vs : VbusSearch) :
    steadyNext cfg B vs = steadyNext cfg' B vs := by
  unfold steadyNext vbusFirstNext vbusAdvance vbusSampledNext vbusSampledCode vbusSampledMagnitude vbusMagnitude
    vbusNewCode
  rw [hmax, hfull]

/-- The codes found on `n` calls in a row, with 64 codes and full step 64 (R161). -/
def steadyFinds (B : Nat) : Nat → VbusSearch → List (Option Nat)
  | 0, _ => []
  | n + 1, vs => steadyFound B vs :: steadyFinds B n (steadyNext Config.defaults B vs)

/-- Calls in a row against a steady boundary report what `steadyFinds` lists. -/
theorem steadyCalls_report {B : Nat} : ∀ {n : Nat} (s : Fin (n + 1) → State),
    (s 0).cfg.vbusMaxCode = Config.defaults.vbusMaxCode → (s 0).cfg.vbusFullStep = Config.defaults.vbusFullStep →
    (∀ k : Fin n, State.SteadyCall B (s k.castSucc) (s k.succ)) →
    ∀ k : Fin n, ∃ found, (steadyFinds B n (s 0).vs)[k.val]? = some found ∧
      (s k.succ).result = .vbus (found.map (vbusMillivolts (s 0).cfg))
  | 0, _, _, _, _, k => k.elim0
  | n + 1, s, hmax, hfull, hcalls, k => by
    obtain ⟨hcfg, hvs, hresult⟩ := steadyCall_effect (hcalls 0)
    rw [Fin.castSucc_zero] at hcfg hvs hresult
    cases k using Fin.cases with
    | zero => exact ⟨_, rfl, hresult⟩
    | succ j =>
      have hrest := steadyCalls_report (fun k => s k.succ) (by rw [← hmax, ← hcfg]) (by rw [← hfull, ← hcfg])
        (fun k => hcalls k.succ) j
      rw [show (s (Fin.succ 0)).vs = _ from hvs, show (s (Fin.succ 0)).cfg = _ from hcfg,
        steadyNext_congr hmax hfull] at hrest
      exact hrest

/-- The search from power-on, for each of the 63 boundaries: halving the step from 64 takes six calls, and the next
change of the comparator at unit step is on call 7 or 8 (R172 (a)). -/
theorem steadyFinds_reset : ∀ B < 64, 1 ≤ B →
    let finds := steadyFinds B 8 (VbusSearch.reset Config.defaults)
    (∀ k < 6, finds[k]? = some none) ∧
    (finds[6]? = some (some B) ∨ finds[6]? = some none ∧ finds[7]? = some (some B)) := by
  decide

end Sampler

/-! ## The statements -/

/-- Settles O30: only convergence reports, and from a legal state the code it reports is in range. -/
theorem vbusReportInRange : Obligations.VbusReportInRange := by
  rintro s t mv ⟨-, -, hvs, -⟩ hexec hresult
  rw [exec_vbusstep] at hexec
  obtain rfl := Host.Outcome.next.inj hexec
  obtain ⟨base, c, hlast, hconv, hmv⟩ := updateVbus_reported s (Result.vbus.inj hresult)
  obtain ⟨hlow, hhigh⟩ := vbusConvCode_range hvs hlast hconv
  exact ⟨_, hlow, hhigh, hmv⟩

/-- Settles O31: the first call finds the comparator false at the boundary and goes one code down, the second finds
it true below and comes back; both converge, on the boundary's code. -/
theorem samplerSteadyAlternation : Obligations.SamplerSteadyAlternation := by
  intro B s t u hok hlow hhigh hlast hstep hcomp hst htu
  obtain ⟨base, hbase, rfl⟩ := Option.map_eq_some_iff.1 hlast
  obtain ⟨-, hmax⟩ := hok.vbusMaxCode_range
  have hcode := vbusNewCode_toNat s.cfg (by omega) hmax
  obtain ⟨htcfg, htvs, htresult⟩ := steadyCall_effect hst
  obtain ⟨-, huvs, huresult⟩ := steadyCall_effect htu
  have hdown : vbusConverges s.vs false = true := (vbusConverges_iff ..).2 (.inr ⟨hstep, hcomp, rfl⟩)
  obtain ⟨htnext, htfound⟩ := steadyNext_of_converges s.cfg hbase (decide_eq_false (lt_irrefl base.toNat)) hdown
  rw [htnext] at htvs
  generalize hbelow : vbusNewCode s.cfg base.toNat (vbusSigned 1 false) = below at htvs
  have hbelow_toNat : below.toNat = base.toNat - 1 := by
    have := hcode base.toNat (-1)
    rw [show vbusNewCode s.cfg base.toNat (-1) = below from hbelow] at this
    omega
  have hup : vbusConverges t.vs true = true := (vbusConverges_iff ..).2 (.inl (by rw [htvs]; exact ⟨rfl, rfl, rfl⟩))
  obtain ⟨hunext, hufound⟩ := steadyNext_of_converges (B := base.toNat) s.cfg (by rw [htvs])
    (decide_eq_true (show below.toNat < base.toNat by omega)) hup
  have hback : (vbusNewCode s.cfg below.toNat (vbusSigned 1 true)).toNat = base.toNat := by
    have := hcode below.toNat 1
    change ((vbusNewCode s.cfg below.toNat 1).toNat : Int) = _ at this
    change (vbusNewCode s.cfg below.toNat 1).toNat = _
    omega
  rw [htcfg, hunext] at huvs
  rw [htfound, show vbusConvCode s.vs base.toNat = base.toNat by rw [vbusConvCode, hstep]; rfl] at htresult
  rw [htcfg, hufound, show vbusConvCode t.vs below.toNat = base.toNat by
    rw [vbusConvCode, htvs, if_neg (show ¬ (0 : Int) < vbusSigned 1 false by decide), hbelow_toNat]; omega] at huresult
  rw [huvs, htvs]
  exact ⟨congrArg some hbelow_toNat, congrArg some hback, rfl, rfl, rfl, htresult, huresult.trans htresult.symm⟩

/-- Settles O32: the search from power-on, decided for each boundary, is what the calls report. -/
theorem samplerFindsBoundary : Obligations.SamplerFindsBoundary := by
  intro B s hlow hhigh hok hmax hfull hvs hcalls found
  have hreports := steadyCalls_report s hmax hfull hcalls
  have hreset : VbusSearch.reset (s 0).cfg = VbusSearch.reset Config.defaults := by
    rw [VbusSearch.reset, hfull]
    rfl
  rw [hvs, hreset] at hreports
  obtain ⟨hearly, hlate⟩ := steadyFinds_reset B (by omega) hlow
  have hresult : ∀ {k : Fin 8} {x : Option Nat}, (steadyFinds B 8 (VbusSearch.reset Config.defaults))[k.val]? = some x →
      (s k.succ).result = .vbus (x.map (vbusMillivolts (s 0).cfg)) := by
    intro k x hx
    obtain ⟨x', hx', hr⟩ := hreports k
    rw [hx] at hx'
    cases hx'
    exact hr
  refine ⟨fun k hk1 hk6 => ?_, ?_⟩
  · obtain ⟨j, rfl⟩ := Fin.exists_succ_eq.2 (fun h : k = 0 => by simp [h] at hk1)
    exact hresult (hearly j.val (by simpa using hk6))
  · exact hlate.imp (fun h7 => hresult (k := 6) (x := some B) h7) fun ⟨h7, h8⟩ =>
      ⟨hresult (k := 6) (x := none) h7, hresult (k := 7) (x := some B) h8⟩

end Sys2Proof.Machine
end

section
/-!
PROOFS. The statements of `spec/43_negotiation.md` about `RESET` (O10, O34), `REQCAP` (O43), the ticks in Start (O35)
and DetectCc (O36, O37), and Source Capabilities, the first (O41) and a later one (O42). The facts they rest on come
first, in the order of the model's definitions.
-/

namespace Sys2Proof.Machine

section Negotiation

variable (s : State)

/-! ## Answers, clock and pins -/

/-- The next answer is the environment's to give, whatever else the state holds. -/
theorem nextDraw_congr {s t : State} (hscript : t.env.script = s.env.script) (hdraws : t.env.draws = s.env.draws) :
    t.nextDraw = s.nextDraw := by
  rw [State.nextDraw, State.nextDraw, hscript, hdraws]

/-- The next answer that a script fixes. -/
theorem nextDraw_of_script {d : Draw} {script : List Draw} (h : s.env.script = d :: script) : s.nextDraw = d := by
  rw [State.nextDraw, h]

/-- An answer taken from a script leaves the rest of it. -/
theorem takeDraw_script {d : Draw} {script : List Draw} (h : s.env.script = d :: script) :
    s.takeDraw.env.script = script := by
  rw [takeDraw_env, h]
  rfl

/-- A clock reading takes one answer and moves the clock by its elapsed time (R225). -/
theorem nowMs_env :
    (nowMs s).2.env = { s.takeDraw.env with clock := s.env.clock + s.nextDraw.elapsed } := rfl

/-- The other pin, as a choice (R189). -/
theorem otherPin_eq (pin : CcPin) : otherPin pin = if pin = .cc1 then .cc2 else .cc1 := by
  cases pin <;> rfl

/-- Between two readings less than a period apart the elapsed time is what the clock moved (R225). -/
theorem elapsedMs_add {c : Params} (clock : Nat) {elapsed : Nat} (h : elapsed < 2 ^ c.clockWidth) :
    elapsedMs c ((clock + elapsed) % 2 ^ c.clockWidth) (clock % 2 ^ c.clockWidth) = elapsed := by
  rw [elapsedMs_of_lt _ (Nat.mod_lt _ (Nat.two_pow_pos _)), Nat.add_mod, Nat.mod_eq_of_lt h]
  have hr : clock % 2 ^ c.clockWidth < 2 ^ c.clockWidth := Nat.mod_lt _ (Nat.two_pow_pos _)
  generalize clock % 2 ^ c.clockWidth = r at hr
  generalize 2 ^ c.clockWidth = m at *
  rcases Nat.lt_or_ge (r + elapsed) m with hlt | hge
  · rw [Nat.mod_eq_of_lt hlt, show r + elapsed + m - r = elapsed + m by omega, Nat.add_mod_right, Nat.mod_eq_of_lt h]
  · rw [Nat.mod_eq_sub_mod hge, Nat.mod_eq_of_lt (show r + elapsed - m < m by omega),
      show r + elapsed - m + m - r = elapsed by omega, Nat.mod_eq_of_lt h]

/-! ## Requests (R199) -/

/-- `REQCAP` in its domain is one Request, and its outcome (R199). -/
theorem exec_reqcap {index : BitVec 3} {ma : Nat} (h : requestDomain index ma = true) :
    exec (.reqcap index ma) s = .next
      ((requestCapability index ma s).2.returns (if s.nextDraw.ok then .ok else .fail .ioWrite)) := by
  change execReqcap index ma s = _
  rw [execReqcap, inDomain_next _ h, returnsWrite_eq, requestCapability_eq]

/-- A Request leaves the ports alone. -/
theorem requestCapability_ports (index : BitVec 3) (ma : Nat) :
    (requestCapability index ma s).2.port = s.port ∧ (requestCapability index ma s).2.wire = s.wire := by
  rw [requestCapability_eq]
  dsimp only
  split <;> exact ⟨rfl, rfl⟩

/-! ## Source Capabilities (R194) -/

/-- The header of a Request is that of the parameters and the message id (R199). -/
theorem requestHeader_congr {s t : State} (hcfg : t.cfg = s.cfg) (hseq : t.seq = s.seq) :
    requestHeader t = requestHeader s := by
  rw [requestHeader, requestHeader, hcfg, hseq]

/-- The list's first entry, once a message with an object is stored. -/
theorem storeCaps_first (old : Vector Word 8) (first : Word) (others : List Word) :
    (storeCaps old (first :: others))[0] = first := by
  simp [storeCaps]

/-- A frame that the FIFO holds whole: what is received, what the two reads record, and the two answers they take
(R145). -/
theorem readNextFrame_takes {d1 d2 : Draw} {script : List Draw} {sop lo hi : Byte} {body rest : List Byte}
    (hs : s.env.script = d1 :: d2 :: script) (h1 : d1.ok = true) (h2 : d2.ok = true)
    (hq : s.chip.rxFifo = sop :: lo :: hi :: (body ++ rest)) (hsop : sopMatches s.cfg sop = true)
    (hn : body.length = 4 * (headerFields (fromLe16 lo hi)).ndo.toNat + 4) :
    (readNextFrame s).1 = .ok { header := fromLe16 lo hi,
                                data := body.take (4 * (headerFields (fromLe16 lo hi)).ndo.toNat) } ∧
    (readNextFrame s).2.trace = s.trace ++
      [.read s.cfg.regFifo 3 (some [sop, lo, hi]), .delay s.cfg.tXactDelayUs,
        .read s.cfg.regFifo body.length (some body), .delay s.cfg.tXactDelayUs] ∧
    (readNextFrame s).2.env = s.takeDraw.takeDraw.env := by
  obtain ⟨hframe, hstate, -⟩ := readNextFrame_ok s hs h1 h2 hq hsop hn
  obtain ⟨hfront, hleft, hscript⟩ := regRead_fifo_ok s (front := [sop, lo, hi]) (rest := body ++ rest) hs h1 hq
  obtain ⟨hbody, -⟩ := regRead_fifo_ok (regRead s.cfg.regFifo 3 s).2 (front := body) (rest := rest ++ d1.arrive)
    hscript h2 (hleft.trans (List.append_assoc ..))
  refine ⟨hframe, ?_, by rw [hstate]; rfl⟩
  have htrace := regRead_regRead_trace s s.cfg.regFifo s.cfg.regFifo 3 body.length
  rw [show (regRead s.cfg.regFifo 3 s).1 = some [sop, lo, hi] from hfront,
    show (regRead s.cfg.regFifo body.length (regRead s.cfg.regFifo 3 s).2).1 = some body from hbody] at htrace
  rw [hstate, htrace]

/-- The first Source Capabilities take one answer of the environment, for the Request (R194). -/
theorem onSourceCapabilities_first_env (h : s.seq.srccapseen = false) (ndo : BitVec 3) (objects : List Word) :
    (onSourceCapabilities ndo objects s).env = s.takeDraw.env := by
  rcases onSourceCapabilities_cases s ndo objects with ⟨h', -⟩ | ⟨-, e⟩
  · rw [h] at h'
    cases h'
  · rw [e, requestCapability_env]
    rfl

/-- The record of a pass that takes one whole frame: a status read and the frame's two reads. -/
def frameTrace (c : Params) (status : Byte) (front body : List Byte) : List Event :=
  [.read c.regStatus1 1 (some [status]), .delay c.tXactDelayUs,
    .read c.regFifo 3 (some front), .delay c.tXactDelayUs,
    .read c.regFifo body.length (some body), .delay c.tXactDelayUs]

/-- A pass on a whole frame of Source Capabilities, every read answered, is its handler on the state after the three
reads. -/
theorem messagePass_takes_capabilities {d1 d2 d3 : Draw} {script : List Draw} {b sop lo hi c0 c1 c2 c3 : Byte}
    {rest : List Byte} {objects : List Word}
    (hok : s.cfg.Ok) (hscript : s.env.script = d1 :: d2 :: d3 :: script)
    (h1 : d1.ok = true) (h2 : d2.ok = true) (h3 : d3.ok = true)
    (hd : d1.data = [b]) (hb : b &&& s.cfg.status1RxEmpty = 0)
    (hfifo : s.chip.rxFifo = sop :: lo :: hi :: (objects.flatMap le32 ++ [c0, c1, c2, c3] ++ rest))
    (hsop : sop &&& s.cfg.rxSopMask = s.cfg.rxSopTag) (hne : objects ≠ [])
    (hndo : hi.toNat / 16 % 8 = objects.length) (htype : lo.toNat % 32 = s.cfg.dataSourceCap.toNat) :
    ∃ q, messagePass s = (some true, onSourceCapabilities (headerFields (fromLe16 lo hi)).ndo objects q) ∧
      q.cfg = s.cfg ∧ q.vs = s.vs ∧ q.seq = s.seq ∧
      q.env = { s.env with script := script, draws := s.env.draws + 3 } ∧
      q.trace = s.trace ++ frameTrace s.cfg b [sop, lo, hi] (objects.flatMap le32 ++ [c0, c1, c2, c3]) := by
  have hcount : (headerFields (fromLe16 lo hi)).ndo.toNat = objects.length := (fromLe16_ndo lo hi).trans hndo
  have htype' : (headerFields (fromLe16 lo hi)).type = s.cfg.dataSourceCap := by
    apply BitVec.eq_of_toNat_eq
    rw [fromLe16_type, htype]
  have hzero : (headerFields (fromLe16 lo hi)).ndo ≠ 0 := by
    rw [Ne, fromLe16_ndo_eq_zero_iff, hndo, List.length_eq_zero_iff]
    exact hne
  have hdata : (objects.flatMap le32).length = 4 * objects.length := length_flatMap_le32 objects
  obtain ⟨hr, hq, he⟩ := regRead_register_ok s hok.regStatus1_ne_regFifo hscript h1 hd
  have hq' : (regRead s.cfg.regStatus1 1 s).2.chip.rxFifo =
      sop :: lo :: hi :: (objects.flatMap le32 ++ [c0, c1, c2, c3] ++ (rest ++ d1.arrive)) := by
    rw [hq, hfifo]
    simp
  obtain ⟨hf, htrace, henv⟩ := readNextFrame_takes (regRead s.cfg.regStatus1 1 s).2 he h2 h3 hq'
    (decide_eq_true hsop) (by rw [hcount, List.length_append, hdata]; rfl)
  rw [hcount, List.take_left' hdata] at hf
  refine ⟨(readNextFrame (regRead s.cfg.regStatus1 1 s).2).2, ?_, by simp, by simp, by simp, ?_, ?_⟩
  · have hdispatch := dispatchMessage_sourceCapabilities (readNextFrame (regRead s.cfg.regStatus1 1 s).2).2
      (f := { header := fromLe16 lo hi, data := objects.flatMap le32 }) hzero
      (by rw [readNextFrame_cfg, regRead_cfg]; exact htype')
    rw [messagePass_message s hr (decide_eq_false (not_not.2 hb)) hf, hdispatch, wordsOf_flatMap_le32]
  · rw [henv]
    simp [hscript]
  · rw [htrace, regRead_trace, hr, List.append_assoc]
    rfl

/-- A pass whose status read, answered, shows the FIFO empty, is that read. -/
theorem messagePass_reads_empty {d : Draw} {script : List Draw} {b : Byte} (hok : s.cfg.Ok)
    (hscript : s.env.script = d :: script) (h : d.ok = true) (hd : d.data = [b])
    (hb : b &&& s.cfg.status1RxEmpty ≠ 0) :
    messagePass s = (none, (regRead s.cfg.regStatus1 1 s).2) ∧
    (regRead s.cfg.regStatus1 1 s).2.trace =
      s.trace ++ [.read s.cfg.regStatus1 1 (some [b]), .delay s.cfg.tXactDelayUs] := by
  obtain ⟨hr, -⟩ := regRead_register_ok s hok.regStatus1_ne_regFifo hscript h hd
  exact ⟨messagePass_empty s hr (decide_eq_true hb), by rw [regRead_trace, hr]⟩

/-- The end of `UPDATE`'s loop in WaitSourceCapabilities when Source Capabilities were seen: Connected, with no
reading of the clock (R192). -/
theorem loopReturns_seen {u : State} (hu : u.seq.nstate = .waitSourceCapabilities) :
    loopReturns .update true u =
      { u with loop := none, seq := { u.seq with nstate := .connected }, result := .state .connected } := by
  unfold loopReturns
  simp only [hu, afterWait, if_true, returnsNstate, State.returns]

/-! ## The ticks in Start and DetectCc -/

/-- `UPDATE` in Start is that state's tick (R187, R188). -/
theorem exec_update_start (hs : s.seq.nstate = .start) : exec .update s = .next (returnsNstate (tickStart s)) := by
  change execUpdate s = _
  unfold execUpdate
  rw [hs]

/-- `UPDATE` in DetectCc is that state's tick (R187, R189). -/
theorem exec_update_detect (hs : s.seq.nstate = .detectCc) :
    exec .update s = .next (returnsNstate (tickDetectCc s)) := by
  change execUpdate s = _
  unfold execUpdate
  rw [hs]

/-- What the ticks leave alone: the parameters, the sampler, the ports and the loop's mark. -/
def SameButSeq (s t : State) : Prop :=
  t.cfg = s.cfg ∧ t.vs = s.vs ∧ t.port = s.port ∧ t.wire = s.wire ∧ t.loop = s.loop

theorem tickStart_frame : SameButSeq s (tickStart s) := by
  rw [tickStart_eq]
  dsimp only
  split
  · split <;> simp [SameButSeq]
  · simp [SameButSeq]

theorem tickLevel_frame (level : Nat) : SameButSeq s (tickLevel level s) := by
  rw [tickLevel_eq]
  dsimp only
  split
  · simp [SameButSeq]
  · split <;> simp [SameButSeq]

theorem tickDetectCc_frame : SameButSeq s (tickDetectCc s) := by
  have hlevel := tickLevel_frame (ccLevelRead (nowMs s).2).2 (nowMs s).2.nextDraw.level
  rw [tickDetectCc_eq]
  dsimp only
  split
  · simp [SameButSeq]
  · split
    · simpa [SameButSeq] using hlevel
    · simp [SameButSeq]

/-- The settle time has not passed (R189). -/
def Unsettled (s : State) : Prop := elapsedMs s.cfg (nowMs s).1 s.seq.tsettle < s.cfg.tCcSettleMs

variable {s}

/-- A tick before the settle time reads the clock only (R189). -/
theorem tickDetectCc_early (h : Unsettled s) : tickDetectCc s = (nowMs s).2 := by
  rw [tickDetectCc_eq]
  exact if_pos h

/-- A settled tick whose level read fails ends there (R189). -/
theorem tickDetectCc_unread (h : ¬ Unsettled s) (h2 : s.takeDraw.nextDraw.ok = false) :
    (tickDetectCc s).seq = s.seq ∧ (tickDetectCc s).trace = s.trace ++ [.now (nowMs s).1, .level none] := by
  have hd2 : (nowMs s).2.nextDraw = s.takeDraw.nextDraw := nextDraw_congr rfl rfl
  have htick : tickDetectCc s = (ccLevelRead (nowMs s).2).2 := by
    rw [tickDetectCc_eq]
    dsimp only
    rw [if_neg (show ¬ _ < _ from h), hd2, h2]
    rfl
  rw [htick]
  simp [ccLevelRead_fst, hd2, h2]

/-- A settled tick that reads a level goes on with it (R189). -/
theorem tickDetectCc_reads (h : ¬ Unsettled s) (h2 : s.takeDraw.nextDraw.ok = true) :
    ∃ u, tickDetectCc s = tickLevel s.takeDraw.nextDraw.level u ∧ u.cfg = s.cfg ∧ u.seq = s.seq ∧
      u.trace = s.trace ++ [.now (nowMs s).1, .level (some s.takeDraw.nextDraw.level)] ∧
      u.env = { s.takeDraw.takeDraw.env with clock := s.env.clock + s.nextDraw.elapsed } := by
  have hd2 : (nowMs s).2.nextDraw = s.takeDraw.nextDraw := nextDraw_congr rfl rfl
  refine ⟨(ccLevelRead (nowMs s).2).2, ?_, by simp, by simp, ?_, by simp [nowMs_env]⟩
  · rw [tickDetectCc_eq]
    dsimp only
    rw [if_neg (show ¬ _ < _ from h), hd2, if_pos h2]
  · simp [ccLevelRead_fst, hd2, h2]

/-- A settled tick whose level differs from the saved one decides the pin (R189). -/
theorem tickDetectCc_decides {saved : Nat} (h : ¬ Unsettled s) (h2 : s.takeDraw.nextDraw.ok = true)
    (hsaved : s.seq.ccsaved = some saved) (hne : saved ≠ s.takeDraw.nextDraw.level) :
    (tickDetectCc s).seq = { s.seq with
      ccpin := some (if saved < s.takeDraw.nextDraw.level then s.seq.ccmeas else otherPin s.seq.ccmeas),
      nstate := .enableTransceiver } ∧
    (tickDetectCc s).trace = s.trace ++ [.now (nowMs s).1, .level (some s.takeDraw.nextDraw.level)] := by
  obtain ⟨u, htick, -, hseq, htrace, -⟩ := tickDetectCc_reads h h2
  have hdecide : u.seq.ccsaved ≠ none ∧ u.seq.ccsaved ≠ some s.takeDraw.nextDraw.level := by
    rw [hseq, hsaved]
    exact ⟨Option.some_ne_none _, fun e => hne (Option.some.inj e)⟩
  rw [htick, tickLevel_eq]
  dsimp only
  rw [if_pos hdecide, hseq, hsaved]
  exact ⟨rfl, htrace⟩

/-- A settled tick with no other level saved starts the other pin's measurement (R189). -/
theorem tickDetectCc_measures (h : ¬ Unsettled s) (h2 : s.takeDraw.nextDraw.ok = true)
    (hsame : s.seq.ccsaved = none ∨ s.seq.ccsaved = some s.takeDraw.nextDraw.level) :
    let d3 := s.takeDraw.takeDraw.nextDraw
    let d4 := s.takeDraw.takeDraw.takeDraw.nextDraw
    let later := (s.env.clock + s.nextDraw.elapsed + d4.elapsed) % 2 ^ s.cfg.clockWidth
    let trace := s.trace ++ [.now (nowMs s).1, .level (some s.takeDraw.nextDraw.level),
      .action (.ccMeasureStart (otherPin s.seq.ccmeas)) d3.ok]
    (d3.ok = false → (tickDetectCc s).seq = s.seq ∧ (tickDetectCc s).trace = trace) ∧
    (d3.ok = true →
      (tickDetectCc s).seq = { s.seq with
        ccsaved := some s.takeDraw.nextDraw.level, ccmeas := otherPin s.seq.ccmeas, tsettle := later } ∧
      (tickDetectCc s).trace = trace ++ [.now later] ∧
      (tickDetectCc s).env = { s.takeDraw.takeDraw.takeDraw.takeDraw.env with
        clock := s.env.clock + s.nextDraw.elapsed + d4.elapsed }) := by
  intro d3 d4 later trace
  obtain ⟨u, htick, hcfg, hseq, htrace, henv⟩ := tickDetectCc_reads h h2
  have hsame' : ¬ (u.seq.ccsaved ≠ none ∧ u.seq.ccsaved ≠ some s.takeDraw.nextDraw.level) := by
    rw [hseq]
    exact fun ⟨hnone, hsome⟩ => hsame.elim hnone hsome
  have hd3 : u.nextDraw = d3 := nextDraw_congr (by rw [henv]) (by rw [henv])
  rw [htick, tickLevel_eq]
  dsimp only
  rw [if_neg hsame', hd3, hseq]
  generalize hv : (chipAction (.ccMeasureStart (otherPin s.seq.ccmeas)) u).2 = v
  have hvtrace : v.trace = trace := by
    rw [← hv, chipAction_trace, htrace, hd3, List.append_assoc]
    rfl
  have hvenv : v.env = u.takeDraw.env := by rw [← hv, chipAction_env]
  have hd4 : v.nextDraw = d4 := nextDraw_congr (by rw [hvenv]; simp [henv]) (by rw [hvenv]; simp [henv])
  have hlater : (nowMs v).1 = later := by
    rw [nowMs_fst, hd4, hvenv, takeDraw_env, henv, ← hv, chipAction_cfg, hcfg]
  refine ⟨fun h3 => ?_, fun h3 => ?_⟩
  · rw [h3]
    exact ⟨by rw [if_neg Bool.false_ne_true, ← hv, chipAction_seq, hseq], hvtrace⟩
  · rw [if_pos h3, hlater]
    refine ⟨rfl, ?_, ?_⟩
    · rw [show ∀ q, ({ (nowMs v).2 with seq := q } : State).trace = (nowMs v).2.trace from fun _ => rfl, nowMs_trace,
        hlater, hvtrace]
    · rw [show ∀ q, ({ (nowMs v).2 with seq := q } : State).env = (nowMs v).2.env from fun _ => rfl, nowMs_env, hd4]
      simp [hvenv, henv]

end Negotiation

/-! ## The statements -/

/-- Settles O34: the operation sets these fields and the result. -/
theorem resetClearsSequencer : Obligations.ResetClearsSequencer := by
  intro s
  rfl

/-- Settles O10: the values of the table, and by O34 those that `RESET` sets. -/
theorem resetHoldsSpecValues : Obligations.ResetHoldsSpecValues :=
  ⟨rfl, rfl, rfl, rfl, rfl, rfl, rfl, rfl, rfl, rfl, rfl, resetClearsSequencer⟩

/-- Settles O43: a Request is one write of its frame; the sequencer counts it when the write succeeded. -/
theorem requestSendsAndCommits : Obligations.RequestSendsAndCommits := by
  intro index ma s hindex hma d
  obtain ⟨hport, hwire⟩ := requestCapability_ports s index ma
  refine ⟨_, requestHeader s, packRequest index ma, exec_reqcap s ((requestDomain_iff index ma).2 ⟨hindex, hma⟩),
    requestHeader_toNat s, packRequest_toNat index hma, requestCapability_trace s index ma,
    requestCapability_cfg s index ma, requestCapability_vs s index ma, hport, hwire,
    requestCapability_loop s index ma, fun a => by rw [returns_chip, requestCapability_regs],
    fun hd => ?sent, fun hd => ?failed⟩
  case sent =>
    rw [returns_seq, requestCapability_seq, if_pos hd, returns_result, if_pos hd]
    exact ⟨rfl, rfl⟩
  case failed =>
    have hd : s.nextDraw.ok = false := hd
    rw [returns_seq, requestCapability_seq, returns_result, hd]
    exact ⟨rfl, rfl⟩

/-- Settles O35: the tick is `ChipInit`, then the measurement of CC1, then a reading of the clock, each if the one
before succeeded. -/
theorem updateInStart : Obligations.UpdateInStart := by
  intro s hs d1 d2 d3
  obtain ⟨hcfg, hvs, hport, hwire, hloop⟩ := tickStart_frame s
  have hd2 : (chipAction .chipInit s).2.nextDraw = d2 := nextDraw_congr rfl rfl
  refine ⟨_, exec_update_start s hs, hcfg, hvs, hport, hwire, hloop, rfl, fun h1 => ?noInit, fun h1 h2 => ?noMeasure,
    fun h1 h2 => ?measures⟩
  all_goals
    have h1 : s.nextDraw.ok = _ := h1
    rw [returnsNstate, returns_seq, returns_trace, tickStart_eq]
    dsimp only
    rw [h1]
  case noInit =>
    rw [if_neg Bool.false_ne_true, chipAction_seq, chipAction_trace, h1]
    exact ⟨rfl, rfl⟩
  case noMeasure =>
    rw [if_pos rfl, hd2, h2, if_neg Bool.false_ne_true, chipAction_trace, chipAction_trace, hd2, h1, h2,
      List.append_assoc]
    exact ⟨rfl, rfl⟩
  case measures =>
    rw [if_pos rfl, hd2, if_pos h2]
    generalize hu : (chipAction (.ccMeasureStart .cc1) (chipAction .chipInit s).2).2 = u
    have henv : u.env = s.takeDraw.takeDraw.env := by rw [← hu]; rfl
    have hd3 : u.nextDraw = d3 := nextDraw_congr (by rw [henv]) (by rw [henv])
    have hnow : (nowMs u).1 = (s.env.clock + d3.elapsed) % 2 ^ s.cfg.clockWidth := by
      rw [nowMs_fst, hd3, henv, ← hu, chipAction_cfg, chipAction_cfg]
      rfl
    have htrace : (nowMs u).2.trace =
        s.trace ++ [.action .chipInit true, .action (.ccMeasureStart .cc1) true, .now (nowMs u).1] := by
      rw [nowMs_trace, ← hu, chipAction_trace, chipAction_trace, hd2, h1, h2, List.append_assoc, List.append_assoc]
      rfl
    rw [hnow] at htrace ⊢
    exact ⟨rfl, htrace⟩

/-- Settles O36: the clock reading, then the level read, then either the decision or the other pin's measurement and
a reading of the clock, each if the one before allows it. -/
theorem updateInDetectCc : Obligations.UpdateInDetectCc := by
  intro s hs hsettle d1 d2 d3 d4 now later settled other
  obtain ⟨hcfg, hvs, hport, hwire, hloop⟩ := tickDetectCc_frame s
  have hsettled : settled ↔ ¬ Unsettled s := by
    rw [Unsettled, elapsedMs_of_lt _ hsettle, not_lt]
    rfl
  have hother : otherPin s.seq.ccmeas = other := otherPin_eq s.seq.ccmeas
  refine ⟨_, exec_update_detect s hs, hcfg, hvs, hport, hwire, hloop, rfl, fun h => ?early, fun h h2 => ?unread,
    fun h h2 saved hsaved hne => ?decides, fun h h2 hsame => ?measures⟩
  case early =>
    rw [tickDetectCc_early (not_not.1 (mt hsettled.2 h))]
    exact ⟨nowMs_seq s, nowMs_trace s⟩
  case unread => exact tickDetectCc_unread (hsettled.1 h) h2
  case decides =>
    have hdecides := tickDetectCc_decides (hsettled.1 h) h2 hsaved hne
    rw [hother] at hdecides
    exact hdecides
  case measures =>
    obtain ⟨hfailed, hsaves⟩ := tickDetectCc_measures (hsettled.1 h) h2 hsame
    rw [hother] at hfailed hsaves
    refine ⟨fun h3 => ?_, fun h3 => ?_⟩
    · obtain ⟨hseq, htrace⟩ := hfailed h3
      rw [h3] at htrace
      exact ⟨hseq, htrace⟩
    · obtain ⟨hseq, htrace, -⟩ := hsaves h3
      rw [h3, List.append_assoc] at htrace
      exact ⟨hseq, htrace⟩

/-- Settles O37: the first tick saves its level and measures the other pin, the second finds a different level and
decides. -/
theorem twoDetectTicksPickHigherPin : Obligations.TwoDetectTicksPickHigherPin := by
  intro s c1 v1 m1 n1 c2 v2 script hs hmeas hsaved hscript hv1 hm1 hv2 hne hsettle1 hsettle2 hperiod
  have hc1 : s.nextDraw = c1 := nextDraw_of_script s hscript
  have hscript2 := takeDraw_script s hscript
  have hd2 : s.takeDraw.nextDraw = v1 := nextDraw_of_script _ hscript2
  have hscript3 := takeDraw_script _ hscript2
  have hd3 : s.takeDraw.takeDraw.nextDraw = m1 := nextDraw_of_script _ hscript3
  have hscript4 := takeDraw_script _ hscript3
  have hd4 : s.takeDraw.takeDraw.takeDraw.nextDraw = n1 := nextDraw_of_script _ hscript4
  have hsettled1 : ¬ Unsettled s := by
    rw [Unsettled, nowMs_fst, hc1]
    exact not_lt.2 hsettle1
  obtain ⟨-, hsaves⟩ := tickDetectCc_measures hsettled1 (by rw [hd2]; exact hv1) (.inl hsaved)
  obtain ⟨hseq, -, henv⟩ := hsaves (by rw [hd3]; exact hm1)
  obtain ⟨hcfg, -⟩ := tickDetectCc_frame s
  rw [hd4, hc1] at hseq henv
  rw [hd2, hmeas] at hseq
  have htick1 := exec_update_detect s hs
  generalize htdef : tickDetectCc s = u at htick1 hseq henv hcfg
  have htseq : (returnsNstate u).seq = u.seq := rfl
  have htscript : (returnsNstate u).env.script = c2 :: v2 :: script := by
    rw [show (returnsNstate u).env = u.env from rfl, henv]
    exact takeDraw_script _ hscript4
  have hc2 : (returnsNstate u).nextDraw = c2 := nextDraw_of_script _ htscript
  have hd2' : (returnsNstate u).takeDraw.nextDraw = v2 := nextDraw_of_script _ (takeDraw_script _ htscript)
  have hsettled2 : ¬ Unsettled (returnsNstate u) := by
    rw [Unsettled, nowMs_fst, hc2, htseq, hseq, show (returnsNstate u).env = u.env from rfl, henv,
      show (returnsNstate u).cfg = s.cfg from hcfg, elapsedMs_add _ hperiod]
    exact not_lt.2 hsettle2
  obtain ⟨hseq2, -⟩ := tickDetectCc_decides (saved := v1.level) hsettled2 (by rw [hd2']; exact hv2)
    (by rw [htseq, hseq]) (by rw [hd2']; exact hne)
  have hstate : u.seq.nstate = .detectCc := by rw [hseq]; exact hs
  refine ⟨_, _, htick1, exec_update_detect (returnsNstate u) hstate, hstate, ?_, ?_⟩
  · rw [returnsNstate, returns_seq, hseq2]
  · rw [returnsNstate, returns_seq, hseq2, hd2', htseq, hseq]
    by_cases hlt : v1.level < v2.level
    · rw [if_pos hlt, if_neg (by omega)]
      rfl
    · rw [if_neg hlt, if_pos (by omega)]
      rfl

/-- Settles O42: the first pass stores the list, the second finds the FIFO empty and ends the loop. -/
theorem procmsgLaterSourceCapabilities : Obligations.ProcmsgLaterSourceCapabilities := by
  intro s d1 d2 d3 d4 script b1 b4 sop lo hi c0 c1 c2 c3 queue objects hok hloop hseen hne hscript h1 h2 h3 h4 hd1 hb1
    hd4 hb4 hfifo hsop hndo htype
  obtain ⟨q, hpass1, hqcfg, hqvs, hqseq, hqenv, hqtrace⟩ :=
    messagePass_takes_capabilities s hok hscript h1 h2 h3 hd1 hb1 hfifo hsop hne hndo htype
  generalize hn : (headerFields (fromLe16 lo hi)).ndo = ndo at hpass1
  have hcount : ndo.toNat = objects.length := by rw [← hn, fromLe16_ndo, hndo]
  rcases onSourceCapabilities_cases q ndo objects with ⟨-, e⟩ | ⟨hunseen, -⟩
  case inr =>
    rw [hqseq, hseen] at hunseen
    cases hunseen
  rw [e] at hpass1
  generalize hv : { q with seq := q.seq.storing ndo objects } = v at hpass1
  have hvcfg : v.cfg = s.cfg := by rw [← hv]; exact hqcfg
  have hvenv : v.env = q.env := by rw [← hv]
  obtain ⟨hpass2, htrace2⟩ := messagePass_reads_empty v (by rw [hvcfg]; exact hok) (by rw [hvenv, hqenv]) h4 hd4
    (by rw [hvcfg]; exact hb4)
  have hend : messageLoop (s.env.script.length + 1) false s = (.ended true, (regRead v.cfg.regStatus1 1 v).2) := by
    rw [hscript]
    exact messageLoop_of_goesOn_ends _ false hpass1 hpass2
  have hexec : exec .procmsg s = .next ((withLoop none (regRead v.cfg.regStatus1 1 v).2).returns (.saw true)) := by
    change execProcmsg s = _
    simp only [execProcmsg, hloop, Option.getD_none, runLoop, hend, loopReturns]
  have hbody : (objects.flatMap le32 ++ [c0, c1, c2, c3]).length = 4 * objects.length + 4 := by
    rw [List.length_append, length_flatMap_le32]
    rfl
  refine ⟨_, storeCaps s.seq.caplist objects, ⟨ndo.toNat, Nat.lt_trans ndo.isLt (by decide)⟩, hexec, rfl, rfl, ?_, ?_,
    hcount, storeCaps_take _ (by omega), objects.flatMap le32 ++ [c0, c1, c2, c3], ?_⟩
  · rw [← hqvs, ← hv]
    rfl
  · rw [← hqseq, ← hv]
    rfl
  · rw [← hbody, returns_trace, show ∀ u, (withLoop none u).trace = u.trace from fun _ => rfl, htrace2, hvcfg, ← hv,
      show ∀ x, ({ q with seq := x } : State).trace = q.trace from fun _ => rfl, hqtrace, List.append_assoc]
    rfl

/-- Settles O41: the first pass stores the list and sends the Request, the second finds the FIFO empty, and the exit
test goes to Connected. -/
theorem updateFirstSourceCapabilities : Obligations.UpdateFirstSourceCapabilities := by
  intro s d1 d2 d3 dw d4 script b1 b4 sop lo hi c0 c1 c2 c3 queue first others objects hok hs hunseen hscript h1 h2 h3
    h4 hd1 hb1 hd4 hb4 hfifo hsop hndo htype
  obtain ⟨q, hpass1, hqcfg, hqvs, hqseq, hqenv, -⟩ :=
    messagePass_takes_capabilities s hok hscript h1 h2 h3 hd1 hb1 hfifo hsop (List.cons_ne_nil _ _) hndo htype
  generalize hn : (headerFields (fromLe16 lo hi)).ndo = ndo at hpass1
  have hcount : ndo.toNat = objects.length := by rw [← hn, fromLe16_ndo, hndo]
  have hdw : q.nextDraw = dw := nextDraw_of_script q (by rw [hqenv])
  obtain ⟨hvcfg, hvvs, -, hlist, hvcount⟩ := onSourceCapabilities_stores q ndo objects
  obtain ⟨hvtrace, hvseq⟩ := onSourceCapabilities_first q (by rw [hqseq]; exact hunseen) ndo objects
  have hvenv := onSourceCapabilities_first_env q (by rw [hqseq]; exact hunseen) ndo objects
  generalize onSourceCapabilities ndo objects q = v at *
  obtain ⟨hpass2, htrace2⟩ := messagePass_reads_empty v (by rw [hvcfg, hqcfg]; exact hok)
    (by rw [hvenv]; exact takeDraw_script q (by rw [hqenv])) h4 hd4 (by rw [hvcfg, hqcfg]; exact hb4)
  have hend : messageLoop (s.env.script.length + 1) false s = (.ended true, (regRead v.cfg.regStatus1 1 v).2) := by
    rw [hscript]
    exact messageLoop_of_goesOn_ends _ false hpass1 hpass2
  have hexec := exec_update_of_ended (.inr hs) hend
  have hwait : v.seq.nstate = .waitSourceCapabilities := by
    rw [hvseq, hqseq]
    split <;> exact hs
  rw [loopReturns_seen (u := (regRead v.cfg.regStatus1 1 v).2) hwait] at hexec
  have hstored : v.seq.caplist[0] = first := by rw [hlist]; exact storeCaps_first ..
  refine ⟨_, requestHeader s, packRequest 1 (unpackCapability first).maxCurrentMa, hexec, rfl, rfl,
    hvvs.trans hqvs, rfl, ?seen, (congrArg Fin.val hvcount).trans hcount, ?list, requestHeader_toNat s,
    packRequest_advertised_toNat 1 first, ?sent, fun hd => ?committed, fun hd => ?uncommitted, ?curcap, ?ccpin⟩
  case list =>
    change v.seq.caplist.toList.take objects.length = objects
    rw [hlist, storeCaps_take _ (by omega)]
  case sent =>
    change _ ∈ (regRead v.cfg.regStatus1 1 v).2.trace
    rw [htrace2, hvtrace, hstored, hdw, hqcfg, requestHeader_congr hqcfg hqseq]
    simp [encode]
  case committed =>
    change v.seq.reqcap = _ ∧ v.seq.pwrstable = _ ∧ v.seq.msgid = _
    rw [hvseq, hdw, if_pos hd, hqseq]
    exact ⟨rfl, rfl, rfl⟩
  case uncommitted =>
    change v.seq.reqcap = _ ∧ v.seq.pwrstable = _ ∧ v.seq.msgid = _
    rw [hvseq, hdw, hd, hqseq]
    exact ⟨rfl, rfl, rfl⟩
  case seen =>
    change v.seq.srccapseen = true
    rw [hvseq]
    split <;> rfl
  case curcap =>
    change v.seq.curcap = _
    rw [hvseq, hqseq]
    split <;> rfl
  case ccpin =>
    change v.seq.ccpin = _
    rw [hvseq, hqseq]
    split <;> rfl

end Sys2Proof.Machine
end

section
/-!
PROOFS. The promises of the whole machine: every step keeps the state legal (O12), pauses after every transaction
(O49), takes nothing back (O48); what moves the sequencer's state (O45), the message id (O46) and the sampler (O47);
what changes nothing but the result (O50). They follow from three facts said once: what an instruction that answers
a next state did (`Did`), what that does to the sequencer (`SeqMoves`), and that a property which every call on the
host keeps is kept by every step (`KeptByCalls`).
-/

namespace Sys2Proof.Machine

/-! ## What an instruction did -/

/-- The codec's operations, the read-outs and the wire formats (R120, R200 to R203, R3). -/
def Quiet (i : Instr) : Prop :=
  (∃ op, opOf i = some op ∧ op ∈ [Op.packhdr, .unpackhdr, .unpackcap, .pack16le, .unpack16le, .pack32le,
    .unpack32le, .packreq, .getcaps, .curcap, .pwrstable, .getccpin]) ∨ (formatOf i).isSome = true

/-- The operations that are one register transaction (R140 to R144). -/
def OneAccess (i : Instr) : Prop :=
  ∃ op, opOf i = some op ∧ op ∈ [Op.regwr1, .regwrn, .regrd1, .regrdn, .wrmsg]

/-- A value of a wire format has no code (R102). -/
theorem opOf_of_format {i : Instr} (h : (formatOf i).isSome = true) : opOf i = none := by
  cases i with
  | header16 | capability32 | request32 | txPacksym | txFrame | rxSop | rxFrame | measure8 => rfl
  | _ => cases h

/-- No operation is both. -/
theorem OneAccess.not_quiet {i : Instr} (h : OneAccess i) : ¬ Quiet i := by
  obtain ⟨op, hop, hmem⟩ := h
  rintro (⟨op', hop', hmem'⟩ | hformat)
  · cases hop.symm.trans hop'
    revert hmem hmem'
    cases op <;> decide
  · cases hop.symm.trans (opOf_of_format hformat)

/-- The state after one register transaction. -/
inductive Accessed (s : State) : State → Prop where
  | wrote (addr : Byte) (bytes : List Byte) : Accessed s (regWrite addr bytes s).2
  | haveRead (addr : Byte) (n : Nat) : Accessed s (regRead addr n s).2

/-- The loop that `PROCMSG` runs: the one in progress, or a new one (R190). -/
def procmsgLoop (s : State) : Loop := s.loop.getD { saw := false, caller := .procmsg }

/-- The tick of `UPDATE`, by the sequencer's state (R187). -/
inductive Ticked (s : State) : State → Prop where
  | start (h : s.seq.nstate = .start) : Ticked s (returnsNstate (tickStart s))
  | detect (h : s.seq.nstate = .detectCc) : Ticked s (returnsNstate (tickDetectCc s))
  | enable (pin : CcPin) (h : s.seq.nstate = .enableTransceiver) : Ticked s (returnsNstate (tickEnable pin s))
  | messages : Ticked s (runLoop { saw := false, caller := .update } s)

/-- What an instruction that answers a next state did, by the shared operation it is made of. -/
inductive Did : Instr → State → State → Prop where
  | result {i : Instr} {s : State} (r : Result) (h : Quiet i) : Did i s (s.returns r)
  | access {i : Instr} {s u : State} (r : Result) (h : OneAccess i) (hu : Accessed s u) : Did i s (u.returns r)
  | frame {buf : List Byte} {s : State} (r : Result) : Did (.rdframe buf) s ((readNextFrame s).2.returns r)
  | sample {s : State} (r : Result) : Did .vbusstep s ((updateVbus s).2.returns r)
  | init {s : State} (r : Result) : Did .init s ((chipAction .chipInit s).2.returns r)
  | reset {s : State} : Did .reset s ({ s with seq := s.seq.cleared }.returns .none)
  | request {s : State} (index : BitVec 3) (ma : Nat) : Did (.reqcap index ma) s
      ((requestCapability index ma s).2.returns (if s.nextDraw.ok then .ok else .fail .ioWrite))
  | update {s t : State} (h : Ticked s t) : Did .update s t
  | procmsg {s : State} : Did .procmsg s (runLoop (procmsgLoop s) s)

/-- A call that its domain test let through had its effect (R99). -/
theorem inDomain_eq_next {p : Bool} {s t : State} (h : inDomain p s = .next t) : p = true ∧ t = s := by
  unfold inDomain at h
  split at h
  · exact ⟨‹_›, (Host.Outcome.next.inj h).symm⟩
  · cases h

/-- `UPDATE` is the tick of the sequencer's state (R187). -/
theorem exec_update_ticked {s t : State} (h : exec .update s = .next t) : Ticked s t := by
  change execUpdate s = .next t at h
  unfold execUpdate at h
  split at h <;> rename_i hs
  · cases h; exact .start hs
  · cases h; exact .detect hs
  · split at h
    · cases h; exact .enable _ hs
    · cases h
  · cases h; exact .messages
  · cases h; exact .messages

/-- Every instruction that answers a next state did one of these. -/
theorem exec_did {i : Instr} {s t : State} (h : exec i s = .next t) : Did i s t := by
  cases i with
  | packreq index ma =>
    obtain ⟨-, rfl⟩ := inDomain_eq_next h
    exact .result _ (.inl ⟨_, rfl, by decide⟩)
  | txFrame header objects =>
    obtain ⟨-, rfl⟩ := inDomain_eq_next h
    exact .result _ (.inr rfl)
  | rxFrame x header objects c0 c1 c2 c3 =>
    obtain ⟨-, rfl⟩ := inDomain_eq_next h
    exact .result _ (.inr rfl)
  | regwr1 addr b =>
    cases (exec_regwr1 s addr b).symm.trans h
    exact .access _ ⟨_, rfl, by decide⟩ (.wrote ..)
  | regwrn addr bytes =>
    obtain ⟨hn, -⟩ := inDomain_eq_next h
    cases (exec_regwrn s addr (of_decide_eq_true hn)).symm.trans h
    exact .access _ ⟨_, rfl, by decide⟩ (.wrote ..)
  | regrd1 addr =>
    cases (exec_regrd1 s addr).symm.trans h
    exact .access _ ⟨_, rfl, by decide⟩ (.haveRead ..)
  | regrdn addr n =>
    obtain ⟨hn, -⟩ := inDomain_eq_next h
    cases (exec_regrdn s addr (of_decide_eq_true hn)).symm.trans h
    exact .access _ ⟨_, rfl, by decide⟩ (.haveRead ..)
  | wrmsg header ndo objects =>
    obtain ⟨hn, -⟩ := inDomain_eq_next h
    cases (exec_wrmsg s header (of_decide_eq_true hn)).symm.trans h
    exact .access _ ⟨_, rfl, by decide⟩ (.wrote ..)
  | rdframe buf =>
    obtain ⟨hbuf, -⟩ := inDomain_eq_next h
    rcases hq : readNextFrame s with ⟨cause | f, u⟩
    · cases (exec_rdframe_of_error (of_decide_eq_true hbuf) hq).symm.trans h
      rw [show u = (readNextFrame s).2 by rw [hq]]
      exact .frame _
    · cases (exec_rdframe_of_ok (of_decide_eq_true hbuf) hq).symm.trans h
      rw [show u = (readNextFrame s).2 by rw [hq]]
      exact .frame _
  | vbusstep => cases h; exact .sample _
  | init => cases (exec_init s).symm.trans h; exact .init _
  | reset => cases h; exact .reset
  | update => exact .update (exec_update_ticked h)
  | reqcap index ma =>
    obtain ⟨hdomain, -⟩ := inDomain_eq_next h
    cases (exec_reqcap s hdomain).symm.trans h
    exact .request index ma
  | procmsg => cases h; exact .procmsg
  | packhdr | unpackhdr | unpackcap | pack16le | unpack16le | pack32le | unpack32le | getcaps | curcap | pwrstable
  | getccpin =>
    cases h
    exact .result _ (.inl ⟨_, rfl, by decide⟩)
  | header16 | capability32 | request32 | txPacksym | rxSop | measure8 =>
    cases h
    exact .result _ (.inr rfl)

/-! ## What every call on the host keeps -/

/-- A property that every call on the host keeps, and that says nothing of the sequencer, the ports, the loop's mark
and the result. -/
structure KeptByCalls (P : State → Prop) : Prop where
  write : ∀ addr bytes s, P s → P (regWrite addr bytes s).2
  read : ∀ addr n s, P s → P (regRead addr n s).2
  now : ∀ s, P s → P (nowMs s).2
  action : ∀ a s, P s → P (chipAction a s).2
  level : ∀ s, P s → P (ccLevelRead s).2
  block : ∀ s seq port wire loop result, P s →
    P { s with seq := seq, port := port, wire := wire, loop := loop, result := result }

namespace KeptByCalls

variable {P : State → Prop} (hP : KeptByCalls P) {s : State}
include hP

theorem returns (r : Result) (h : P s) : P (s.returns r) := hP.block s _ _ _ _ _ h

theorem accessed {u : State} (hu : Accessed s u) (h : P s) : P u := by
  cases hu
  · exact hP.write _ _ _ h
  · exact hP.read _ _ _ h

theorem requestCapability (index : BitVec 3) (ma : Nat) (h : P s) : P (requestCapability index ma s).2 := by
  rw [requestCapability_eq]
  have hw := hP.write s.cfg.regFifo (txFrameBytes s.cfg (requestHeader s) [packRequest index ma]) s h
  dsimp only
  split
  · exact hP.block _ _ _ _ _ _ hw
  · exact hw

theorem dispatchMessage (f : RxFrame) (h : P s) : P (dispatchMessage f s).2 := by
  rcases dispatchMessage_cases s f with ⟨r, k, p, e⟩ | ⟨ndo, objects, e⟩ | e <;> rw [e]
  · exact hP.block s _ _ _ _ _ h
  · rcases onSourceCapabilities_cases s ndo objects with ⟨-, e⟩ | ⟨-, e⟩ <;> simp only [e]
    · exact hP.block s _ _ _ _ _ h
    · exact hP.requestCapability _ _ (hP.block s _ _ _ _ _ h)
  · exact h

theorem messageLoop (n : Nat) (saw : Bool) (h : P s) : P (messageLoop n saw s).2 :=
  messageLoop_keeps (fun _ hs => messagePass_keeps _ hP.read (fun f _ hs => hP.dispatchMessage f hs) hs) n saw s h

theorem loopReturns (caller : Caller) (saw : Bool) (h : P s) : P (loopReturns caller saw s) := by
  rcases loopReturns_cases s caller saw with ⟨r, e⟩ | ⟨-, -, e⟩ <;> rw [e]
  · exact hP.block s _ _ _ _ _ h
  · apply hP.returns
    have hs : P { s with loop := none } := hP.block s _ _ _ _ _ h
    rcases afterWait_cases { s with loop := none } saw with ⟨-, e⟩ | ⟨-, e | e⟩ <;> rw [e]
    · exact hP.block s _ _ _ _ _ h
    · exact hP.now _ hs
    · exact hP.block _ _ _ _ _ _ (hP.now _ hs)

theorem runLoop (l : Loop) (h : P s) : P (runLoop l s) := by
  have hloop := hP.messageLoop (s.env.script.length + 1) l.saw h
  rcases runLoop_cases s l with ⟨saw, -, e⟩ | ⟨saw, -, e⟩ <;> rw [e]
  · exact hP.loopReturns _ _ hloop
  · exact hP.block _ _ _ _ _ _ hloop

theorem tickStart (h : P s) : P (tickStart s) := by
  have h1 := hP.action .chipInit s h
  have h2 := hP.action (.ccMeasureStart .cc1) _ h1
  rw [tickStart_eq]
  dsimp only
  split
  · split
    · exact hP.block _ _ _ _ _ _ (hP.now _ h2)
    · exact h2
  · exact h1

theorem tickLevel (level : Nat) (h : P s) : P (tickLevel level s) := by
  have h1 := hP.action (.ccMeasureStart (otherPin s.seq.ccmeas)) s h
  rw [tickLevel_eq]
  dsimp only
  split
  · exact hP.block s _ _ _ _ _ h
  · split
    · exact hP.block _ _ _ _ _ _ (hP.now _ h1)
    · exact h1

theorem tickDetectCc (h : P s) : P (tickDetectCc s) := by
  have h1 := hP.now s h
  have h2 := hP.level _ h1
  rw [tickDetectCc_eq]
  dsimp only
  split
  · exact h1
  · split
    · exact hP.tickLevel _ h2
    · exact h2

theorem tickEnable (pin : CcPin) (h : P s) : P (tickEnable pin s) := by
  have h1 := hP.action (.transceiverEnable pin) s h
  rw [tickEnable_eq]
  dsimp only
  split
  · exact hP.block _ _ _ _ _ _ (hP.now _ h1)
  · exact h1

theorem updateVbus (hvs : ∀ s vs, P s → P { s with vs := vs }) (h : P s) : P (updateVbus s).2 := by
  refine updateVbus_keeps s hP.read (fun next report u hu => ?_) h
  have hw := hP.write u.cfg.regMeasure [measureByte u.cfg (next.last.getD 0)] u hu
  rw [vbusProgram_eq]
  dsimp only
  split
  · exact hvs _ _ hw
  · exact hw

/-- What every call keeps, every instruction keeps; `VBUSSTEP`, if it says nothing of the search state either. -/
theorem exec {i : Instr} {t : State} (hvs : i = .vbusstep → ∀ s vs, P s → P { s with vs := vs }) (h : P s)
    (hexec : exec i s = .next t) : P t := by
  cases exec_did hexec with
  | result r => exact hP.returns r h
  | access r _ hu => exact hP.returns r (hP.accessed hu h)
  | frame r => exact hP.returns r (readNextFrame_keeps s hP.read h)
  | sample r => exact hP.returns r (hP.updateVbus (hvs rfl) h)
  | init r => exact hP.returns r (hP.action _ _ h)
  | reset => exact hP.block s _ _ _ _ _ h
  | request index ma => exact hP.returns _ (hP.requestCapability index ma h)
  | update ht =>
    cases ht with
    | start => exact hP.returns _ (hP.tickStart h)
    | detect => exact hP.returns _ (hP.tickDetectCc h)
    | enable => exact hP.returns _ (hP.tickEnable _ h)
    | messages => exact hP.runLoop _ h
  | procmsg => exact hP.runLoop _ h

end KeptByCalls

/-- A step waits, or runs one instruction on the state with its presentation taken. -/
theorem step_cases {s t : State} (h : step s = .next t) :
    t = s ∨ ∃ i port wire, exec i { s with port := port, wire := wire } = .next t := by
  unfold step at h
  split at h
  · rename_i i s' htake
    right
    refine ⟨i, s'.port, s'.wire, ?_⟩
    rw [← h]
    congr 1
    unfold State.takeNext at htake
    split at htake
    · cases htake; rfl
    · split at htake
      · split at htake <;> cases htake
        rfl
      · split at htake
        · cases htake
        · split at htake <;> cases htake
          rfl
  · cases h
  · exact .inl (Host.Outcome.next.inj h).symm

/-- What every call keeps, every step keeps, if it says nothing of the search state. -/
theorem KeptByCalls.step {P : State → Prop} (hP : KeptByCalls P) (hvs : ∀ s vs, P s → P { s with vs := vs })
    {s t : State} (h : P s) (hstep : step s = .next t) : P t := by
  rcases step_cases hstep with rfl | ⟨i, port, wire, hexec⟩
  · exact h
  · exact hP.exec (fun _ => hvs) (hP.block s _ port wire _ _ h) hexec

/-! ## Properties that every call keeps -/

/-- Calls add to the record and to the clock, and write no parameter. -/
theorem keptByCalls_later (s : State) : KeptByCalls (fun t => s.Later t) where
  write addr bytes t := fun ⟨hcfg, htrace, hclock⟩ =>
    ⟨hcfg, by rw [regWrite_trace]; exact htrace.trans ⟨_, rfl⟩, hclock⟩
  read addr n t := fun ⟨hcfg, htrace, hclock⟩ =>
    ⟨hcfg, by rw [regRead_trace]; exact htrace.trans ⟨_, rfl⟩, hclock⟩
  now t := fun ⟨hcfg, htrace, hclock⟩ =>
    ⟨hcfg, by rw [nowMs_trace]; exact htrace.trans ⟨_, rfl⟩,
      by rw [nowMs_clock]; exact Nat.le_add_right_of_le hclock⟩
  action a t := fun ⟨hcfg, htrace, hclock⟩ =>
    ⟨hcfg, by rw [chipAction_trace]; exact htrace.trans ⟨_, rfl⟩, hclock⟩
  level t := fun ⟨hcfg, htrace, hclock⟩ =>
    ⟨hcfg, by rw [ccLevelRead_trace]; exact htrace.trans ⟨_, rfl⟩, hclock⟩
  block _ _ _ _ _ _ h := h

/-- A record in two parts, each with every transaction paused, has every transaction paused. -/
theorem paused_append {us : Nat} {l l' : List Event} (h : Paused us l = true) (h' : Paused us l' = true) :
    Paused us (l ++ l') = true := by
  induction l with
  | nil => exact h'
  | cons e l ih =>
    cases e with
    | write | read =>
      simp only [Paused, Bool.and_eq_true, decide_eq_true_eq] at h
      obtain ⟨hhead, hrest⟩ := h
      obtain ⟨rest, rfl⟩ := List.head?_eq_some_iff.1 hhead
      simpa [Paused] using ih hrest
    | delay | now | action | level => exact ih h

/-- Calls that are transactions record the pause with them (R54). -/
theorem keptByCalls_paused (us : Nat) :
    KeptByCalls (fun t => t.cfg.tXactDelayUs = us ∧ Paused us t.trace = true) where
  write addr bytes t := fun ⟨hus, h⟩ =>
    ⟨hus, by rw [regWrite_trace, hus]; exact paused_append h (by simp [Paused])⟩
  read addr n t := fun ⟨hus, h⟩ =>
    ⟨hus, by rw [regRead_trace, hus]; exact paused_append h (by simp [Paused])⟩
  now t := fun ⟨hus, h⟩ => ⟨hus, by rw [nowMs_trace]; exact paused_append h rfl⟩
  action a t := fun ⟨hus, h⟩ => ⟨hus, by rw [chipAction_trace]; exact paused_append h rfl⟩
  level t := fun ⟨hus, h⟩ => ⟨hus, by rw [ccLevelRead_trace]; exact paused_append h rfl⟩
  block _ _ _ _ _ _ h := h

/-- Calls keep the chip's register space in canonical form. -/
theorem keptByCalls_regs_wf : KeptByCalls (fun t => t.chip.regs.Wf) where
  write addr bytes t h := by rw [regWrite_chip]; exact written_wf (c := (t.chipRuns t.nextDraw).chip) h ..
  read addr n t h := by rw [regRead_regs]; exact h
  now _ h := h
  action a t _ := by rw [chipAction_regs]; exact Mem.Wf.nil
  level t _ := by rw [ccLevelRead_regs]; exact Mem.Wf.nil
  block _ _ _ _ _ _ h := h

/-- No call moves the sampler's search. -/
theorem keptByCalls_vs (s : State) : KeptByCalls (fun t => t.vs = s.vs) where
  write _ _ _ h := h
  read _ _ _ h := h
  now _ h := h
  action _ _ h := h
  level _ h := h
  block _ _ _ _ _ _ h := h

/-! ## What an instruction does to the sequencer -/

/-- What messages can make of the sequencer (R194 to R199): the state, the pin and the times stay; a list, once
stored, has at most 7 entries and stands under the marker; the id moves on with the first list only. -/
structure Sequencer.AfterMessages (q q' : Sequencer) : Prop where
  nstate : q'.nstate = q.nstate
  ccpin : q'.ccpin = q.ccpin
  tsettle : q'.tsettle = q.tsettle
  twait : q'.twait = q.twait
  list : q'.capcount = q.capcount ∧ q'.srccapseen = q.srccapseen ∧ q'.msgid = q.msgid ∨
    q'.capcount.val ≤ 7 ∧ q'.srccapseen = true ∧
      (q'.msgid = q.msgid ∨ q.srccapseen = false ∧ q'.msgid = q.msgid + 1)

theorem Sequencer.AfterMessages.refl (q : Sequencer) : q.AfterMessages q :=
  ⟨rfl, rfl, rfl, rfl, .inl ⟨rfl, rfl, rfl⟩⟩

theorem Sequencer.AfterMessages.trans {q q' q'' : Sequencer} (h : q.AfterMessages q') (h' : q'.AfterMessages q'') :
    q.AfterMessages q'' := by
  refine ⟨h'.nstate.trans h.nstate, h'.ccpin.trans h.ccpin, h'.tsettle.trans h.tsettle, h'.twait.trans h.twait, ?_⟩
  rcases h.list with ⟨hcount, hseen, hid⟩ | ⟨hcount, hseen, hid⟩
  · rw [← hcount, ← hseen, ← hid]
    exact h'.list
  · rcases h'.list with ⟨hcount', hseen', hid'⟩ | ⟨hcount', hseen', hid'⟩
    · rw [hcount', hseen', hid']
      exact .inr ⟨hcount, hseen, hid⟩
    · rcases hid' with hid' | ⟨hunseen, -⟩
      · rw [hid']
        exact .inr ⟨hcount', hseen', hid⟩
      · rw [hseen] at hunseen
        cases hunseen

/-- Messages leave the id, or move it by one with the first list (R24, R194). -/
theorem Sequencer.AfterMessages.msgid {q q' : Sequencer} (h : q.AfterMessages q') :
    q'.msgid = q.msgid ∨ q'.msgid = q.msgid + 1 ∧ q.srccapseen = false ∧ q'.srccapseen = true := by
  rcases h.list with ⟨-, -, hid⟩ | ⟨-, hseen, hid | ⟨hunseen, hid⟩⟩
  · exact .inl hid
  · exact .inl hid
  · exact .inr ⟨hid, hunseen, hseen⟩

/-- One message does no more than that. -/
theorem dispatchMessage_afterMessages (f : RxFrame) (s : State) :
    s.seq.AfterMessages (dispatchMessage f s).2.seq := by
  rcases dispatchMessage_cases s f with ⟨r, k, p, e⟩ | ⟨ndo, objects, e⟩ | e <;> rw [e]
  · exact ⟨rfl, rfl, rfl, rfl, .inl ⟨rfl, rfl, rfl⟩⟩
  · have hcount : ndo.toNat ≤ 7 := Nat.le_of_lt_succ ndo.isLt
    rcases onSourceCapabilities_cases s ndo objects with ⟨hseen, e⟩ | ⟨hunseen, e⟩ <;> simp only [e]
    · exact ⟨rfl, rfl, rfl, rfl, .inr ⟨hcount, hseen, .inl rfl⟩⟩
    · rw [requestCapability_seq]
      split
      · exact ⟨rfl, rfl, rfl, rfl, .inr ⟨hcount, rfl, .inr ⟨hunseen, rfl⟩⟩⟩
      · exact ⟨rfl, rfl, rfl, rfl, .inr ⟨hcount, rfl, .inl rfl⟩⟩
  · exact .refl _

/-- Any number of passes of the message loop do no more than that. -/
theorem messageLoop_afterMessages (n : Nat) (saw : Bool) (s : State) :
    s.seq.AfterMessages (messageLoop n saw s).2.seq :=
  messageLoop_keeps (P := fun t => s.seq.AfterMessages t.seq)
    (fun t ht => messagePass_keeps t (P := fun u => s.seq.AfterMessages u.seq) (fun _ _ _ hu => hu)
      (fun f u hu => hu.trans (dispatchMessage_afterMessages f u)) ht) n saw s (.refl _)

/-- Running a loop does what its messages do; only for `UPDATE` in WaitSourceCapabilities the exit test may follow,
and take one of its two rows (R192, R204). -/
theorem runLoop_seq (l : Loop) (s : State) :
    s.seq.AfterMessages (runLoop l s).seq ∨
    l.caller = .update ∧ s.seq.nstate = .waitSourceCapabilities ∧
      ∃ q n, s.seq.AfterMessages q ∧ (n = .connected ∨ n = .enableTransceiver) ∧
        (runLoop l s).seq = { q with nstate := n } := by
  have hloop := messageLoop_afterMessages (s.env.script.length + 1) l.saw s
  rcases runLoop_cases s l with ⟨saw, -, e⟩ | ⟨saw, -, e⟩ <;> rw [e]
  · generalize (messageLoop (s.env.script.length + 1) l.saw s).2 = u at hloop
    rcases loopReturns_cases u l.caller saw with ⟨r, e⟩ | ⟨hcaller, hwait, e⟩ <;> rw [e]
    · exact .inl hloop
    · have hs : s.seq.nstate = .waitSourceCapabilities := hloop.nstate.symm.trans hwait
      rcases afterWait_cases { u with loop := none } saw with ⟨-, e⟩ | ⟨-, e | e⟩ <;> rw [e]
      · exact .inr ⟨hcaller, hs, u.seq, .connected, hloop, .inl rfl, rfl⟩
      · exact .inl hloop
      · exact .inr ⟨hcaller, hs, u.seq, .enableTransceiver, hloop, .inr rfl, rfl⟩
  · exact .inl hloop

/-- Everything an instruction can do to the sequencer. -/
inductive SeqMoves (i : Instr) (s t : State) : Prop where
  | stays (h : t.seq = s.seq)
  | clears (hi : i = .reset) (h : t.seq = s.seq.cleared)
  | requests {index : BitVec 3} {ma : Nat} (hi : i = .reqcap index ma) (hr : t.result = .ok)
      (h : t.seq = s.seq.requested index)
  | measures {now : Nat} (hi : i = .update) (hs : s.seq.nstate = .start) (hnow : now < 2 ^ s.cfg.clockWidth)
      (h : t.seq = { s.seq with ccmeas := .cc1, ccsaved := none, tsettle := now, nstate := .detectCc })
  | saves {saved : Option Nat} {pin : CcPin} {now : Nat} (hi : i = .update) (hs : s.seq.nstate = .detectCc)
      (hnow : now < 2 ^ s.cfg.clockWidth)
      (h : t.seq = { s.seq with ccsaved := saved, ccmeas := pin, tsettle := now })
  | decides {pin : CcPin} (hi : i = .update) (hs : s.seq.nstate = .detectCc)
      (h : t.seq = { s.seq with ccpin := some pin, nstate := .enableTransceiver })
  | enables {now : Nat} (hi : i = .update) (hs : s.seq.nstate = .enableTransceiver)
      (hnow : now < 2 ^ s.cfg.clockWidth)
      (h : t.seq = { s.seq with twait := now, nstate := .waitSourceCapabilities })
  | messages (hi : i = .update ∨ i = .procmsg) (h : s.seq.AfterMessages t.seq)
  | exits {q : Sequencer} {n : NegState} (hi : i = .update ∨ i = .procmsg ∧ s.loop ≠ none)
      (hs : s.seq.nstate = .waitSourceCapabilities) (hm : s.seq.AfterMessages q)
      (hn : n = .connected ∨ n = .enableTransceiver) (h : t.seq = { q with nstate := n })

/-- A clock value has the width of the parameters, which no call before the reading changed (R225). -/
theorem nowMs_lt_of_cfg {u : State} {c : Params} (h : u.cfg = c) : (nowMs u).1 < 2 ^ c.clockWidth := h ▸ nowMs_lt u

/-- Returning the state leaves the sequencer. -/
@[simp] theorem returnsNstate_seq (s : State) : (returnsNstate s).seq = s.seq := rfl

/-- A tick in Start stays, or measures CC1 (R188). -/
theorem tickStart_seqMoves {s : State} (hs : s.seq.nstate = .start) :
    SeqMoves .update s (returnsNstate (tickStart s)) := by
  rw [tickStart_eq]
  dsimp only
  split
  · split
    · refine .measures rfl hs ?_ rfl
      exact nowMs_lt_of_cfg (by simp only [chipAction_cfg])
    · exact .stays (by simp)
  · exact .stays (by simp)

/-- A tick in DetectCc stays, decides the pin, or saves a level and measures the other pin (R189). -/
theorem tickDetectCc_seqMoves {s : State} (hs : s.seq.nstate = .detectCc) :
    SeqMoves .update s (returnsNstate (tickDetectCc s)) := by
  rw [tickDetectCc_eq]
  dsimp only
  split
  · exact .stays (by simp)
  · split
    · rw [tickLevel_eq]
      dsimp only
      split
      · exact .decides rfl hs rfl
      · split
        · refine .saves rfl hs ?_ rfl
          exact nowMs_lt_of_cfg (by simp only [chipAction_cfg, ccLevelRead_cfg, nowMs_cfg])
        · exact .stays (by simp)
    · exact .stays (by simp)

/-- A tick in EnableTransceiver stays, or waits for the source (R191). -/
theorem tickEnable_seqMoves {s : State} (pin : CcPin) (hs : s.seq.nstate = .enableTransceiver) :
    SeqMoves .update s (returnsNstate (tickEnable pin s)) := by
  rw [tickEnable_eq]
  dsimp only
  split
  · refine .enables rfl hs ?_ rfl
    exact nowMs_lt_of_cfg (by simp only [chipAction_cfg])
  · exact .stays (by simp)

/-- A call of `PROCMSG` that runs a loop of `UPDATE` goes on with one in progress. -/
theorem loop_ne_none_of_procmsgLoop {s : State} (h : (procmsgLoop s).caller = .update) : s.loop ≠ none := by
  intro hnone
  rw [procmsgLoop, hnone] at h
  cases h

/-- Every instruction does one of these things to the sequencer. -/
theorem exec_seqMoves {i : Instr} {s t : State} (h : exec i s = .next t) : SeqMoves i s t := by
  cases exec_did h with
  | result => exact .stays rfl
  | access r _ hu => cases hu <;> exact .stays rfl
  | frame => exact .stays (readNextFrame_seq s)
  | sample =>
    obtain ⟨-, hseq, -⟩ := updateVbus_frame s
    exact .stays hseq
  | init => exact .stays rfl
  | reset => exact .clears rfl rfl
  | request index ma =>
    have hseq := requestCapability_seq s index ma
    cases hd : s.nextDraw.ok <;> rw [hd] at hseq
    · exact .stays hseq
    · exact .requests rfl rfl hseq
  | update ht =>
    cases ht with
    | start hs => exact tickStart_seqMoves hs
    | detect hs => exact tickDetectCc_seqMoves hs
    | enable pin hs => exact tickEnable_seqMoves pin hs
    | messages =>
      rcases runLoop_seq { saw := false, caller := .update } s with hm | ⟨-, hs, q, n, hm, hn, e⟩
      · exact .messages (.inl rfl) hm
      · exact .exits (.inl rfl) hs hm hn e
  | procmsg =>
    rcases runLoop_seq (procmsgLoop s) s with hm | ⟨hcaller, hs, q, n, hm, hn, e⟩
    · exact .messages (.inr rfl) hm
    · exact .exits (.inr ⟨rfl, loop_ne_none_of_procmsgLoop hcaller⟩) hs hm hn e

/-- Messages keep the sequencer legal. -/
theorem Sequencer.AfterMessages.legal {c : Params} {q q' : Sequencer} (h : q.AfterMessages q') (hq : q.Legal c) :
    q'.Legal c := by
  obtain ⟨hcount, hpin, htsettle, htwait, hseen⟩ := hq
  rw [← h.nstate, ← h.ccpin] at hpin
  rw [← h.tsettle] at htsettle
  rw [← h.twait] at htwait
  rcases h.list with ⟨hcount', hseen', -⟩ | ⟨hcount', hseen', -⟩
  · rw [← hcount'] at hcount hseen
    rw [← hseen'] at hseen
    exact ⟨hcount, hpin, htsettle, htwait, hseen⟩
  · exact ⟨hcount', hpin, htsettle, htwait, fun _ => hseen'⟩

/-- Whatever an instruction does to the sequencer keeps it legal. -/
theorem SeqMoves.legal {i : Instr} {s t : State} (h : SeqMoves i s t) (hs : s.seq.Legal s.cfg) :
    t.seq.Legal s.cfg := by
  have ⟨hcount, hpin, htsettle, htwait, hseen⟩ := hs
  cases h with
  | stays h => rw [h]; exact hs
  | clears _ h => rw [h]; exact ⟨Nat.zero_le _, by simp [Sequencer.cleared], htsettle, htwait, fun h => absurd rfl h⟩
  | requests _ _ h => rw [h]; exact hs
  | measures _ _ hnow h => rw [h]; exact ⟨hcount, by simp, hnow, htwait, hseen⟩
  | saves _ _ hnow h => rw [h]; exact ⟨hcount, hpin, hnow, htwait, hseen⟩
  | decides _ _ h => rw [h]; exact ⟨hcount, by simp, htsettle, htwait, hseen⟩
  | enables _ he hnow h => rw [h]; exact ⟨hcount, fun _ => hpin (.inl he), htsettle, hnow, hseen⟩
  | messages _ hm => exact hm.legal hs
  | exits _ hw hm _ h =>
    have ⟨hcount', hpin', htsettle', htwait', hseen'⟩ := hm.legal hs
    rw [h]
    exact ⟨hcount', fun _ => hpin' (.inr (.inl (hm.nstate.trans hw))), htsettle', htwait', hseen'⟩

/-- Every change of the sequencer's state, with the instruction that makes it. -/
theorem SeqMoves.nstate {i : Instr} {s t : State} (h : SeqMoves i s t) :
    t.seq.nstate = s.seq.nstate ∨
    i = .reset ∧ t.seq.nstate = .start ∨
    i = .update ∧ (s.seq.nstate = .start ∧ t.seq.nstate = .detectCc ∨
      s.seq.nstate = .detectCc ∧ t.seq.nstate = .enableTransceiver ∨
      s.seq.nstate = .enableTransceiver ∧ t.seq.nstate = .waitSourceCapabilities) ∨
    (i = .update ∨ i = .procmsg ∧ s.loop ≠ none) ∧ s.seq.nstate = .waitSourceCapabilities ∧
      (t.seq.nstate = .connected ∨ t.seq.nstate = .enableTransceiver) := by
  cases h with
  | stays h => exact .inl (by rw [h])
  | clears hi h => exact .inr (.inl ⟨hi, by rw [h]; rfl⟩)
  | requests _ _ h => exact .inl (by rw [h]; rfl)
  | measures hi hs _ h => exact .inr (.inr (.inl ⟨hi, .inl ⟨hs, by rw [h]⟩⟩))
  | saves _ _ _ h => exact .inl (by rw [h])
  | decides hi hs h => exact .inr (.inr (.inl ⟨hi, .inr (.inl ⟨hs, by rw [h]⟩)⟩))
  | enables hi hs _ h => exact .inr (.inr (.inl ⟨hi, .inr (.inr ⟨hs, by rw [h]⟩)⟩))
  | messages _ hm => exact .inl hm.nstate
  | exits hi hs _ hn h => exact .inr (.inr (.inr ⟨hi, hs, by rw [h]; exact hn⟩))

/-- Each of these changes is a row of the table of R204. -/
theorem SeqMoves.mayGo {i : Instr} {s t : State} (h : SeqMoves i s t) :
    mayGo s.seq.nstate t.seq.nstate = true := by
  rcases h.nstate with e | ⟨-, e⟩ | ⟨-, ⟨hs, e⟩ | ⟨hs, e⟩ | ⟨hs, e⟩⟩ | ⟨-, hs, e | e⟩ <;> rw [e]
  · cases s.seq.nstate <;> rfl
  · cases s.seq.nstate <;> rfl
  all_goals rw [hs]; rfl

/-! ## The statements -/

/-- Settles O48: every call keeps what was recorded, and the clock. -/
theorem stepTakesNothingBack : Obligations.StepTakesNothingBack := by
  intro s t h
  exact (keptByCalls_later s).step (fun _ _ h => h) ⟨rfl, ⟨[], List.append_nil _⟩, le_rfl⟩ h

/-- Settles O49: every call that is a transaction records its pause behind it. -/
theorem everyTransactionIsPaused : Obligations.EveryTransactionIsPaused := by
  intro s t hpaused h
  obtain ⟨hus, ht⟩ := (keptByCalls_paused s.cfg.tXactDelayUs).step (fun _ _ h => h) ⟨rfl, hpaused⟩ h
  rw [hus]
  exact ht

/-- Settles O11: the parameters' defaults meet their side conditions, no code is programmed and no register known. -/
theorem resetIsLegal : Obligations.ResetIsLegal := by
  refine ⟨?_, ⟨Nat.zero_le _, ?_, Nat.two_pow_pos _, Nat.two_pow_pos _, ?_⟩, ⟨?_, ?_⟩, Mem.Wf.nil⟩
  · exact ⟨⟨by decide, by decide, by decide⟩, by decide, by decide, by decide, by decide, by decide, by decide⟩
  · rintro (h | h | h) <;> cases h
  · exact fun h => absurd rfl h
  · decide
  · exact fun _ h => nomatch h

/-- Settles O12: no step writes a parameter; what an instruction does to the sequencer keeps it legal; only
`VBUSSTEP` moves the search, and keeps it legal; every call keeps the registers' canonical form. -/
theorem stepKeepsLegal : Obligations.StepKeepsLegal := by
  rintro s t ⟨hok, hseq, hvs, hregs⟩ h
  have hcfg : t.cfg = s.cfg := (stepTakesNothingBack s t h).1
  have hwf : t.chip.regs.Wf := keptByCalls_regs_wf.step (fun _ _ h => h) hregs h
  rw [State.Legal, hcfg]
  rcases step_cases h with rfl | ⟨i, port, wire, hexec⟩
  · exact ⟨hok, hseq, hvs, hregs⟩
  · refine ⟨hok, (exec_seqMoves hexec).legal hseq, ?_, hwf⟩
    by_cases hi : i = .vbusstep
    · subst hi
      cases hexec
      exact updateVbus_legal { s with port := port, wire := wire } hok hvs
    · rw [show t.vs = s.vs from
        (keptByCalls_vs { s with port := port, wire := wire }).exec (fun h => absurd h hi) rfl hexec]
      exact hvs

/-- Settles O45: the changes of the state, with the instructions that make them, are rows of the table. -/
theorem nstateFollowsTransferTable : Obligations.NstateFollowsTransferTable := by
  intro s t
  refine ⟨fun h => ?step, fun i h hu hr hp => ?others, fun h hloop => ?procmsg, fun i h hstart hne => ?toStart,
    fun i h hconnected hr => ?connected, fun i h => (exec_seqMoves h).mayGo⟩
  case step =>
    rcases step_cases h with rfl | ⟨i, port, wire, hexec⟩
    · exact (SeqMoves.stays (i := .reset) rfl).mayGo
    · exact (exec_seqMoves hexec).mayGo
  case others =>
    rcases (exec_seqMoves h).nstate with e | ⟨hi, -⟩ | ⟨hi, -⟩ | ⟨hi | ⟨hi, -⟩, -⟩
    · exact e
    · exact absurd hi hr
    · exact absurd hi hu
    · exact absurd hi hu
    · exact absurd hi hp
  case procmsg =>
    rcases (exec_seqMoves h).nstate with e | ⟨hi, -⟩ | ⟨hi, -⟩ | ⟨hi | ⟨-, hne⟩, -⟩
    · exact e
    · cases hi
    · cases hi
    · cases hi
    · exact absurd hloop hne
  case toStart =>
    rcases (exec_seqMoves h).nstate with e | ⟨hi, -⟩ | ⟨-, ⟨-, e⟩ | ⟨-, e⟩ | ⟨-, e⟩⟩ | ⟨-, -, e | e⟩
    · exact absurd (e.symm.trans hstart) hne
    · exact hi
    all_goals cases e.symm.trans hstart
  case connected =>
    rcases (exec_seqMoves h).nstate with e | ⟨hi, -⟩ | ⟨-, ⟨hs, -⟩ | ⟨hs, -⟩ | ⟨hs, -⟩⟩ | ⟨-, hs, -⟩
    · exact e.trans hconnected
    · exact absurd hi hr
    all_goals cases hs.symm.trans hconnected

/-- Settles O46: the id moves only with a Request that went out, `REQCAP`'s or the one for the first list. -/
theorem messageIdMovesByOne : Obligations.MessageIdMovesByOne := by
  intro i s t h
  refine ⟨?_, fun hr => ?_⟩
  · rintro rfl
    cases h
    rfl
  · cases exec_seqMoves h with
    | clears hi => exact absurd hi hr
    | requests hi hok h => exact .inr ⟨by rw [h]; rfl, .inl ⟨_, _, hi, hok⟩⟩
    | messages hi hm => exact hm.msgid.imp_right fun ⟨hid, hseen⟩ => ⟨hid, .inr ⟨hi, hseen⟩⟩
    | exits hi _ hm _ h =>
      rw [h]
      exact hm.msgid.imp_right fun ⟨hid, hseen⟩ => ⟨hid, .inr ⟨hi.imp_right And.left, hseen⟩⟩
    | stays h | measures _ _ _ h | saves _ _ _ h | decides _ _ h | enables _ _ _ h => exact .inl (by rw [h])

/-- Settles O47: no call moves the search, and `VBUSSTEP` leaves the sequencer alone. -/
theorem onlyVbusstepMovesSearch : Obligations.OnlyVbusstepMovesSearch := by
  intro i s t h
  refine ⟨fun hi => (keptByCalls_vs s).exec (fun h => absurd h hi) rfl h, ?_⟩
  rintro rfl
  cases h
  obtain ⟨-, hseq, -⟩ := updateVbus_frame s
  exact hseq

/-- Settles O50: of all that an instruction can have done, only setting the result is a codec operation's, a
read-out's or a wire format's. -/
theorem codecAndReadOutsArePure : Obligations.CodecAndReadOutsArePure := by
  intro i s t h hquiet
  have quiet : Quiet i := hquiet
  cases exec_did h with
  | result r => rfl
  | access _ haccess => exact absurd quiet haccess.not_quiet
  | procmsg => rcases quiet with ⟨op, hop, -⟩ | hformat <;> contradiction
  | frame | sample | init | reset | request | update =>
    rcases quiet with ⟨op, hop, hmem⟩ | hformat
    · cases hop
      exact absurd hmem (by decide)
    · cases hformat

end Sys2Proof.Machine
end

section
/-!
PROOFS. Calls in their domain complete (O6), and the message loop cut over steps ends as the uncut loop (O51). What a
call does to the loop's mark comes first.
-/

namespace Sys2Proof.Machine

section LoopMark

variable (s : State)

/-! ## The loop's mark and the result -/

/-- The messages of a loop set no result. -/
theorem messageLoop_result (n : Nat) (saw : Bool) : (messageLoop n saw s).2.result = s.result := by
  refine messageLoop_keeps (P := fun t => t.result = s.result) (fun t ht => ?_) n saw s rfl
  refine messagePass_keeps t (P := fun u => u.result = s.result) (fun _ _ _ hu => hu) (fun f u hu => ?_) ht
  rcases dispatchMessage_cases u f with ⟨r, k, p, e⟩ | ⟨ndo, objects, e⟩ | e <;> rw [e]
  · exact hu
  · rcases onSourceCapabilities_cases u ndo objects with ⟨-, e⟩ | ⟨-, e⟩ <;> simp only [e]
    · exact hu
    · rw [requestCapability_eq]
      dsimp only
      split <;> exact hu
  · exact hu

/-- A loop that ended leaves no mark (R190, R192, R193). -/
theorem loopReturns_loop (caller : Caller) (saw : Bool) : (loopReturns caller saw s).loop = none := by
  rcases loopReturns_cases s caller saw with ⟨r, e⟩ | ⟨-, -, e⟩ <;> rw [e]
  rcases afterWait_cases { s with loop := none } saw with ⟨-, e⟩ | ⟨-, e | e⟩ <;> rw [e] <;> rfl

/-- What the end of a loop does, does not depend on the mark. -/
theorem loopReturns_withLoop (caller : Caller) (saw : Bool) (x : Option Loop) :
    loopReturns caller saw (withLoop x s) = loopReturns caller saw s := rfl

/-- A loop that was run ended, or is in progress and has not returned (R255). -/
theorem runLoop_loop (l : Loop) :
    (runLoop l s).loop = none ∨ (∃ l', (runLoop l s).loop = some l') ∧ (runLoop l s).result = s.result := by
  rcases runLoop_cases s l with ⟨saw, -, e⟩ | ⟨saw, -, e⟩ <;> rw [e]
  · exact .inl (loopReturns_loop ..)
  · exact .inr ⟨⟨_, rfl⟩, messageLoop_result ..⟩

/-- Only `UPDATE` and `PROCMSG` touch the loop's mark. -/
theorem exec_loop {i : Instr} {s t : State} (h : exec i s = .next t) (hu : i ≠ .update) (hp : i ≠ .procmsg) :
    t.loop = s.loop := by
  cases exec_did h with
  | access r _ hacc => cases hacc <;> rfl
  | frame => exact readNextFrame_loop s
  | sample =>
    obtain ⟨-, -, -, -, hloop⟩ := updateVbus_frame s
    exact hloop
  | request index ma => exact requestCapability_loop s index ma
  | result | init | reset => rfl
  | update => exact absurd rfl hu
  | procmsg => exact absurd rfl hp

/-- `UPDATE` with no loop in progress, and `PROCMSG`, end with no loop, or with one that has not returned. -/
theorem exec_loop_or_pending {i : Instr} {s t : State} (h : exec i s = .next t)
    (hi : i = .procmsg ∨ i = .update ∧ s.loop = none) :
    t.loop = none ∨ (∃ l, t.loop = some l) ∧ t.result = s.result := by
  rcases hi with rfl | ⟨rfl, hloop⟩
  · cases h
    exact runLoop_loop ..
  · cases exec_update_ticked h with
    | start =>
      obtain ⟨-, -, -, -, hsame⟩ := tickStart_frame s
      exact .inl (hsame.trans hloop)
    | detect =>
      obtain ⟨-, -, -, -, hsame⟩ := tickDetectCc_frame s
      exact .inl (hsame.trans hloop)
    | enable =>
      obtain ⟨-, -, -, -, hsame⟩ := tickEnable_frame s _
      exact .inl (hsame.trans hloop)
    | messages => exact runLoop_loop ..

/-- `UPDATE` answers a next state, if a pin is chosen where it needs one (R184). -/
theorem exec_update_total (hpin : s.seq.nstate = .enableTransceiver → s.seq.ccpin ≠ none) :
    ∃ t, exec .update s = .next t := by
  change ∃ t, execUpdate s = .next t
  unfold execUpdate
  split
  · exact ⟨_, rfl⟩
  · exact ⟨_, rfl⟩
  · split
    · exact ⟨_, rfl⟩
    · exact absurd ‹_› (hpin ‹_›)
  · exact ⟨_, rfl⟩
  · exact ⟨_, rfl⟩

/-- Every call in its domain answers a next state (R215). -/
theorem exec_total {i : Instr} (hwf : WellFormed i = true)
    (hpin : i = .update → s.seq.nstate = .enableTransceiver → s.seq.ccpin ≠ none) : ∃ t, exec i s = .next t := by
  cases i with
  | packreq | reqcap | regwrn | regrdn | wrmsg | rdframe | txFrame | rxFrame => exact ⟨_, inDomain_next _ hwf⟩
  | update => exact exec_update_total s (hpin rfl)
  | _ => exact ⟨_, rfl⟩

/-! ## Cutting the loop -/

/-- What a step of a machine with a loop in progress does: as many passes as the script has answers, and one more
(log entry 4). -/
theorem step_runs_loop {l : Loop} (h : s.loop = some l) : step s = .next (runLoop l s) := by
  rw [step_of_loop h]
  change execProcmsg s = _
  rw [execProcmsg, h]
  rfl

/-- Two numbers of passes that both end a loop end it alike. -/
theorem messageLoop_ended_unique {m n : Nat} {saw all all' : Bool} {u u' : State}
    (h : messageLoop m saw s = (.ended all, u)) (h' : messageLoop n saw s = (.ended all', u')) :
    all = all' ∧ u = u' := by
  have hm := messageLoop_add m n saw s
  have hn := messageLoop_add n m saw s
  rw [h] at hm
  rw [h', Nat.add_comm, hm] at hn
  cases hn
  exact ⟨rfl, rfl⟩

/-- A machine that steps to a next state runs on from there. -/
theorem coreRun_succ (M : Host.Core) (k : Nat) {s t : M.State} (h : M.step s = .next t) :
    M.run (k + 1) s = M.run k t := by
  rw [Host.Core.run, h]

/-- One more step of a run that goes on. -/
theorem run_succ {t u : State} {k : Nat} (h : step s = .next t) (hrun : core.run k t = .next u) :
    core.run (k + 1) s = .next u :=
  (coreRun_succ core k h).trans hrun

/-- A loop that comes to its end after some number of passes comes there in steps: what one step leaves, the next goes
on with. -/
theorem runLoop_reaches_end {n : Nat} : ∀ {s u : State} {l : Loop} {all : Bool},
    messageLoop n l.saw s = (.ended all, u) → ∃ k, core.run k (runLoop l s) = .next (loopReturns l.caller all u) := by
  induction n using Nat.strongRecOn with
  | _ n ih =>
    intro s u l all hend
    generalize hm : s.env.script.length + 1 = m
    rcases hcut : messageLoop m l.saw s with ⟨all' | saw, v⟩
    case ended =>
      obtain ⟨rfl, rfl⟩ := messageLoop_ended_unique s hcut hend
      refine ⟨0, ?_⟩
      simp only [runLoop, hm, hcut]
      rfl
    case goesOn =>
      have hlt : m < n := by
        by_contra hge
        have hadd := messageLoop_add n (m - n) l.saw s
        rw [Nat.add_sub_cancel' (not_lt.1 hge), hcut, hend] at hadd
        cases hadd
      have hrest := messageLoop_add m (n - m) l.saw s
      rw [Nat.add_sub_cancel' hlt.le, hend, hcut] at hrest
      have hmarked := messageLoop_withLoop (some { l with saw := saw }) (n - m) saw v
      rw [show messageLoop (n - m) saw v = (.ended all, u) from hrest.symm] at hmarked
      obtain ⟨k, hk⟩ := ih (n - m) (by omega) (l := { l with saw := saw }) hmarked
      refine ⟨k + 1, ?_⟩
      simp only [runLoop, hm, hcut]
      exact run_succ _ (step_runs_loop _ rfl) hk

/-- `UPDATE` in the two states with a message loop runs it (R192, R193). -/
theorem exec_update_messages (hs : s.seq.nstate = .waitSourceCapabilities ∨ s.seq.nstate = .connected) :
    exec .update s = .next (runLoop { saw := false, caller := .update } s) := by
  change execUpdate s = _
  unfold execUpdate
  rcases hs with hs | hs <;> rw [hs]

/-- `PROCMSG` with no loop in progress starts one (R190). -/
theorem exec_procmsg_starts (h : s.loop = none) :
    exec .procmsg s = .next (runLoop { saw := false, caller := .procmsg } s) := by
  change execProcmsg s = _
  rw [execProcmsg, h]
  rfl

end LoopMark

/-! ## The statements -/

/-- Settles O6: in its domain every operation answers a next state; the two with a message loop may leave it in
progress. -/
theorem everyCallInDomainCompletes : Obligations.EveryCallInDomainCompletes := by
  intro i s hwf hpin
  obtain ⟨t, h⟩ := exec_total s hwf hpin
  exact ⟨t, h, exec_loop h, exec_loop_or_pending h⟩

/-- Settles O51: a step makes as many passes as the script has answers, and one more; what it leaves in progress the
next one goes on with, and the passes of all of them are those of the uncut loop. -/
theorem messageLoopSplits : Obligations.MessageLoopSplits := by
  refine ⟨fun s l hloop => ⟨_, step_runs_loop s hloop, ?_⟩, fun s u l saw hloop hruns => ?_,
    fun s u i caller saw hloop hi hruns => ?_⟩
  case refine_1 =>
    rcases hcut : messageLoop (s.env.script.length + 1) l.saw s with ⟨all | saw, u⟩ <;> simp only [runLoop, hcut]
    · exact .inl ⟨loopReturns_loop .., all, u, loopRuns_of_messageLoop hcut, rfl⟩
    · exact .inr ⟨_, saw, u, Nat.succ_pos _, hcut, rfl⟩
  case refine_2 =>
    obtain ⟨n, hend⟩ := messageLoop_of_loopRuns hruns
    obtain ⟨k, hk⟩ := runLoop_reaches_end hend
    exact ⟨k + 1, run_succ s (step_runs_loop s hloop) hk⟩
  case refine_3 =>
    obtain ⟨n, hend⟩ := messageLoop_of_loopRuns hruns
    obtain ⟨k, hk⟩ := runLoop_reaches_end (l := { saw := false, caller := caller }) hend
    refine ⟨_, k, ?_, hk⟩
    rcases hi with ⟨rfl, rfl⟩ | ⟨rfl, rfl, hs⟩
    · exact exec_procmsg_starts s hloop
    · exact exec_update_messages s hs

end Sys2Proof.Machine
end
